-- ==== Sys2Proof/Word.lean ====
section
/-!
DEFINITION. The word types of the CORE.

Every register and every command is a 32-bit word (00_scope.md R7 WORD_BITS, 10_state.md R21) and DMEM is made of 8-bit
bytes (20_memory.md R60). All arithmetic is unsigned (00_scope.md R9).
-/

namespace Sys2Proof

/-- One DMEM byte (20_memory.md R60). -/
abbrev Byte := BitVec 8

/-- One register, one command word, one host bus word, one host offset (00_scope.md R7). -/
abbrev Word := BitVec 32

end Sys2Proof
end

