-- ==== Sys2Proof/Syntax.lean ====
section
/-!
DEFINITION. The commands of the CORE, one constructor per row of the opcode map (30_encoding.md R98, opcode_table.json).

The only operands a command word carries are indices, one-bit selectors and a block length (30_encoding.md section 2);
everything else is a register or DMEM.
-/

namespace Sys2Proof

/-- The command set (30_encoding.md R98). -/
inductive Instr where
  /-- NOP: no operation (45_system.md R230). -/
  | nop
  /-- QR a, b, c, d: quarter-round on S; every index 0 to 15 is legal, repeats too (30_encoding.md R93). -/
  | qr (a b c d : Fin 16)
  /-- COLRND: column round on S (40_permutation.md R122). -/
  | colrnd
  /-- DIAGRND: diagonal round on S (40_permutation.md R123). -/
  | diagrnd
  /-- DBLRND: double round on S (40_permutation.md R124). -/
  | dblrnd
  /-- PERM: the 20-round permutation on S (40_permutation.md R125). -/
  | perm
  /-- HCHACHA: subkey derivation (41_hchacha.md R142). -/
  | hchacha
  /-- KSBLK: one keystream block; KSEL, NSEL and INC as in 30_encoding.md R94. -/
  | ksblk (ksel nsel inc : Bool)
  /-- PINIT: load the one-time key; PKSRC as in 30_encoding.md R95. -/
  | pinit (pksrc : Bool)
  /-- PBLK n: absorb one block of `n` bytes, n = LENM1 + 1 (30_encoding.md R96). -/
  | pblk (n : Nat)
  /-- PFIN: finalise the tag (43_poly1305.md R180). -/
  | pfin
  /-- PVER: compare TAG with PTAG (43_poly1305.md R181). -/
  | pver
  /-- AEAD_ENC: encrypt a DMEM buffer (44_aead.md R203). -/
  | aeadEnc
  /-- AEAD_DEC: verify and decrypt a DMEM buffer (44_aead.md R205). -/
  | aeadDec
  /-- ZEROIZE: clear key material; DM as in 30_encoding.md R97. -/
  | zeroize (dm : Bool)
  deriving DecidableEq, Repr

end Sys2Proof
end

