-- ==== Sys2Proof/WellFormed.lean ====
section
/-!
DEFINITION. Which command terms the encoding can express.

Index and selector operands have types as wide as their fields, so the one check left is PBLK's block length: "`pblk n` ...
n is 1..16" (30_encoding.md R96, R102).
-/

namespace Sys2Proof

/-- A term some command word stands for (30_encoding.md R92 to R97). -/
def Instr.wellFormed : Instr → Bool
  | .nop => true
  | .qr _ _ _ _ => true
  | .colrnd => true
  | .diagrnd => true
  | .dblrnd => true
  | .perm => true
  | .hchacha => true
  | .ksblk _ _ _ => true
  | .pinit _ => true
  | .pblk n => 1 ≤ n && n ≤ 16
  | .pfin => true
  | .pver => true
  | .aeadEnc => true
  | .aeadDec => true
  | .zeroize _ => true

end Sys2Proof
end

