-- ==== Sys2Proof/Decode.lean ====
section
/-!
DEFINITION. The decoder of command words, total on every 32-bit word, and after it the encoder, both written from the
formats and the opcode map of 30_encoding.md (R90 to R99, R102).
-/

namespace Sys2Proof

/-- What a command word decodes to (30_encoding.md R99): a command, or one of the two reasons of ILLEGAL_COMMAND. -/
inductive Decoded where
  /-- The word is this command. -/
  | command (i : Instr)
  /-- OPC is not in the opcode map: ILLEGAL_COMMAND, CAUSE 1. -/
  | unassigned
  /-- A bit that must be zero is set: ILLEGAL_COMMAND, CAUSE 2. -/
  | reservedBit
  deriving DecidableEq, Repr

/-- Bit `i` of a command word (00_scope.md R8). -/
def flagOf (w : Word) (i : Nat) : Bool := w.getLsbD i

/-- The 4-bit field of a command word whose lowest bit is `lo`, "as an unsigned number" (00_scope.md R8). -/
def nibbleOf (w : Word) (lo : Nat) : Fin 16 := ⟨w.toNat / 2 ^ lo % 16, Nat.mod_lt _ (by decide)⟩

/-- Field OPC, bits 7:0 (30_encoding.md R91). -/
def opcOf (w : Word) : Nat := w.toNat % 256

/-- One row of the opcode map (30_encoding.md R98): the opcode, the mask of the bits its format fixes, and the command its
fields give. -/
structure OpcodeRow where
  opc  : Nat
  mask : Word
  read : Word → Instr

/-- The opcode map in the order of 30_encoding.md R98, with the fields of R92 to R97. -/
def opcodeMap : List OpcodeRow :=
  [ ⟨0x00, 0xFFFFFFFF, fun _ => .nop⟩,
    ⟨0x01, 0xFF0000FF, fun w => .qr (nibbleOf w 8) (nibbleOf w 12) (nibbleOf w 16) (nibbleOf w 20)⟩,
    ⟨0x02, 0xFFFFFFFF, fun _ => .colrnd⟩,
    ⟨0x03, 0xFFFFFFFF, fun _ => .diagrnd⟩,
    ⟨0x04, 0xFFFFFFFF, fun _ => .dblrnd⟩,
    ⟨0x05, 0xFFFFFFFF, fun _ => .perm⟩,
    ⟨0x10, 0xFFFFFFFF, fun _ => .hchacha⟩,
    ⟨0x11, 0xFFFFF8FF, fun w => .ksblk (flagOf w 8) (flagOf w 9) (flagOf w 10)⟩,
    ⟨0x20, 0xFFFFFEFF, fun w => .pinit (flagOf w 8)⟩,
    ⟨0x21, 0xFFFFF0FF, fun w => .pblk ((nibbleOf w 8).val + 1)⟩,
    ⟨0x22, 0xFFFFFFFF, fun _ => .pfin⟩,
    ⟨0x23, 0xFFFFFFFF, fun _ => .pver⟩,
    ⟨0x30, 0xFFFFFFFF, fun _ => .aeadEnc⟩,
    ⟨0x31, 0xFFFFFFFF, fun _ => .aeadDec⟩,
    ⟨0x3F, 0xFFFFFEFF, fun w => .zeroize (flagOf w 8)⟩ ]

/-- Decode of a command word in the order of 30_encoding.md R99: unassigned opcode, then reserved bit, then the command. -/
def decode (w : Word) : Decoded :=
  match opcodeMap.find? (fun r => r.opc == opcOf w) with
  | none => .unassigned
  | some r => if w &&& r.mask &&& 0xFFFFFF00#32 ≠ 0 then .reservedBit else .command (r.read w)

/-- A one-bit field placed at bit `i` (30_encoding.md R102). -/
def flagAt (b : Bool) (i : Nat) : Word := (if b then 1#32 else 0#32) <<< i

/-- A 4-bit field placed at bit `lo` (30_encoding.md R102). -/
def nibbleAt (n : Nat) (lo : Nat) : Word := BitVec.ofNat 32 (n % 16) <<< lo

/-- The command word of a command (30_encoding.md R102). -/
def encode : Instr → Word
  | .nop => 0x00#32
  | .qr a b c d => 0x01#32 ||| nibbleAt a.val 8 ||| nibbleAt b.val 12 ||| nibbleAt c.val 16 ||| nibbleAt d.val 20
  | .colrnd => 0x02#32
  | .diagrnd => 0x03#32
  | .dblrnd => 0x04#32
  | .perm => 0x05#32
  | .hchacha => 0x10#32
  | .ksblk ksel nsel inc => 0x11#32 ||| flagAt ksel 8 ||| flagAt nsel 9 ||| flagAt inc 10
  | .pinit pksrc => 0x20#32 ||| flagAt pksrc 8
  | .pblk n => 0x21#32 ||| nibbleAt (n - 1) 8
  | .pfin => 0x22#32
  | .pver => 0x23#32
  | .aeadEnc => 0x30#32
  | .aeadDec => 0x31#32
  | .zeroize dm => 0x3F#32 ||| flagAt dm 8

/-- The command word whose `nbits` lowest bits are those of `w` and whose other bits are 0 (every command is one 32-bit
word, 30_encoding.md R90). -/
def tableWord (nbits w : Nat) : Word := BitVec.ofNat 32 (w % 2 ^ nbits)

/-- The command this decoder reads from a word numbered as opcode_table.json numbers it; none where it refuses. -/
def decodeTableWord (nbits w : Nat) : Option Instr :=
  match decode (tableWord nbits w) with
  | .command i => some i
  | .unassigned => none
  | .reservedBit => none

end Sys2Proof
end

