-- ==== Sys2Proof/Machine/Bytes.lean ====
section
/-!
DEFINITION. The byte-string and word notation of the spec: rotation (00_scope.md R9), the little-endian conversions (R10),
padding (R11), and the packing of numbers into register arrays (10_state.md R34 to R36, R42).
-/

namespace Sys2Proof.Machine

/-- `rotl(x, n)` for 0 < n < 32 (00_scope.md R9). -/
def rotl (x : Word) (n : Nat) : Word := (x <<< n) ||| (x >>> (32 - n))

/-- `ceil(a / b)` (00_scope.md R9). -/
def ceilDiv (a b : Nat) : Nat := (a + (b - 1)) / b

/-- `le_int(b)`, the sum of b[i] * 2^(8*i) (00_scope.md R10). -/
def leInt : List Byte → Nat
  | [] => 0
  | b :: bs => b.toNat + 256 * leInt bs

/-- `le_bytes(v, n)`, the n bytes whose `le_int` is v mod 2^(8*n) (00_scope.md R10). -/
def leBytes : Nat → Nat → List Byte
  | _, 0 => []
  | v, n + 1 => BitVec.ofNat 8 v :: leBytes (v / 256) n

/-- `le32(b)`: the word of four bytes (00_scope.md R10). -/
def le32 (b : List Byte) : Word := BitVec.ofNat 32 (leInt b)

/-- `le64(n)` (00_scope.md R10). -/
def le64 (n : Nat) : List Byte := leBytes n 8

/-- `bytes_le(w)` of a word list (00_scope.md R10). -/
def bytesLe (ws : List Word) : List Byte := ws.flatMap (fun w => leBytes w.toNat 4)

/-- `words_le(b)` of the first 4*n bytes of b (00_scope.md R10). -/
def wordsLe (n : Nat) (b : List Byte) : Vector Word n :=
  Vector.ofFn (fun i => le32 ((b.drop (4 * i.val)).take 4))

/-- `zeros(n)` (00_scope.md R8). -/
def zeros (n : Nat) : List Byte := List.replicate n 0

/-- `pad16(x)` (00_scope.md R11). -/
def pad16 (x : List Byte) : List Byte := x ++ zeros ((16 - x.length % 16) % 16)

/-- `p XOR q` of byte strings (44_aead.md R200). -/
def xorBytes (p q : List Byte) : List Byte := List.zipWith (· ^^^ ·) p q

/-- The number a register array holds, the sum of A[i] * 2^(32*i) (10_state.md R34 to R36). -/
def numOf : List Word → Nat
  | [] => 0
  | w :: ws => w.toNat + 2 ^ 32 * numOf ws

/-- The register array of n words that holds v mod 2^(32*n), `words_le(le_bytes(v, 4*n))` (43_poly1305.md R178, R179). -/
def limbs (n : Nat) (v : Nat) : Vector Word n :=
  Vector.ofFn (fun i => BitVec.ofNat 32 (v / 2 ^ (32 * i.val)))

end Sys2Proof.Machine
end

