-- ==== Sys2Proof/Config.lean ====
section
/-!
DEFINITION. What an implementation fixes, and the free values ("draws") of the spec.

A draw is "never a fixed value: a model must let a claim hold for every draw" (00_scope.md R13). Each is an opaque constant
without a body, applied to the number of the draw (`State.draws`) and, where a draw has one value per DMEM byte, to the
byte's offset: no proof can learn any of its values.
-/

namespace Sys2Proof.Config

/-- CORE_ID, the value of the ID register: an OPEN parameter, any 32-bit value (00_scope.md R7, 10_state.md R25, D32, I4;
log entry 3). -/
opaque coreId : Word

/-- The default of the parameter DMEM_BYTES (00_scope.md R7, D4, I5; log entry 2). -/
def defaultDmemBytes : Nat := 65536

/-- The values DMEM_BYTES may have: "must be a multiple of 4 with 64 <= DMEM_BYTES <= 2^31" (00_scope.md R7). -/
def legalDmemBytes (d : Nat) : Bool := d % 4 = 0 && 64 ≤ d && d ≤ 2 ^ 31

/-- The data of a read while BUSY: "a draw, any 32-bit value" (70_reset_and_hazards.md R278, I1), for draw number `k`. -/
opaque freeWord (k : Nat) : Word

/-- The byte DMEM holds at an offset after the power-on reset that took draw number `k`: "every DMEM byte is a draw"
(70_reset_and_hazards.md R272, I2). -/
opaque freeByte (k : Nat) (off : Nat) : Byte

/-- For a command aborted by the soft reset that took draw number `k`: whether the DMEM byte at an offset holds the
command's new value rather than its old one (70_reset_and_hazards.md R273, I3). -/
opaque freeBit (k : Nat) (off : Nat) : Bool

end Sys2Proof.Config
end

