-- ==== Sys2Proof/Machine/State.lean ====
section
/-!
DEFINITION. The state of the CORE as plain data, the reasons a step can stop, and the state after a power-on reset.

Every register of 10_state.md R21 is here under its own name, beside the fields of STATUS and CTRL, DMEM (20_memory.md R60)
and three fields of the model's own (the schedule of what happens next, the count of draws, the last bus reply).
-/

namespace Sys2Proof.Machine

/-- The completion codes: the nine (ERR, CAUSE) rows of 60_exceptions.md R241. "Every (ERR, CAUSE) pair not in the table
[is] never produced", so there is no other constructor (I9; log entry 10). -/
inductive Completion where
  /-- (0, 0) OK, and the cleared report of reset and of acceptance. -/
  | ok
  /-- (1, 1) INVALID_ARGUMENT, SHORT_INPUT. -/
  | shortInput
  /-- (1, 2) INVALID_ARGUMENT, RANGE. -/
  | range
  /-- (1, 3) INVALID_ARGUMENT, OVERLAP. -/
  | overlap
  /-- (2, 0) AUTHENTICATION_FAILURE. -/
  | authenticationFailure
  /-- (3, 1) INTERNAL_OVERFLOW, COUNTER_EXHAUSTED. -/
  | counterExhausted
  /-- (3, 2) INTERNAL_OVERFLOW, LENGTH. -/
  | length
  /-- (4, 1) ILLEGAL_COMMAND, UNASSIGNED. -/
  | unassigned
  /-- (4, 2) ILLEGAL_COMMAND, RESERVED_BIT. -/
  | reservedBit
  deriving DecidableEq, Repr

/-- What a DMEM byte holds that no write has listed (log entry 1). -/
inductive Fill where
  /-- 0: after `zeroize dmem` (45_system.md R231). -/
  | zero
  /-- A draw per byte, the power-on image of draw number `draw` (70_reset_and_hazards.md R272). -/
  | powerOn (draw : Nat)
  /-- A draw per byte between `old` and 0: an aborted `zeroize dmem` (70_reset_and_hazards.md R273(c)). -/
  | aborted (draw : Nat) (old : Fill)
  deriving DecidableEq, Repr

/-- DMEM: the bytes writes have listed, by strictly rising offset, over a fill. -/
structure Memory where
  fill  : Fill
  cells : List Host.Cell
  deriving DecidableEq, Repr

/-- One thing that happens to the CORE: the environment's accesses and resets, and the engine's turn (log entry 5). -/
inductive Event where
  /-- The engine moves: a command in flight completes (70_reset_and_hazards.md R276). -/
  | engine
  /-- A host read at a window offset (20_memory.md R62). -/
  | read (off : Word)
  /-- A host write at a window offset, with its data and byte strobe (20_memory.md R62). -/
  | write (off data : Word) (strb : BitVec 4)
  /-- The power-on reset input (70_reset_and_hazards.md R270). -/
  | powerOn
  deriving DecidableEq, Repr

/-- A bus response (20_memory.md R62). -/
inductive Response where
  | okay
  | slverr
  deriving DecidableEq, Repr

/-- The CORE's answer to one host access (20_memory.md R62). -/
inductive Reply where
  /-- Response and data of a read. -/
  | read (resp : Response) (data : Word)
  /-- Response of a write. -/
  | write (resp : Response)
  deriving DecidableEq, Repr

/-- The state of one CORE (10_state.md R21 to R43, 20_memory.md R60). -/
structure State where
  /-- CMD: the last accepted command word, and while BUSY the command in flight (10_state.md R22, R43). -/
  cmd      : Word
  /-- STATUS.BUSY, the engine's phase (10_state.md R23, R43). -/
  busy     : Bool
  /-- STATUS.DONE (10_state.md R23). -/
  done     : Bool
  /-- STATUS.OVR (10_state.md R23). -/
  ovr      : Bool
  /-- STATUS.CTREXH (10_state.md R23, R29). -/
  ctrexh   : Bool
  /-- STATUS.AUTHOK (10_state.md R23). -/
  authok   : Bool
  /-- STATUS.ERR and STATUS.CAUSE (10_state.md R23, 60_exceptions.md R241). -/
  report   : Completion
  /-- CTRL.IE (10_state.md R24). -/
  ie       : Bool
  /-- ID, constant (10_state.md R25). -/
  id       : Word
  /-- DMEMSZ, constant: DMEM_BYTES (10_state.md R26). -/
  dmemsz   : Word
  /-- KEY[0..7] (10_state.md R27). -/
  key      : Vector Word 8
  /-- NONCE[0..5] (10_state.md R28). -/
  nonce    : Vector Word 6
  /-- CTR (10_state.md R29). -/
  ctr      : Word
  /-- SUBKEY[0..7] (10_state.md R30). -/
  subkey   : Vector Word 8
  /-- S[0..15] (10_state.md R31). -/
  s        : Vector Word 16
  /-- KS[0..15] (10_state.md R32). -/
  ks       : Vector Word 16
  /-- PKEY[0..7] (10_state.md R33). -/
  pkey     : Vector Word 8
  /-- PR[0..3] (10_state.md R34). -/
  pr       : Vector Word 4
  /-- PS[0..3] (10_state.md R35). -/
  ps       : Vector Word 4
  /-- PH[0..4] (10_state.md R36). -/
  ph       : Vector Word 5
  /-- PBLK[0..3] (10_state.md R37). -/
  pblk     : Vector Word 4
  /-- TAG[0..3] (10_state.md R38). -/
  tag      : Vector Word 4
  /-- PTAG[0..3] (10_state.md R39). -/
  ptag     : Vector Word 4
  /-- AAD_PTR (10_state.md R40). -/
  aadPtr   : Word
  /-- AAD_LEN (10_state.md R40). -/
  aadLen   : Word
  /-- SRC_PTR (10_state.md R40). -/
  srcPtr   : Word
  /-- SRC_LEN (10_state.md R40). -/
  srcLen   : Word
  /-- DST_PTR (10_state.md R40). -/
  dstPtr   : Word
  /-- OUT_LEN (10_state.md R41). -/
  outLen   : Word
  /-- DMEM (20_memory.md R60). -/
  dmem     : Memory
  /-- The model's own: the host's accesses still to come and the engine's turns among them, the next one first (70
  R276; log entry 5). -/
  schedule : List Event
  /-- The model's own: how many draws have been taken (00_scope.md R13; log entry 7). -/
  draws    : Nat
  /-- The model's own: the answer to the last host access, if there was one (log entry 8). -/
  reply    : Option Reply
  deriving DecidableEq, Repr

/-- The reasons the machine itself can stop. -/
inductive Fault where
  /-- `len` bytes of DMEM at offset `off` were asked for, and they are not all inside DMEM. Raised by `memRead` and
  `memWrite`, the engine's accesses of 20_memory.md R68, which the argument checks of 44_aead.md keep inside DMEM: no command
  raises it. Safe: the model stops where the spec has no behaviour (log entry 12). -/
  | dmemOutOfRange (off len : Nat)
  deriving DecidableEq, Repr

/-- The reasons for having no meaning for a command. -/
inductive Refusal where
  /-- The command has no meaning in the model. Raised by no arm of `exec`, every command having its meaning. Safe: the
  model says nothing about such a command. -/
  | notModelled (mnemonic : String)
  deriving DecidableEq, Repr

/-- The CORE right after a power-on reset: every register at its reset value (10_state.md R21, 70_reset_and_hazards.md
R271), DMEM a draw in every byte (R272), and no host access waiting. -/
def State.reset : State where
  cmd      := 0
  busy     := false
  done     := false
  ovr      := false
  ctrexh   := false
  authok   := false
  report   := .ok
  ie       := false
  id       := Config.coreId
  dmemsz   := BitVec.ofNat 32 Config.defaultDmemBytes
  key      := Vector.replicate 8 0
  nonce    := Vector.replicate 6 0
  ctr      := 0
  subkey   := Vector.replicate 8 0
  s        := Vector.replicate 16 0
  ks       := Vector.replicate 16 0
  pkey     := Vector.replicate 8 0
  pr       := Vector.replicate 4 0
  ps       := Vector.replicate 4 0
  ph       := Vector.replicate 5 0
  pblk     := Vector.replicate 4 0
  tag      := Vector.replicate 4 0
  ptag     := Vector.replicate 4 0
  aadPtr   := 0
  aadLen   := 0
  srcPtr   := 0
  srcLen   := 0
  dstPtr   := 0
  outLen   := 0
  dmem     := ⟨.powerOn 0, []⟩
  schedule := []
  draws    := 1
  reply    := none

end Sys2Proof.Machine
end

