-- ==== Sys2Proof/Machine/Ops.lean ====
section
/-!
DEFINITION. The named operations over DMEM and the registers: reading and writing DMEM bytes, the register writes the
commands make, the acceptance and the completion of a command (70_reset_and_hazards.md R275, R276), the zeroisations, the
register reset and the draws.
-/

namespace Sys2Proof.Machine

/-! ## DMEM bytes (20_memory.md R60) -/

/-- What a DMEM byte that no write has listed reads as (log entry 1). -/
def Fill.byte : Fill → Nat → Byte
  | .zero, _ => 0
  | .powerOn k, a => Config.freeByte k a
  | .aborted k old, a => if Config.freeBit k a then 0 else old.byte a

/-- The one value every unlisted byte is known to have; none where it is a draw. -/
def Fill.known : Fill → Option Byte
  | .zero => some 0
  | .powerOn _ => none
  | .aborted _ _ => none

/-- The byte listed at an offset, if one is. -/
def cellAt : List Host.Cell → Nat → Option Byte
  | [], _ => none
  | (x, b) :: cs, a => if x = a then some b else cellAt cs a

/-- Lists a byte at an offset, in order. -/
def cellPut : List Host.Cell → Nat → Byte → List Host.Cell
  | [], a, b => [(a, b)]
  | (x, y) :: cs, a, b =>
    if a < x then (a, b) :: (x, y) :: cs
    else if x = a then (a, b) :: cs
    else (x, y) :: cellPut cs a b

/-- Unlists an offset. -/
def cellDrop : List Host.Cell → Nat → List Host.Cell
  | [], _ => []
  | (x, y) :: cs, a => if x = a then cs else (x, y) :: cellDrop cs a

/-- The byte of DMEM at an offset. -/
def Memory.read (m : Memory) (a : Nat) : Byte := (cellAt m.cells a).getD (m.fill.byte a)

/-- DMEM with one byte written; the value an unlisted byte is known to have is not listed. -/
def Memory.write (m : Memory) (a : Nat) (b : Byte) : Memory :=
  if m.fill.known = some b then ⟨m.fill, cellDrop m.cells a⟩ else ⟨m.fill, cellPut m.cells a b⟩

/-- The `n` bytes from an offset on. -/
def Memory.readBytes (m : Memory) (off n : Nat) : List Byte := (List.range n).map (fun i => m.read (off + i))

/-- DMEM with a byte string written from an offset on. -/
def Memory.writeBytes (m : Memory) (off : Nat) : List Byte → Memory
  | [] => m
  | b :: bs => Memory.writeBytes (m.write off b) (off + 1) bs

/-- DMEM with every byte zero, `MemWrite(0, DMEM_BYTES, zeros(DMEM_BYTES))` (45_system.md R231). -/
def Memory.zeroed : Memory := ⟨.zero, []⟩

/-- A byte that an abort leaves at its old or its new value, as the draw says (70_reset_and_hazards.md R273). -/
def oldOrNew (k a : Nat) (old new : Byte) : Byte := if Config.freeBit k a then new else old

/-- DMEM after the abort, at draw `k`, of a command that would have written a byte string: each of those bytes old or new
(70_reset_and_hazards.md R273(a), (b)). -/
def Memory.abortWrite (m : Memory) (k off : Nat) (new : List Byte) : Memory :=
  m.writeBytes off ((List.range new.length).map (fun i => oldOrNew k (off + i) (m.read (off + i)) (new.getD i 0)))

/-- The fill after the abort of a `zeroize dmem` at draw `k`. -/
def Fill.abortZero (k : Nat) : Fill → Fill
  | .zero => .zero
  | .powerOn d => .aborted k (.powerOn d)
  | .aborted d old => .aborted k (.aborted d old)

/-- Cells after the abort of a `zeroize dmem` at draw `k`; a byte equal to the fill's known value is not listed. -/
def cellsAbortZero (k : Nat) (known : Option Byte) (cs : List Host.Cell) : List Host.Cell :=
  (cs.map (fun c => (c.1, oldOrNew k c.1 c.2 0))).filter (fun c => known ≠ some c.2)

/-- DMEM after the abort, at draw `k`, of a `zeroize dmem`: each byte its old value or 0 (70_reset_and_hazards.md
R273(c)). -/
def Memory.abortZero (m : Memory) (k : Nat) : Memory :=
  ⟨m.fill.abortZero k, cellsAbortZero k m.fill.known m.cells⟩

/-! ## The registers commands write -/

/-- STATUS.AUTHOK <- b. -/
def State.setAuthok (s : State) (b : Bool) : State := { s with authok := b }

/-- S <- v. -/
def State.setS (s : State) (v : Vector Word 16) : State := { s with s := v }

/-- KS <- v. -/
def State.setKs (s : State) (v : Vector Word 16) : State := { s with ks := v }

/-- SUBKEY <- v. -/
def State.setSubkey (s : State) (v : Vector Word 8) : State := { s with subkey := v }

/-- CTR <- c; STATUS.CTREXH <- x. -/
def State.setCounter (s : State) (c : Word) (x : Bool) : State := { s with ctr := c, ctrexh := x }

/-- PR <- r; PS <- k. -/
def State.setPolyKey (s : State) (r k : Vector Word 4) : State := { s with pr := r, ps := k }

/-- PH <- h. -/
def State.setPh (s : State) (h : Vector Word 5) : State := { s with ph := h }

/-- TAG <- t. -/
def State.setTag (s : State) (t : Vector Word 4) : State := { s with tag := t }

/-- OUT_LEN <- n. -/
def State.setOutLen (s : State) (n : Word) : State := { s with outLen := n }

/-- DMEM <- m. -/
def State.setDmem (s : State) (m : Memory) : State := { s with dmem := m }

/-- The AEAD commands' end: S, KS, SUBKEY, PKEY, PR, PS, PH and PBLK set to 0 (44_aead.md R207). -/
def State.zeroiseDatapath (s : State) : State :=
  { s with
    s := Vector.replicate 16 0, ks := Vector.replicate 16 0, subkey := Vector.replicate 8 0
    pkey := Vector.replicate 8 0, pr := Vector.replicate 4 0, ps := Vector.replicate 4 0
    ph := Vector.replicate 5 0, pblk := Vector.replicate 4 0 }

/-- The register part of ZEROIZE (45_system.md R231). -/
def State.zeroiseKeys (s : State) : State :=
  { s with
    key := Vector.replicate 8 0, nonce := Vector.replicate 6 0, ctr := 0, ctrexh := false
    subkey := Vector.replicate 8 0, s := Vector.replicate 16 0, ks := Vector.replicate 16 0
    pkey := Vector.replicate 8 0, pr := Vector.replicate 4 0, ps := Vector.replicate 4 0
    ph := Vector.replicate 5 0, pblk := Vector.replicate 4 0, tag := Vector.replicate 4 0
    ptag := Vector.replicate 4 0 }

/-! ## The life of a command -/

/-- Acceptance of command word `w` (70_reset_and_hazards.md R275): CMD, BUSY, DONE, AUTHOK, ERR and CAUSE; OVR and CTREXH
keep their values. -/
def State.accept (s : State) (w : Word) : State :=
  { s with cmd := w, busy := true, done := false, authok := false, report := .ok }

/-- The end of a command, by `complete` (code `.ok`) or by `raise` (any other): the engine idle, DONE set, ERR and CAUSE
the completion code (70_reset_and_hazards.md R276, 60_exceptions.md R240). It is the one operation through which every command
succeeds or fails; there is no trap, nothing is saved and nothing returned from (60_exceptions.md R240, R249). -/
def State.finish (s : State) (c : Completion) : State :=
  { s with busy := false, done := true, report := c }

/-- The command word in flight: the engine's phase, IDLE (none) or BUSY with the accepted word (10_state.md R43), which is
CMD while BUSY (R22; log entry 4). -/
def State.inFlight (s : State) : Option Word := if s.busy then some s.cmd else none

/-! ## The engine's accesses to DMEM (20_memory.md R68) -/

/-- DMEM_BYTES as a number: the DMEMSZ register (10_state.md R26). -/
def State.dmemBytes (s : State) : Nat := s.dmemsz.toNat

/-- `MemRead(off, n)` (00_scope.md R12). -/
def memRead (s : State) (off n : Nat) : Except Fault (List Byte) :=
  if off + n ≤ s.dmemBytes then .ok (s.dmem.readBytes off n) else .error (.dmemOutOfRange off n)

/-- `MemWrite(off, len(b), b)` (00_scope.md R12). -/
def memWrite (s : State) (off : Nat) (b : List Byte) : Except Fault State :=
  if off + b.length ≤ s.dmemBytes then .ok (s.setDmem (s.dmem.writeBytes off b))
  else .error (.dmemOutOfRange off b.length)

/-- The outcome of a command whose accesses to DMEM either all lie inside it or do not. -/
def engineOutcome : Except Fault State → Host.Outcome State Fault Refusal
  | .ok t => .next t
  | .error f => .fault f

/-! ## Reset, draws and the model's own fields -/

/-- Every register at its reset value (70_reset_and_hazards.md R271); DMEM, the constants ID and DMEMSZ and the model's own
fields as they were. -/
def State.resetRegisters (s : State) : State :=
  { State.reset with
    id := s.id, dmemsz := s.dmemsz, dmem := s.dmem
    schedule := s.schedule, draws := s.draws, reply := s.reply }

/-- One more draw has been taken (log entry 7). -/
def State.takeDraw (s : State) : State := { s with draws := s.draws + 1 }

/-- The answer to the host access just performed (log entry 8). -/
def State.setReply (s : State) (r : Reply) : State := { s with reply := some r }

/-- What happens next (log entry 5). -/
def State.setSchedule (s : State) (es : List Event) : State := { s with schedule := es }

/-- STATUS.OVR <- b (10_state.md R23). -/
def State.setOvr (s : State) (b : Bool) : State := { s with ovr := b }

/-- STATUS.DONE <- b (10_state.md R23). -/
def State.setDone (s : State) (b : Bool) : State := { s with done := b }

/-- CTRL.IE <- b (10_state.md R24). -/
def State.setIe (s : State) (b : Bool) : State := { s with ie := b }

/-- The engine has the next turn: an empty schedule gives it already (log entries 5 and 9). -/
def State.engineNext (s : State) : State :=
  match s.schedule with
  | [] => s
  | e :: es => s.setSchedule (.engine :: e :: es)

end Sys2Proof.Machine
end

