-- ==== Sys2Proof/Machine/Operands.lean ====
section
/-!
DEFINITION. The operand forms of the commands: the key and nonce KSBLK selects (42_keystream.md R151), the one-time key PINIT
selects (43_poly1305.md R178), the message bytes of PBLK (10_state.md R37), the nonce words of HCHACHA and of the AEAD
commands, and the relation of two DMEM buffers (44_aead.md section 2).
-/

namespace Sys2Proof.Machine

/-- KSBLK's key: KEY for KSEL = 0, SUBKEY for KSEL = 1 (30_encoding.md R94). -/
def ksblkKey (s : State) (ksel : Bool) : Vector Word 8 := if ksel then s.subkey else s.key

/-- The shortNonce words (0x00000000, NONCE[4], NONCE[5]) (42_keystream.md R151, 44_aead.md R200). -/
def shortNonce (n : Vector Word 6) : Vector Word 3 := #v[0, n[4], n[5]]

/-- KSBLK's nonce: NONCE[0..2] for NSEL = 0, the shortNonce for NSEL = 1 (30_encoding.md R94). -/
def ksblkNonce (s : State) (nsel : Bool) : Vector Word 3 :=
  if nsel then shortNonce s.nonce else #v[s.nonce[0], s.nonce[1], s.nonce[2]]

/-- The 16-byte nonce prefix, NONCE[0..3] (10_state.md R28). -/
def noncePrefix (n : Vector Word 6) : Vector Word 4 := #v[n[0], n[1], n[2], n[3]]

/-- PINIT's one-time key, 32 bytes: PKEY[0..7] for PKSRC = 0, KS[0..7] for PKSRC = 1 (30_encoding.md R95). -/
def pinitKey (s : State) (pksrc : Bool) : List Byte :=
  bytesLe (if pksrc then s.ks.toList.take 8 else s.pkey.toList)

/-- The first `n` bytes of PBLK (43_poly1305.md R179). -/
def pblkBytes (s : State) (n : Nat) : List Byte := (bytesLe s.pblk.toList).take n

/-- `DISJOINT(p, m, q, n)` (44_aead.md section 2). -/
def disjoint (p m q n : Nat) : Bool := m = 0 || n = 0 || p + m ≤ q || q + n ≤ p

end Sys2Proof.Machine
end

