-- ==== Sys2Proof/Machine/Permutation.lean ====
section
/-!
DEFINITION. The quarter-round and permutation commands (40_permutation.md): QR, COLRND, DIAGRND, DBLRND, PERM.
-/

namespace Sys2Proof.Machine

/-- `S[x] <- S[x] + S[y]` (40_permutation.md R120). -/
def addInto (v : Vector Word 16) (x y : Fin 16) : Vector Word 16 := v.set x (v[x] + v[y])

/-- `S[x] <- rotl(S[x] ^ S[y], n)` (40_permutation.md R120). -/
def xorRotInto (v : Vector Word 16) (x y : Fin 16) (n : Nat) : Vector Word 16 := v.set x (rotl (v[x] ^^^ v[y]) n)

/-- QRF(S, a, b, c, d): the eight steps in order, each reading the array the step before left, so that repeated indices
have the meaning of the sequence (40_permutation.md R120, R121, D8). -/
def qrf (v : Vector Word 16) (a b c d : Fin 16) : Vector Word 16 :=
  let v := xorRotInto (addInto v a b) d a 16
  let v := xorRotInto (addInto v c d) b c 12
  let v := xorRotInto (addInto v a b) d a 8
  xorRotInto (addInto v c d) b c 7

/-- The column round (40_permutation.md R122). -/
def columnRound (v : Vector Word 16) : Vector Word 16 :=
  qrf (qrf (qrf (qrf v 0 4 8 12) 1 5 9 13) 2 6 10 14) 3 7 11 15

/-- The diagonal round (40_permutation.md R123). -/
def diagonalRound (v : Vector Word 16) : Vector Word 16 :=
  qrf (qrf (qrf (qrf v 0 5 10 15) 1 6 11 12) 2 7 8 13) 3 4 9 14

/-- The double round: column, then diagonal (40_permutation.md R124). -/
def doubleRound (v : Vector Word 16) : Vector Word 16 := diagonalRound (columnRound v)

/-- A double round repeated. -/
def doubleRounds : Nat → Vector Word 16 → Vector Word 16
  | 0, v => v
  | n + 1, v => doubleRounds n (doubleRound v)

/-- PERMF: 10 double rounds, 20 rounds, no feed-forward (40_permutation.md R125, 90_conflicts.md C2). -/
def permF (v : Vector Word 16) : Vector Word 16 := doubleRounds 10 v

/-- QR a, b, c, d (40_permutation.md R121). -/
def execQr (a b c d : Fin 16) (s : State) : Host.Outcome State Fault Refusal :=
  .next ((s.setS (qrf s.s a b c d)).finish .ok)

/-- COLRND (40_permutation.md R122). -/
def execColrnd (s : State) : Host.Outcome State Fault Refusal :=
  .next ((s.setS (columnRound s.s)).finish .ok)

/-- DIAGRND (40_permutation.md R123). -/
def execDiagrnd (s : State) : Host.Outcome State Fault Refusal :=
  .next ((s.setS (diagonalRound s.s)).finish .ok)

/-- DBLRND (40_permutation.md R124). -/
def execDblrnd (s : State) : Host.Outcome State Fault Refusal :=
  .next ((s.setS (doubleRound s.s)).finish .ok)

/-- PERM (40_permutation.md R125). -/
def execPerm (s : State) : Host.Outcome State Fault Refusal :=
  .next ((s.setS (permF s.s)).finish .ok)

end Sys2Proof.Machine
end

