-- ==== Sys2Proof/Machine/Hchacha.lean ====
section
/-!
DEFINITION. HChaCha20 subkey derivation (41_hchacha.md): HCHACHA.
-/

namespace Sys2Proof.Machine

/-- The array every ChaCha function starts from: SIGMA[0..3], the eight key words, and four more words (41_hchacha.md R140,
R141, 42_keystream.md R150). -/
def chachaStart (k : Vector Word 8) (n : Vector Word 4) : Vector Word 16 :=
  #v[0x61707865, 0x3320646E, 0x79622D32, 0x6B206574,
     k[0], k[1], k[2], k[3], k[4], k[5], k[6], k[7],
     n[0], n[1], n[2], n[3]]

/-- The permuted state X of HCHACHA20 (41_hchacha.md R141). -/
def hchachaState (k : Vector Word 8) (n : Vector Word 4) : Vector Word 16 := permF (chachaStart k n)

/-- The subkey SUB of HCHACHA20: words 0, 1, 2, 3, 12, 13, 14, 15 of X (41_hchacha.md R141). -/
def hchachaSubkey (k : Vector Word 8) (n : Vector Word 4) : Vector Word 8 :=
  let x := hchachaState k n
  #v[x[0], x[1], x[2], x[3], x[12], x[13], x[14], x[15]]

/-- HCHACHA (41_hchacha.md R142). -/
def execHchacha (s : State) : Host.Outcome State Fault Refusal :=
  .next (((s.setS (hchachaState s.key (noncePrefix s.nonce))).setSubkey
    (hchachaSubkey s.key (noncePrefix s.nonce))).finish .ok)

end Sys2Proof.Machine
end

