-- ==== Sys2Proof/Machine/Keystream.lean ====
section
/-!
DEFINITION. The ChaCha20 keystream generator (42_keystream.md): the block function, the keystream bytes, KSBLK.
-/

namespace Sys2Proof.Machine

/-- CHACHA20_BLOCK(K, c, N): the permutation with feed-forward (42_keystream.md R150). -/
def chachaBlock (k : Vector Word 8) (c : Word) (n : Vector Word 3) : Vector Word 16 :=
  let x := chachaStart k #v[c, n[0], n[1], n[2]]
  Vector.zipWith (· + ·) (permF x) x

/-- KSTREAM(K, N, c0, m): the first m bytes of the blocks with counters c0, c0 + 1, ... (42_keystream.md R153). -/
def kstream (k : Vector Word 8) (n : Vector Word 3) (c0 m : Nat) : List Byte :=
  ((List.range (ceilDiv m 64)).flatMap (fun j => bytesLe (chachaBlock k (BitVec.ofNat 32 (c0 + j)) n).toList)).take m

/-- The counter advance: past 0xFFFFFFFF the counter is 0 and exhausted (42_keystream.md R152). -/
def advanceCounter (s : State) : State :=
  if s.ctr = 0xFFFFFFFF#32 then s.setCounter 0 true else s.setCounter (s.ctr + 1) s.ctrexh

/-- KSBLK (42_keystream.md R151). -/
def execKsblk (ksel nsel inc : Bool) (s : State) : Host.Outcome State Fault Refusal :=
  if s.ctrexh then .next (s.finish .counterExhausted)
  else
    let b := chachaBlock (ksblkKey s ksel) s.ctr (ksblkNonce s nsel)
    let t := (s.setS b).setKs b
    .next ((if inc then advanceCounter t else t).finish .ok)

end Sys2Proof.Machine
end

