-- ==== Sys2Proof/Machine/Poly1305.lean ====
section
/-!
DEFINITION. The Poly1305 MAC engine (43_poly1305.md): its functions and PINIT, PBLK, PFIN, PVER.
-/

namespace Sys2Proof.Machine

/-- The prime P = 2^130 - 5 (43_poly1305.md R170). -/
def polyP : Nat := 2 ^ 130 - 5

/-- The clamping mask (43_poly1305.md R171). -/
def clampMask : Nat := 0x0FFFFFFC0FFFFFFC0FFFFFFC0FFFFFFF

/-- r of a 32-byte one-time key: its first half, clamped (43_poly1305.md R171). -/
def polyR (k : List Byte) : Nat := leInt (k.take 16) &&& clampMask

/-- s of a 32-byte one-time key: its last half (43_poly1305.md R171). -/
def polyS (k : List Byte) : Nat := leInt ((k.drop 16).take 16)

/-- The value of a message block (43_poly1305.md R172). -/
def blockValue (m : List Byte) : Nat := leInt m + 2 ^ (8 * m.length)

/-- The accumulator step (43_poly1305.md R173). -/
def polyStep (r h : Nat) (m : List Byte) : Nat := ((h + blockValue m) * r) % polyP

/-- The number of the tag (43_poly1305.md R174). -/
def polyTag (h s : Nat) : Nat := (h + s) % 2 ^ 128

/-- Block j of a message: 16 bytes, or what is left (43_poly1305.md R175). -/
def blockOf (m : List Byte) (j : Nat) : List Byte := (m.drop (16 * j)).take 16

/-- The accumulator after a whole message (43_poly1305.md R175). -/
def polyAccumulate (r : Nat) (m : List Byte) : Nat :=
  (List.range (ceilDiv m.length 16)).foldl (fun h j => polyStep r h (blockOf m j)) 0

/-- POLY1305(K, m) (43_poly1305.md R175). -/
def poly1305 (k m : List Byte) : List Byte := leBytes (polyTag (polyAccumulate (polyR k) m) (polyS k)) 16

/-- MACDATA(a, x) (43_poly1305.md R176). -/
def macData (a x : List Byte) : List Byte := pad16 a ++ pad16 x ++ le64 a.length ++ le64 x.length

/-- PINIT (43_poly1305.md R178). -/
def execPinit (pksrc : Bool) (s : State) : Host.Outcome State Fault Refusal :=
  let k := pinitKey s pksrc
  .next (((s.setPolyKey (limbs 4 (polyR k)) (limbs 4 (polyS k))).setPh (limbs 5 0)).finish .ok)

/-- PBLK n (43_poly1305.md R179). -/
def execPblk (n : Nat) (s : State) : Host.Outcome State Fault Refusal :=
  let m := pblkBytes s n
  .next ((s.setPh (limbs 5 (((numOf s.ph.toList + (leInt m + 2 ^ (8 * n))) * numOf s.pr.toList) % polyP))).finish .ok)

/-- PFIN (43_poly1305.md R180). -/
def execPfin (s : State) : Host.Outcome State Fault Refusal :=
  .next ((s.setTag (limbs 4 (polyTag (numOf s.ph.toList) (numOf s.ps.toList)))).finish .ok)

/-- PVER: AUTHOK is the comparison's result, and a difference is reported (43_poly1305.md R181). -/
def execPver (s : State) : Host.Outcome State Fault Refusal :=
  let eq := decide (s.tag = s.ptag)
  .next ((s.setAuthok eq).finish (if eq then .ok else .authenticationFailure))

end Sys2Proof.Machine
end

