-- ==== Sys2Proof/Machine/Aead.lean ====
section
/-!
DEFINITION. The AEAD orchestrator (44_aead.md): XENC, XDEC, the argument checks, AEAD_ENC and AEAD_DEC.
-/

namespace Sys2Proof.Machine

/-- SUB, the subkey of a key and a nonce (44_aead.md R200 step 2). -/
def aeadSubkey (k : Vector Word 8) (n : Vector Word 6) : Vector Word 8 := hchachaSubkey k (noncePrefix n)

/-- PK, the one-time Poly1305 key: the first 32 bytes of block 0 (44_aead.md R200 step 4). -/
def aeadPolyKey (k : Vector Word 8) (n : Vector Word 6) : List Byte :=
  (bytesLe (chachaBlock (aeadSubkey k n) 0 (shortNonce n)).toList).take 32

/-- The payload keystream, counter from 1 (44_aead.md R200 step 5). -/
def aeadStream (k : Vector Word 8) (n : Vector Word 6) (m : Nat) : List Byte :=
  kstream (aeadSubkey k n) (shortNonce n) 1 m

/-- The tag of associated data and ciphertext (44_aead.md R200 step 6). -/
def aeadTag (k : Vector Word 8) (n : Vector Word 6) (a x : List Byte) : List Byte :=
  poly1305 (aeadPolyKey k n) (macData a x)

/-- XENC(k, n, a, p): ciphertext, then tag (44_aead.md R200). -/
def xenc (k : Vector Word 8) (n : Vector Word 6) (a p : List Byte) : List Byte :=
  let x := xorBytes p (aeadStream k n p.length)
  x ++ aeadTag k n a x

/-- XDEC(k, n, a, c) of an input of at least 16 bytes: the plaintext, or none where the tags differ (44_aead.md R201; its
step 1 is the SHORT_INPUT check of R204). -/
def xdec (k : Vector Word 8) (n : Vector Word 6) (a c : List Byte) : Option (List Byte) :=
  let x := c.take (c.length - 16)
  let pt := c.drop (c.length - 16)
  if aeadTag k n a x = pt then some (xorBytes x (aeadStream k n x.length)) else none

/-- The checks of AEAD_ENC in order; none where all pass (44_aead.md R202). -/
def encChecks (s : State) : Option Completion :=
  let d := s.dmemBytes
  let l := s.srcLen.toNat
  if s.aadPtr.toNat + s.aadLen.toNat > d ∨ s.srcPtr.toNat + l > d ∨ s.dstPtr.toNat + l + 16 > d then some .range
  else if ¬(s.srcPtr = s.dstPtr ∨ disjoint s.srcPtr.toNat l s.dstPtr.toNat (l + 16) = true) then some .overlap
  else if ceilDiv l 64 > 2 ^ 32 - 1 then some .length
  else none

/-- The checks of AEAD_DEC in order; none where all pass (44_aead.md R204). -/
def decChecks (s : State) : Option Completion :=
  let d := s.dmemBytes
  let l := s.srcLen.toNat
  if l < 16 then some .shortInput
  else if s.aadPtr.toNat + s.aadLen.toNat > d ∨ s.srcPtr.toNat + l > d ∨ s.dstPtr.toNat + (l - 16) > d then some .range
  else if ¬(s.srcPtr = s.dstPtr ∨ disjoint s.srcPtr.toNat l s.dstPtr.toNat (l - 16) = true) then some .overlap
  else if ceilDiv (l - 16) 64 > 2 ^ 32 - 1 then some .length
  else none

/-- What AEAD_ENC writes at DST_PTR, from the snapshot at acceptance (44_aead.md R203, R208). -/
def encOutput (s : State) : Except Fault (List Byte) := do
  let a ← memRead s s.aadPtr.toNat s.aadLen.toNat
  let p ← memRead s s.srcPtr.toNat s.srcLen.toNat
  pure (xenc s.key s.nonce a p)

/-- What AEAD_DEC writes at DST_PTR, from the snapshot at acceptance; none where the tags differ (44_aead.md R205,
R208). -/
def decOutput (s : State) : Except Fault (Option (List Byte)) := do
  let a ← memRead s s.aadPtr.toNat s.aadLen.toNat
  let c ← memRead s s.srcPtr.toNat s.srcLen.toNat
  pure (xdec s.key s.nonce a c)

/-- AEAD_ENC past its checks (44_aead.md R203). -/
def encRun (s : State) : Except Fault State := do
  let out ← encOutput s
  let t ← memWrite s s.dstPtr.toNat out
  pure ((((t.setTag (wordsLe 4 (out.drop s.srcLen.toNat))).setOutLen (s.srcLen + 16)).zeroiseDatapath).finish .ok)

/-- AEAD_DEC past its checks: on a match the plaintext is written, on a mismatch nothing is (44_aead.md R205, R206). -/
def decRun (s : State) : Except Fault State := do
  let out ← decOutput s
  match out with
  | none =>
    pure ((((s.setTag (Vector.replicate 4 0)).setOutLen 0).zeroiseDatapath).finish .authenticationFailure)
  | some p =>
    let t ← memWrite s s.dstPtr.toNat p
    pure (((((t.setTag (Vector.replicate 4 0)).setOutLen (s.srcLen - 16)).setAuthok true).zeroiseDatapath).finish .ok)

/-- AEAD_ENC (44_aead.md R203). -/
def execAeadEnc (s : State) : Host.Outcome State Fault Refusal :=
  match encChecks s with
  | some c => .next (s.finish c)
  | none => engineOutcome (encRun s)

/-- AEAD_DEC (44_aead.md R205). -/
def execAeadDec (s : State) : Host.Outcome State Fault Refusal :=
  match decChecks s with
  | some c => .next (s.finish c)
  | none => engineOutcome (decRun s)

end Sys2Proof.Machine
end

