-- ==== Sys2Proof/Machine/Flags.lean ====
section
/-!
DEFINITION. The flags: STATUS and CTRL as software reads them (10_state.md R23, R24), the numbers of the completion codes
(60_exceptions.md R241), the effect of writing STATUS, and the interrupt output (60_exceptions.md R251).
-/

namespace Sys2Proof.Machine

/-- The ERR number of a completion code (60_exceptions.md R241). -/
def Completion.err : Completion → BitVec 4
  | .ok => 0
  | .shortInput => 1
  | .range => 1
  | .overlap => 1
  | .authenticationFailure => 2
  | .counterExhausted => 3
  | .length => 3
  | .unassigned => 4
  | .reservedBit => 4

/-- The CAUSE number of a completion code (60_exceptions.md R241). -/
def Completion.cause : Completion → BitVec 4
  | .ok => 0
  | .shortInput => 1
  | .range => 2
  | .overlap => 3
  | .authenticationFailure => 0
  | .counterExhausted => 1
  | .length => 2
  | .unassigned => 1
  | .reservedBit => 2

/-- STATUS as a word, from bit 31 down: zeros, CAUSE, ERR, zeros, AUTHOK, CTREXH, OVR, DONE, BUSY (10_state.md R23). -/
def statusWord (s : State) : Word :=
  0#16 ++ s.report.cause ++ s.report.err ++ 0#3 ++ BitVec.ofBool s.authok ++ BitVec.ofBool s.ctrexh
    ++ BitVec.ofBool s.ovr ++ BitVec.ofBool s.done ++ BitVec.ofBool s.busy

/-- CTRL as a word: IE in bit 0, every other bit reads 0 (10_state.md R24). -/
def ctrlWord (s : State) : Word := 0#31 ++ BitVec.ofBool s.ie

/-- A write of STATUS: bit 1 clears DONE, bit 2 clears OVR, every other bit is ignored (10_state.md R23). -/
def statusWrite (s : State) (v : Word) : State :=
  (s.setDone (s.done && !v.getLsbD 1)).setOvr (s.ovr && !v.getLsbD 2)

/-- The interrupt output: `IRQ = CTRL.IE AND STATUS.DONE` (60_exceptions.md R251). -/
def irq (s : State) : Bool := s.ie && s.done

/-- ILLEGAL_COMMAND at completion changes STATUS alone (30_encoding.md R99, 60_exceptions.md R245): CAUSE 1. -/
def rejectUnassigned (s : State) : State := s.finish .unassigned

/-- ILLEGAL_COMMAND, CAUSE 2 (30_encoding.md R99, 60_exceptions.md R245). -/
def rejectReservedBit (s : State) : State := s.finish .reservedBit

end Sys2Proof.Machine
end

