-- ==== Sys2Proof/Machine/Bus.lean ====
section
/-!
DEFINITION. The host interface: the register map (10_state.md R21), the decode of an offset (20_memory.md R61), host reads
and writes with their responses (20_memory.md R62 to R66, 10_state.md R47), the BUSY rules (70_reset_and_hazards.md R277,
R278), and both resets (70_reset_and_hazards.md R270 to R273).
-/

namespace Sys2Proof.Machine

/-- The names of the register map (10_state.md R21). -/
inductive RegName where
  | cmd | status | ctrl | id | dmemsz | key | nonce | ctr | subkey | s | ks | pkey | pr | ps | ph | pblk | tag | ptag
  | aadPtr | aadLen | srcPtr | srcLen | dstPtr | outLen
  deriving DecidableEq, Repr

/-- The access types of mapped registers (10_state.md R47); `fields` is that of STATUS and CTRL. -/
inductive Access where
  | rw | ro | wo | const | rwCmd | fields
  deriving DecidableEq, Repr

/-- One row of the register map. -/
structure RegRow where
  offset : Nat
  name   : RegName
  words  : Nat
  access : Access
  deriving DecidableEq, Repr

/-- The register map, row by row (10_state.md R21). -/
def regMap : List RegRow :=
  [ ⟨0x000, .cmd, 1, .rwCmd⟩,
    ⟨0x004, .status, 1, .fields⟩,
    ⟨0x008, .ctrl, 1, .fields⟩,
    ⟨0x00C, .id, 1, .const⟩,
    ⟨0x010, .dmemsz, 1, .const⟩,
    ⟨0x020, .key, 8, .wo⟩,
    ⟨0x040, .nonce, 6, .rw⟩,
    ⟨0x058, .ctr, 1, .rw⟩,
    ⟨0x060, .subkey, 8, .rw⟩,
    ⟨0x080, .s, 16, .rw⟩,
    ⟨0x0C0, .ks, 16, .ro⟩,
    ⟨0x100, .pkey, 8, .rw⟩,
    ⟨0x120, .pr, 4, .ro⟩,
    ⟨0x130, .ps, 4, .ro⟩,
    ⟨0x140, .ph, 5, .ro⟩,
    ⟨0x160, .pblk, 4, .rw⟩,
    ⟨0x170, .tag, 4, .ro⟩,
    ⟨0x180, .ptag, 4, .rw⟩,
    ⟨0x190, .aadPtr, 1, .rw⟩,
    ⟨0x194, .aadLen, 1, .rw⟩,
    ⟨0x198, .srcPtr, 1, .rw⟩,
    ⟨0x19C, .srcLen, 1, .rw⟩,
    ⟨0x1A0, .dstPtr, 1, .rw⟩,
    ⟨0x1A4, .outLen, 1, .ro⟩ ]

/-- DMEM_BASE, the offset of DMEM byte 0 in the host window (00_scope.md R7). -/
def dmemBase : Nat := 0x10000

/-- What a host access addresses (20_memory.md R61). -/
inductive Target where
  /-- The DMEM word whose first byte is at DMEM offset `a`. -/
  | dmem (a : Nat)
  /-- Word `i` of a register. -/
  | reg (row : RegRow) (i : Nat)
  /-- A reserved offset (access type RES, 10_state.md R47). -/
  | reserved
  deriving DecidableEq, Repr

/-- Decode of a host access at offset `off` (20_memory.md R61). -/
def targetOf (s : State) (off : Nat) : Target :=
  if dmemBase ≤ off ∧ off < dmemBase + s.dmemBytes then .dmem (off - dmemBase)
  else
    match regMap.find? (fun r => r.offset ≤ off && off < r.offset + 4 * r.words) with
    | some r => .reg r ((off - r.offset) / 4)
    | none => .reserved

/-- What a read of word `i` of a register returns when idle (10_state.md R22 to R41; KEY reads 0, R27). -/
def readReg (s : State) (n : RegName) (i : Nat) : Word :=
  match n with
  | .cmd => s.cmd
  | .status => statusWord s
  | .ctrl => ctrlWord s
  | .id => s.id
  | .dmemsz => s.dmemsz
  | .key => 0
  | .nonce => s.nonce[i]?.getD 0
  | .ctr => s.ctr
  | .subkey => s.subkey[i]?.getD 0
  | .s => s.s[i]?.getD 0
  | .ks => s.ks[i]?.getD 0
  | .pkey => s.pkey[i]?.getD 0
  | .pr => s.pr[i]?.getD 0
  | .ps => s.ps[i]?.getD 0
  | .ph => s.ph[i]?.getD 0
  | .pblk => s.pblk[i]?.getD 0
  | .tag => s.tag[i]?.getD 0
  | .ptag => s.ptag[i]?.getD 0
  | .aadPtr => s.aadPtr
  | .aadLen => s.aadLen
  | .srcPtr => s.srcPtr
  | .srcLen => s.srcLen
  | .dstPtr => s.dstPtr
  | .outLen => s.outLen

/-- The registers whose reads keep their value while BUSY: "STATUS, CTRL, ID, DMEMSZ and CMD return their values; KEY
returns 0" (70_reset_and_hazards.md R278). -/
def readsWhileBusy : RegName → Bool
  | .cmd | .status | .ctrl | .id | .dmemsz | .key => true
  | .nonce | .ctr | .subkey | .s | .ks | .pkey | .pr | .ps | .ph | .pblk | .tag | .ptag => false
  | .aadPtr | .aadLen | .srcPtr | .srcLen | .dstPtr | .outLen => false

/-- A host write, when idle, of word `i` of a register with access type RW or WO (10_state.md R47; CTR also clears
CTREXH, R29); a write of an RO or CONST register changes nothing. CMD, STATUS and CTRL have their own operations. -/
def writeReg (s : State) (n : RegName) (i : Nat) (v : Word) : State :=
  match n with
  | .key => { s with key := s.key.setIfInBounds i v }
  | .nonce => { s with nonce := s.nonce.setIfInBounds i v }
  | .ctr => s.setCounter v false
  | .subkey => { s with subkey := s.subkey.setIfInBounds i v }
  | .s => { s with s := s.s.setIfInBounds i v }
  | .pkey => { s with pkey := s.pkey.setIfInBounds i v }
  | .pblk => { s with pblk := s.pblk.setIfInBounds i v }
  | .ptag => { s with ptag := s.ptag.setIfInBounds i v }
  | .aadPtr => { s with aadPtr := v }
  | .aadLen => { s with aadLen := v }
  | .srcPtr => { s with srcPtr := v }
  | .srcLen => { s with srcLen := v }
  | .dstPtr => { s with dstPtr := v }
  | .cmd | .status | .ctrl | .id | .dmemsz | .ks | .pr | .ps | .ph | .tag | .outLen => s

/-! ## Reset (70_reset_and_hazards.md section 1) -/

/-- DMEM after the abort of the command in flight (70_reset_and_hazards.md R273): only bytes the completed command would
have written can be new, so a command that would fail, a word that is no command and every other command leave DMEM as it
was (log entry 11). -/
def abortedDmem (s : State) : Memory :=
  match decode s.cmd with
  | .command .aeadEnc =>
    match encChecks s, encOutput s with
    | none, .ok out => s.dmem.abortWrite s.draws s.dstPtr.toNat out
    | _, _ => s.dmem
  | .command .aeadDec =>
    match decChecks s, decOutput s with
    | none, .ok (some p) => s.dmem.abortWrite s.draws s.dstPtr.toNat p
    | _, _ => s.dmem
  | .command (.zeroize true) => s.dmem.abortZero s.draws
  | _ => s.dmem

/-- A soft reset: every register reset; DMEM kept while idle, and while BUSY as the abort leaves it (70_reset_and_hazards.md
R271 to R273). -/
def softReset (s : State) : State :=
  if s.busy then ((s.resetRegisters).setDmem (abortedDmem s)).takeDraw else s.resetRegisters

/-- A power-on reset: every register reset and every DMEM byte a draw (70_reset_and_hazards.md R270 to R272). -/
def powerOnReset (s : State) : State := ((s.resetRegisters).setDmem ⟨.powerOn s.draws, []⟩).takeDraw

/-! ## Host accesses (20_memory.md R62) -/

/-- A write of CTRL: SRST in bit 1 resets, and then the IE bit written is not kept; else IE is bit 0 (10_state.md R24). -/
def ctrlWrite (s : State) (v : Word) : State := if v.getLsbD 1 then softReset s else s.setIe (v.getLsbD 0)

/-- A write of any other register: dropped with OVR while BUSY (70_reset_and_hazards.md R277); when idle a CMD write issues
the command (R275) and other registers are written by their access type. -/
def registerWrite (s : State) (n : RegName) (i : Nat) (v : Word) : State :=
  match n with
  | .status => statusWrite s v
  | .ctrl => ctrlWrite s v
  | .cmd => if s.busy then s.setOvr true else s.accept v
  | _ => if s.busy then s.setOvr true else writeReg s n i v

/-- DMEM with the enabled byte lanes of a word written: lane k to byte a + k (20_memory.md R62(c), R63). -/
def writeLanes (m : Memory) (a : Nat) (v : Word) (strb : BitVec 4) : Memory :=
  (List.range 4).foldl
    (fun m k => if strb.getLsbD k then m.write (a + k) (BitVec.ofNat 8 (v.toNat / 2 ^ (8 * k))) else m) m

/-- A host write of the DMEM window: dropped with OVR while BUSY (70_reset_and_hazards.md R277), else by lanes. -/
def dmemWrite (s : State) (a : Nat) (v : Word) (strb : BitVec 4) : State :=
  if s.busy then s.setOvr true else s.setDmem (writeLanes s.dmem a v strb)

/-- A host write (20_memory.md R62): SLVERR for a misaligned offset and for a partial strobe outside the DMEM window. -/
def hostWrite (s : State) (off v : Word) (strb : BitVec 4) : State :=
  if off.toNat % 4 ≠ 0 then s.setReply (.write .slverr)
  else
    match targetOf s off.toNat with
    | .dmem a => (dmemWrite s a v strb).setReply (.write .okay)
    | .reg r i =>
      if strb = 0b1111#4 then (registerWrite s r.name i v).setReply (.write .okay) else s.setReply (.write .slverr)
    | .reserved => if strb = 0b1111#4 then s.setReply (.write .okay) else s.setReply (.write .slverr)

/-- The reply that returns a draw (70_reset_and_hazards.md R278). -/
def drawnReply (s : State) : State := (s.setReply (.read .okay (Config.freeWord s.draws))).takeDraw

/-- A host read (20_memory.md R62, R63, R66): SLVERR for a misaligned offset; a draw for the data registers and DMEM while
BUSY; else the register or the little-endian DMEM word; 0 for a reserved offset. -/
def hostRead (s : State) (off : Word) : State :=
  if off.toNat % 4 ≠ 0 then s.setReply (.read .slverr 0)
  else
    match targetOf s off.toNat with
    | .dmem a => if s.busy then drawnReply s else s.setReply (.read .okay (le32 (s.dmem.readBytes a 4)))
    | .reg r i =>
      if s.busy && !readsWhileBusy r.name then drawnReply s else s.setReply (.read .okay (readReg s r.name i))
    | .reserved => s.setReply (.read .okay 0)

end Sys2Proof.Machine
end

