-- ==== Sys2Proof/Machine/System.lean ====
section
/-!
DEFINITION. The system commands (45_system.md): NOP and ZEROIZE.
-/

namespace Sys2Proof.Machine

/-- NOP: the completion and nothing else (45_system.md R230). -/
def execNop (s : State) : Host.Outcome State Fault Refusal := .next (s.finish .ok)

/-- ZEROIZE: the key material and intermediates, and with DM every DMEM byte (45_system.md R231). -/
def execZeroize (dm : Bool) (s : State) : Host.Outcome State Fault Refusal :=
  let t := s.zeroiseKeys
  .next ((if dm then t.setDmem Memory.zeroed else t).finish .ok)

end Sys2Proof.Machine
end

