-- ==== Sys2Proof/Machine/Dispatch.lean ====
section
/-!
DEFINITION. One arm per command: the completion step of each (70_reset_and_hazards.md R276).
-/

namespace Sys2Proof.Machine

def exec (i : Instr) (s : State) : Host.Outcome State Fault Refusal :=
  match i with
  | .nop => Sys2Proof.Machine.execNop s
  | .qr a b c d => Sys2Proof.Machine.execQr a b c d s
  | .colrnd => Sys2Proof.Machine.execColrnd s
  | .diagrnd => Sys2Proof.Machine.execDiagrnd s
  | .dblrnd => Sys2Proof.Machine.execDblrnd s
  | .perm => Sys2Proof.Machine.execPerm s
  | .hchacha => Sys2Proof.Machine.execHchacha s
  | .ksblk ksel nsel inc => Sys2Proof.Machine.execKsblk ksel nsel inc s
  | .pinit pksrc => Sys2Proof.Machine.execPinit pksrc s
  | .pblk n => Sys2Proof.Machine.execPblk n s
  | .pfin => Sys2Proof.Machine.execPfin s
  | .pver => Sys2Proof.Machine.execPver s
  | .aeadEnc => Sys2Proof.Machine.execAeadEnc s
  | .aeadDec => Sys2Proof.Machine.execAeadDec s
  | .zeroize dm => Sys2Proof.Machine.execZeroize dm s

end Sys2Proof.Machine
end

