-- ==== Sys2Proof/Machine/Step.lean ====
section
/-!
DEFINITION. One step of the CORE: the next event of the schedule, or with none left the engine's completion step.

Acceptance and completion are separate steps (70_reset_and_hazards.md R275, R276); any number of host accesses may lie
between them, and a command in flight with no access waiting completes (R280).
-/

namespace Sys2Proof.Machine

/-- The engine's turn: the command in flight is decoded and completes (70_reset_and_hazards.md R276, 30_encoding.md R99); an
idle engine keeps every register and DMEM byte (60_exceptions.md R258). -/
def engineStep (s : State) : Host.Outcome State Fault Refusal :=
  match s.inFlight with
  | none => .next s
  | some w =>
    match decode w with
    | .command i => exec i s
    | .unassigned => .next (rejectUnassigned s)
    | .reservedBit => .next (rejectReservedBit s)

/-- One step (10_state.md R20, 20_memory.md R67, R71). -/
def step (s : State) : Host.Outcome State Fault Refusal :=
  match s.schedule with
  | [] => engineStep s
  | .engine :: es => engineStep (s.setSchedule es)
  | .read off :: es => .next (hostRead (s.setSchedule es) off)
  | .write off v strb :: es => .next (hostWrite (s.setSchedule es) off v strb)
  | .powerOn :: es => .next (powerOnReset (s.setSchedule es))

/-- `s` with the command word of these bits accepted and the engine's turn next, so that `step` runs it. A command comes
from a host write of CMD (10_state.md R45); this stands for that write (log entry 9). -/
def State.withFetchWord (s : State) (nbits w : Nat) : State := (s.accept (tableWord nbits w)).engineNext

end Sys2Proof.Machine
end

