-- ==== Sys2Proof/Safety.lean ====
section
/-!
DEFINITION. What a good state and a safe outcome of the CORE are, in the terms the statements use.
-/

namespace Sys2Proof.Machine

/-- DMEM's canonical form: offsets strictly rising, and no byte listed that equals what an unlisted byte is known to
hold (log entry 1). -/
abbrev Memory.wf (m : Memory) : Prop :=
  m.cells.Pairwise (fun c d => c.1 < d.1) ∧ ∀ c ∈ m.cells, m.fill.known ≠ some c.2

/-- Every listed byte lies in a DMEM of `d` bytes (20_memory.md R60). -/
abbrev Memory.within (m : Memory) (d : Nat) : Prop := ∀ c ∈ m.cells, c.1 < d

/-- The invariant of the CORE: what every step keeps. -/
structure State.Inv (s : State) : Prop where
  /-- DMEM_BYTES is a legal parameter value (00_scope.md R7). -/
  sizeLegal : Config.legalDmemBytes s.dmemBytes = true
  /-- DMEM is in canonical form. -/
  dmemWf : s.dmem.wf
  /-- Nothing is listed past DMEM (20_memory.md R60, R68). -/
  dmemWithin : s.dmem.within s.dmemBytes
  /-- The accumulator is fully reduced: `0 <= h < P` (10_state.md R36, 43_poly1305.md R170). -/
  phReduced : numOf s.ph.toList < polyP
  /-- PR is clamped (10_state.md R34). -/
  prClamped : numOf s.pr.toList &&& clampMask = numOf s.pr.toList
  /-- While BUSY, DONE, AUTHOK, ERR and CAUSE are 0 (10_state.md R23, 70_reset_and_hazards.md R275). -/
  busyQuiet : s.busy = true → s.done = false ∧ s.authok = false ∧ s.report = .ok
  /-- AUTHOK: "1 only if the last completed command was PVER or AEAD_DEC and the tags matched" (10_state.md R23). -/
  authokMeans : s.authok = true →
    s.report = .ok ∧ (decode s.cmd = .command .pver ∨ decode s.cmd = .command .aeadDec)

/-- A safe outcome: the machine goes on. -/
def goesOn (o : Host.Outcome State Fault Refusal) : Prop := ∃ t, o = .next t

end Sys2Proof.Machine
end

