-- ==== Sys2Proof/Certificates/Slice0/Obligations.lean ====
section
/-!
DEFINITION. The statements for the provers, each from a numbered rule of spec/, and the few plain words they are written in.
-/

namespace Sys2Proof.Claims

open Sys2Proof Sys2Proof.Machine

/-! ## The words of the statements -/

/-- The command ended with this completion code (70_reset_and_hazards.md R276). -/
def Ended (t : State) (c : Completion) : Prop := t.busy = false ∧ t.done = true ∧ t.report = c

/-- What no command ever writes: CMD, OVR, IE, ID, DMEMSZ, the buffer registers, and the model's own fields. -/
def KeepsHostSide (s t : State) : Prop :=
  t.cmd = s.cmd ∧ t.ovr = s.ovr ∧ t.ie = s.ie ∧ t.id = s.id ∧ t.dmemsz = s.dmemsz ∧
  t.aadPtr = s.aadPtr ∧ t.aadLen = s.aadLen ∧ t.srcPtr = s.srcPtr ∧ t.srcLen = s.srcLen ∧ t.dstPtr = s.dstPtr ∧
  t.schedule = s.schedule ∧ t.draws = s.draws ∧ t.reply = s.reply

/-- KEY, NONCE and PTAG unchanged. -/
def KeepsInputs (s t : State) : Prop := t.key = s.key ∧ t.nonce = s.nonce ∧ t.ptag = s.ptag

/-- CTR and CTREXH unchanged. -/
def KeepsCounter (s t : State) : Prop := t.ctr = s.ctr ∧ t.ctrexh = s.ctrexh

/-- PKEY, PR, PS, PH and PBLK unchanged. -/
def KeepsPoly (s t : State) : Prop :=
  t.pkey = s.pkey ∧ t.pr = s.pr ∧ t.ps = s.ps ∧ t.ph = s.ph ∧ t.pblk = s.pblk

/-- TAG and OUT_LEN unchanged. -/
def KeepsResults (s t : State) : Prop := t.tag = s.tag ∧ t.outLen = s.outLen

/-- Every byte of DMEM reads as before. -/
def KeepsDmem (s t : State) : Prop := ∀ a, t.dmem.read a = s.dmem.read a

/-- Nothing but STATUS.BUSY, DONE, AUTHOK, ERR and CAUSE may differ. -/
def KeepsAllButStatus (s t : State) : Prop :=
  KeepsHostSide s t ∧ KeepsInputs s t ∧ KeepsCounter s t ∧ t.s = s.s ∧ t.ks = s.ks ∧ t.subkey = s.subkey ∧
  KeepsPoly s t ∧ KeepsResults s t ∧ KeepsDmem s t

/-- Nothing but S and STATUS.BUSY, DONE, ERR and CAUSE may differ. -/
def KeepsAllButS (s t : State) : Prop :=
  KeepsHostSide s t ∧ KeepsInputs s t ∧ KeepsCounter s t ∧ t.ks = s.ks ∧ t.subkey = s.subkey ∧
  KeepsPoly s t ∧ KeepsResults s t ∧ KeepsDmem s t ∧ t.authok = s.authok

/-- The datapath registers S, KS, SUBKEY, PKEY, PR, PS, PH and PBLK are 0. -/
def DatapathZero (t : State) : Prop :=
  t.s = Vector.replicate 16 0 ∧ t.ks = Vector.replicate 16 0 ∧ t.subkey = Vector.replicate 8 0 ∧
  t.pkey = Vector.replicate 8 0 ∧ t.pr = Vector.replicate 4 0 ∧ t.ps = Vector.replicate 4 0 ∧
  t.ph = Vector.replicate 5 0 ∧ t.pblk = Vector.replicate 4 0

/-- One command after another. -/
def andThen (o : Host.Outcome State Fault Refusal) (f : State → Host.Outcome State Fault Refusal) :
    Host.Outcome State Fault Refusal :=
  match o with
  | .next t => f t
  | .fault r => .fault r
  | .refused r => .refused r

/-- A command repeated. -/
def repeated (i : Instr) : Nat → State → Host.Outcome State Fault Refusal
  | 0, s => .next s
  | n + 1, s => andThen (exec i s) (repeated i n)

/-- `match` and `mask` of the opcode map, with the mnemonic (30_encoding.md R98). -/
def opcodeRows : List (Word × Word × String) :=
  [ (0x00000000, 0xFFFFFFFF, "NOP"), (0x00000001, 0xFF0000FF, "QR"), (0x00000002, 0xFFFFFFFF, "COLRND"),
    (0x00000003, 0xFFFFFFFF, "DIAGRND"), (0x00000004, 0xFFFFFFFF, "DBLRND"), (0x00000005, 0xFFFFFFFF, "PERM"),
    (0x00000010, 0xFFFFFFFF, "HCHACHA"), (0x00000011, 0xFFFFF8FF, "KSBLK"), (0x00000020, 0xFFFFFEFF, "PINIT"),
    (0x00000021, 0xFFFFF0FF, "PBLK"), (0x00000022, 0xFFFFFFFF, "PFIN"), (0x00000023, 0xFFFFFFFF, "PVER"),
    (0x00000030, 0xFFFFFFFF, "AEAD_ENC"), (0x00000031, 0xFFFFFFFF, "AEAD_DEC"), (0x0000003F, 0xFFFFFEFF, "ZEROIZE") ]

/-- The mnemonic of a command. -/
def mnemonic : Instr → String
  | .nop => "NOP"
  | .qr _ _ _ _ => "QR"
  | .colrnd => "COLRND"
  | .diagrnd => "DIAGRND"
  | .dblrnd => "DBLRND"
  | .perm => "PERM"
  | .hchacha => "HCHACHA"
  | .ksblk _ _ _ => "KSBLK"
  | .pinit _ => "PINIT"
  | .pblk _ => "PBLK"
  | .pfin => "PFIN"
  | .pver => "PVER"
  | .aeadEnc => "AEAD_ENC"
  | .aeadDec => "AEAD_DEC"
  | .zeroize _ => "ZEROIZE"

/-- `S[x] <- S[x] + S[y]` on an array given as a function of its index. -/
def addStep (f : Fin 16 → Word) (x y : Fin 16) : Fin 16 → Word := fun k => if k = x then f x + f y else f k

/-- `S[x] <- rotl(S[x] ^ S[y], n)` on an array given as a function of its index. -/
def rotStep (f : Fin 16 → Word) (x y : Fin 16) (n : Nat) : Fin 16 → Word :=
  fun k => if k = x then (f x ^^^ f y).rotateLeft n else f k

/-- The eight steps of the quarter-round (40_permutation.md R120). -/
def eightSteps (f : Fin 16 → Word) (a b c d : Fin 16) : Fin 16 → Word :=
  let f := rotStep (addStep f a b) d a 16
  let f := rotStep (addStep f c d) b c 12
  let f := rotStep (addStep f a b) d a 8
  rotStep (addStep f c d) b c 7

/-- The quarter-round of four words (the source's "`a+=b; d=rotl(d^a,16); ...`", 40_permutation.md R120). -/
def quarter (a b c d : Word) : Word × Word × Word × Word :=
  let a1 := a + b
  let d1 := (d ^^^ a1).rotateLeft 16
  let c1 := c + d1
  let b1 := (b ^^^ c1).rotateLeft 12
  let a2 := a1 + b1
  let d2 := (d1 ^^^ a2).rotateLeft 8
  let c2 := c1 + d2
  let b2 := (b1 ^^^ c2).rotateLeft 7
  (a2, b2, c2, d2)

/-- The array a ChaCha function starts from: the constants of 41_hchacha.md R140, the key, and words 12 to 15. -/
def startArray (k : Vector Word 8) (w12 w13 w14 w15 : Word) : Vector Word 16 :=
  #v[0x61707865, 0x3320646E, 0x79622D32, 0x6B206574, k[0], k[1], k[2], k[3], k[4], k[5], k[6], k[7], w12, w13, w14, w15]

/-- The bytes of the associated data buffer (10_state.md R40). -/
def aad (s : State) : List Byte := s.dmem.readBytes s.aadPtr.toNat s.aadLen.toNat

/-- The bytes of the source buffer (10_state.md R40). -/
def src (s : State) : List Byte := s.dmem.readBytes s.srcPtr.toNat s.srcLen.toNat

/-- An associated-data buffer, a source buffer and `n` destination bytes that all fit in DMEM. -/
def BuffersFit (s : State) (n : Nat) : Prop :=
  s.aadPtr.toNat + s.aadLen.toNat ≤ s.dmemBytes ∧ s.srcPtr.toNat + s.srcLen.toNat ≤ s.dmemBytes ∧
  s.dstPtr.toNat + n ≤ s.dmemBytes

/-- Source and destination buffers with different starts that share a byte. -/
def PartlyOverlap (s : State) (n : Nat) : Prop :=
  s.srcPtr ≠ s.dstPtr ∧
  ∃ a, (s.srcPtr.toNat ≤ a ∧ a < s.srcPtr.toNat + s.srcLen.toNat) ∧ (s.dstPtr.toNat ≤ a ∧ a < s.dstPtr.toNat + n)

/-- AEAD_ENC's argument checks pass (44_aead.md R202). -/
def EncArguments (s : State) : Prop :=
  BuffersFit s (s.srcLen.toNat + 16) ∧ ¬PartlyOverlap s (s.srcLen.toNat + 16)

/-- AEAD_DEC's argument checks pass (44_aead.md R204). -/
def DecArguments (s : State) : Prop :=
  16 ≤ s.srcLen.toNat ∧ BuffersFit s (s.srcLen.toNat - 16) ∧ ¬PartlyOverlap s (s.srcLen.toNat - 16)

/-- The ciphertext part of AEAD_DEC's source buffer. -/
def decCiphertext (s : State) : List Byte := s.dmem.readBytes s.srcPtr.toNat (s.srcLen.toNat - 16)

/-- The provided tag in AEAD_DEC's source buffer. -/
def decProvidedTag (s : State) : List Byte := s.dmem.readBytes (s.srcPtr.toNat + (s.srcLen.toNat - 16)) 16

/-- Two states with the inputs of an AEAD command in common (44_aead.md R211). -/
def SameAeadInputs (s u : State) : Prop :=
  u.key = s.key ∧ u.nonce = s.nonce ∧ u.aadPtr = s.aadPtr ∧ u.aadLen = s.aadLen ∧ u.srcPtr = s.srcPtr ∧
  u.srcLen = s.srcLen ∧ u.dstPtr = s.dstPtr ∧ u.dmemsz = s.dmemsz ∧
  (∀ a, s.aadPtr.toNat ≤ a ∧ a < s.aadPtr.toNat + s.aadLen.toNat → u.dmem.read a = s.dmem.read a) ∧
  (∀ a, s.srcPtr.toNat ≤ a ∧ a < s.srcPtr.toNat + s.srcLen.toNat → u.dmem.read a = s.dmem.read a)

/-- The keystream block of one counter as the primitive commands generate it for the KEY and NONCE of a state: `hchacha`,
CTR loaded, `ksblk subkey, xn` (44_aead.md R200 steps 2 to 5). -/
def blockByCommands (s : State) (c : Nat) : Host.Outcome State Fault Refusal :=
  andThen (exec .hchacha { s with ctr := BitVec.ofNat 32 c, ctrexh := false }) (exec (.ksblk true true false))

/-- Byte j of that block: bits 8*(j mod 4)+7 to 8*(j mod 4) of KS[j div 4] (10_state.md R42). -/
def blockByte (s : State) (c j : Nat) : Byte :=
  match blockByCommands s c with
  | .next t => (t.ks.toList.getD (j / 4) 0).extractLsb' (8 * (j % 4)) 8
  | .fault _ => 0
  | .refused _ => 0

/-- Byte i of the payload keystream: byte i mod 64 of the block with counter 1 + floor(i / 64) (42_keystream.md R153,
44_aead.md R200 step 5). -/
def keystreamByte (s : State) (i : Nat) : Byte := blockByte s (1 + i / 64) (i % 64)

/-- The one-time key: the first 32 bytes of the block with counter 0 (44_aead.md R200 step 4). -/
def oneTimeKey (s : State) : List Byte := (List.range 32).map (blockByte s 0)

/-- A byte string with the zeros that fill its last 16-byte block (00_scope.md R11). -/
def padded (x : List Byte) : List Byte := x ++ List.replicate ((16 - x.length % 16) % 16) 0

/-- A length as eight bytes, the least significant first (00_scope.md R10). -/
def lengthBytes (n : Nat) : List Byte := (List.range 8).map (fun j => BitVec.ofNat 8 (n / 256 ^ j))

/-- The MAC input written out: padded associated data, padded ciphertext, then their lengths (43_poly1305.md R176). -/
def macInput (a x : List Byte) : List Byte := padded a ++ padded x ++ lengthBytes a.length ++ lengthBytes x.length

/-- The tag of a ciphertext under the KEY, NONCE and associated data of a state (44_aead.md R200 step 6). -/
def expectedTag (s : State) (x : List Byte) : List Byte := poly1305 (oneTimeKey s) (macInput (aad s) x)

/-- PBLK loaded with a block (10_state.md R37), then absorbed. -/
def absorb (b : List Byte) (s : State) : Host.Outcome State Fault Refusal :=
  exec (.pblk b.length) { s with pblk := wordsLe 4 (b ++ List.replicate (16 - b.length) 0) }

/-- Blocks absorbed one after another. -/
def absorbAll : List (List Byte) → State → Host.Outcome State Fault Refusal
  | [], s => .next s
  | b :: bs, s => andThen (absorb b s) (absorbAll bs)

/-- A MAC computed by the primitive commands: PKEY loaded, PINIT, one PBLK per block, PFIN. -/
def macByCommands (k : List Byte) (blocks : List (List Byte)) (s : State) : Host.Outcome State Fault Refusal :=
  andThen (andThen (exec (.pinit false) { s with pkey := wordsLe 8 k }) (absorbAll blocks)) (exec .pfin)

/-- The (ERR, CAUSE) pairs a command may produce (60_exceptions.md R246), as completion codes. -/
def codesOf : Instr → List Completion
  | .nop | .qr _ _ _ _ | .colrnd | .diagrnd | .dblrnd | .perm | .hchacha | .pinit _ | .pblk _ | .pfin | .zeroize _ => [.ok]
  | .ksblk _ _ _ => [.ok, .counterExhausted]
  | .pver => [.ok, .authenticationFailure]
  | .aeadEnc => [.ok, .range, .overlap, .length]
  | .aeadDec => [.ok, .shortInput, .range, .overlap, .length, .authenticationFailure]

/-- The registers a command writes beyond STATUS: the operand lines of its rule (40_permutation.md R127, 41_hchacha.md R142,
42_keystream.md R151, 43_poly1305.md R178 to R181, 44_aead.md R203, R205, R207, 45_system.md R230, R231). -/
def registersWritten : Instr → List RegName
  | .nop | .pver => []
  | .qr _ _ _ _ | .colrnd | .diagrnd | .dblrnd | .perm => [.s]
  | .hchacha => [.s, .subkey]
  | .ksblk _ _ inc => if inc then [.s, .ks, .ctr] else [.s, .ks]
  | .pinit _ => [.pr, .ps, .ph]
  | .pblk _ => [.ph]
  | .pfin => [.tag]
  | .aeadEnc | .aeadDec => [.s, .ks, .subkey, .pkey, .pr, .ps, .ph, .pblk, .tag, .outLen]
  | .zeroize _ => [.key, .nonce, .ctr, .subkey, .s, .ks, .pkey, .pr, .ps, .ph, .pblk, .tag, .ptag]

/-- The offsets of the registers of 10_state.md R21. -/
def RegisterOffset (off : Nat) : Prop :=
  off < 0x14 ∨ (0x20 ≤ off ∧ off < 0x5C) ∨ (0x60 ≤ off ∧ off < 0x154) ∨ (0x160 ≤ off ∧ off < 0x1A8)

/-- The offsets of the registers of access type RW in 10_state.md R21. -/
def RwOffset (off : Nat) : Prop :=
  (0x40 ≤ off ∧ off < 0x5C) ∨ (0x60 ≤ off ∧ off < 0xC0) ∨ (0x100 ≤ off ∧ off < 0x120) ∨
  (0x160 ≤ off ∧ off < 0x170) ∨ (0x180 ≤ off ∧ off < 0x1A4)

/-- The offsets of the registers of access type RO or CONST in 10_state.md R21. -/
def RoOffset (off : Nat) : Prop :=
  (0xC ≤ off ∧ off < 0x14) ∨ (0xC0 ≤ off ∧ off < 0x100) ∨ (0x120 ≤ off ∧ off < 0x154) ∨
  (0x170 ≤ off ∧ off < 0x180) ∨ (0x1A4 ≤ off ∧ off < 0x1A8)

/-- The offsets of the DMEM window (20_memory.md R60). -/
def DmemOffset (s : State) (off : Nat) : Prop := 0x10000 ≤ off ∧ off < 0x10000 + s.dmemBytes

/-- The data of a host read. -/
def readData (s : State) (off : Word) : Option Reply := (hostRead s off).reply

/-- A read at an offset answers OKAY and this word. -/
def Reads (s : State) (off : Nat) (w : Word) : Prop := readData s (BitVec.ofNat 32 off) = some (.read .okay w)

/-- CMD, STATUS, CTRL and the registers of access type RO or CONST read as themselves, word by word (10_state.md R21 to R26,
R32, R34 to R36, R38, R41). -/
def RoRegistersRead (s : State) : Prop :=
  Reads s 0x000 s.cmd ∧ Reads s 0x004 (statusWord s) ∧ Reads s 0x008 (ctrlWord s) ∧ Reads s 0x00C s.id ∧
  Reads s 0x010 s.dmemsz ∧ (∀ i : Fin 16, Reads s (0x0C0 + 4 * i.val) s.ks[i]) ∧
  (∀ i : Fin 4, Reads s (0x120 + 4 * i.val) s.pr[i] ∧ Reads s (0x130 + 4 * i.val) s.ps[i] ∧
    Reads s (0x170 + 4 * i.val) s.tag[i]) ∧
  (∀ i : Fin 5, Reads s (0x140 + 4 * i.val) s.ph[i]) ∧ Reads s 0x1A4 s.outLen

/-- The registers of access type RW read as themselves, word by word (10_state.md R21, R28 to R31, R33, R37, R39, R40). -/
def RwRegistersRead (s : State) : Prop :=
  (∀ i : Fin 6, Reads s (0x040 + 4 * i.val) s.nonce[i]) ∧ Reads s 0x058 s.ctr ∧
  (∀ i : Fin 8, Reads s (0x060 + 4 * i.val) s.subkey[i] ∧ Reads s (0x100 + 4 * i.val) s.pkey[i]) ∧
  (∀ i : Fin 16, Reads s (0x080 + 4 * i.val) s.s[i]) ∧
  (∀ i : Fin 4, Reads s (0x160 + 4 * i.val) s.pblk[i] ∧ Reads s (0x180 + 4 * i.val) s.ptag[i]) ∧
  Reads s 0x190 s.aadPtr ∧ Reads s 0x194 s.aadLen ∧ Reads s 0x198 s.srcPtr ∧ Reads s 0x19C s.srcLen ∧
  Reads s 0x1A0 s.dstPtr

/-- Every register of 10_state.md R21 at its reset value (70_reset_and_hazards.md R271). -/
def RegistersReset (t : State) (coreId dmemBytes : Word) : Prop :=
  (∀ n i, n ≠ .id → n ≠ .dmemsz → readReg t n i = 0) ∧ t.key = Vector.replicate 8 0 ∧
  readReg t .id 0 = coreId ∧ readReg t .dmemsz 0 = dmemBytes ∧ t.inFlight = none ∧ irq t = false

/-- An event that resets the CORE: power-on, or a full-strobe write of CTRL with SRST (70_reset_and_hazards.md R270). -/
def isReset : Event → Bool
  | .powerOn => true
  | .write off v strb => off == 0x8#32 && v.getLsbD 1 && strb == 0b1111#4
  | .read _ => false
  | .engine => false

end Sys2Proof.Claims

open Sys2Proof Sys2Proof.Machine Sys2Proof.Claims

/-! ## Encoding (30_encoding.md) -/

/-- Every command the encoding can express is read back from its word with every operand (30_encoding.md R92 to R98,
R102). -/
def Obligations.DecodeOfEncodeIsTheCommand : Prop :=
  ∀ i : Instr, i.wellFormed = true → decode (encode i) = .command i

/-- The other direction: a word that decodes to a command is that command's word and no other's, and the command is
well-formed (30_encoding.md R90, R98, R100). -/
def Obligations.EncodeOfDecodeIsTheWord : Prop :=
  ∀ (w : Word) (i : Instr), decode w = .command i → i.wellFormed = true ∧ encode i = w

/-- "A word w is the command when `w & mask == match`", for every row of the opcode map (30_encoding.md R98). -/
def Obligations.WordIsTheCommandOfItsRow : Prop :=
  ∀ row ∈ opcodeRows, ∀ w : Word,
    w &&& row.2.1 = row.1 ↔ ∃ i, decode w = .command i ∧ mnemonic i = row.2.2

/-- The two kinds of rejected words, in the order of 30_encoding.md R99 (1) and (2). -/
def Obligations.RejectedWordsAreThoseOfTheMap : Prop :=
  ∀ w : Word,
    (decode w = .unassigned ↔ ∀ row ∈ opcodeRows, w &&& 0xFF#32 ≠ row.1) ∧
    (decode w = .reservedBit ↔ ∃ row ∈ opcodeRows, w &&& 0xFF#32 = row.1 ∧ w &&& row.2.1 &&& 0xFFFFFF00#32 ≠ 0)

/-- Words of 30_encoding.md R102's examples and of 95_test_vectors.md 2.6 decode as they say. -/
def Obligations.SampleWordsDecode : Prop :=
  decode 0x00000000#32 = .command .nop ∧
  decode 0x00C84001#32 = .command (.qr 0 4 8 12) ∧
  decode 0x00D87201#32 = .command (.qr 2 7 8 13) ∧
  decode 0x00000711#32 = .command (.ksblk true true true) ∧
  decode 0x00000411#32 = .command (.ksblk false false true) ∧
  decode 0x00000120#32 = .command (.pinit true) ∧
  decode 0x00000F21#32 = .command (.pblk 16) ∧
  decode 0x00000121#32 = .command (.pblk 2) ∧
  decode 0x00000030#32 = .command .aeadEnc ∧
  decode 0x0000013F#32 = .command (.zeroize true) ∧
  decode 0x000000FF#32 = .unassigned ∧
  decode 0x01C84001#32 = .reservedBit ∧
  decode 0x00000130#32 = .reservedBit

/-! ## The step -/

/-- When a command is in flight and it is the engine's turn, a step runs the decoded command; nothing is added around it but
the turn taken from the schedule (70_reset_and_hazards.md R276; the schedule is the model's choice, log entry 5). -/
def Obligations.StepRunsTheCommandInFlight : Prop :=
  ∀ (s : State) (i : Instr), s.busy = true → decode s.cmd = .command i →
    (s.schedule = [] → step s = exec i s) ∧
    (∀ es, s.schedule = .engine :: es → step s = exec i { s with schedule := es })

/-- A step performs the event at the head of the schedule, and with none left is the engine's turn; an idle engine changes
nothing (20_memory.md R67, R71, 60_exceptions.md R258; the schedule is the model's choice, log entry 5). -/
def Obligations.StepPerformsTheNextEvent : Prop :=
  ∀ (s : State) (es : List Event),
    (∀ off, s.schedule = .read off :: es → step s = .next (hostRead { s with schedule := es } off)) ∧
    (∀ off v strb, s.schedule = .write off v strb :: es →
      step s = .next (hostWrite { s with schedule := es } off v strb)) ∧
    (s.schedule = .powerOn :: es → step s = .next (powerOnReset { s with schedule := es })) ∧
    (s.schedule = .engine :: es → step s = engineStep { s with schedule := es }) ∧
    (s.schedule = [] → step s = engineStep s) ∧
    (s.busy = false → engineStep s = .next s)

/-- An illegal word in flight ends with ILLEGAL_COMMAND at the engine's turn, CAUSE 1 or 2, and changes STATUS alone
(60_exceptions.md R245). -/
def Obligations.IllegalWordChangesStatusAlone : Prop :=
  ∀ s : State, s.busy = true →
    (decode s.cmd = .unassigned → ∃ t, engineStep s = .next t ∧ Ended t .unassigned ∧ t.authok = s.authok ∧
      KeepsAllButStatus s t ∧ (statusWord t).extractLsb' 8 8 = 0x14#8) ∧
    (decode s.cmd = .reservedBit → ∃ t, engineStep s = .next t ∧ Ended t .reservedBit ∧ t.authok = s.authok ∧
      KeepsAllButStatus s t ∧ (statusWord t).extractLsb' 8 8 = 0x24#8)

/-- No step stops the machine: no failure is a trap, the engine never leaves DMEM, and every word the host can write has its
behaviour (60_exceptions.md R240, 20_memory.md R68, 93 I8). -/
def Obligations.EveryStepGoesOn : Prop := ∀ s : State, goesOn (step s)

/-- Every step keeps the invariant: DMEM canonical and within its size, h reduced, r clamped, STATUS quiet while BUSY, and
AUTHOK only after a PVER or AEAD_DEC that matched (10_state.md R23, R34, R36, 20_memory.md R60; the canonical form is the
model's choice, log entry 1). -/
def Obligations.EveryStepKeepsTheInvariant : Prop :=
  ∀ s t : State, s.Inv → step s = .next t → t.Inv

/-- The invariant holds after a power-on reset (70_reset_and_hazards.md R271; DMEM_BYTES at reset is the default of its
parameter, the model's choice, log entry 2). -/
def Obligations.ResetMeetsTheInvariant : Prop := State.reset.Inv

/-- A command in flight completes after finitely many steps unless a reset aborts it: at the latest when the schedule is used
up (70_reset_and_hazards.md R280; the schedule is the model's choice, log entry 5). -/
def Obligations.AcceptedCommandCompletes : Prop :=
  ∀ s : State, s.busy = true → (∀ e ∈ s.schedule, isReset e = false) →
    ∃ k t, k ≤ s.schedule.length + 1 ∧ Sys2Proof.core.run k s = .next t ∧ t.busy = false ∧ t.done = true ∧ t.cmd = s.cmd

/-! ## System commands (45_system.md) -/

/-- NOP completes, and nothing but the completion of STATUS happens (45_system.md R230). -/
def Obligations.NopOnlyCompletes : Prop :=
  ∀ s : State, ∃ t, exec .nop s = .next t ∧ Ended t .ok ∧ t.authok = s.authok ∧ KeepsAllButStatus s t

/-- ZEROIZE clears what 45_system.md R231 lists, DMEM with DM = 1 and only then, and keeps the rest. -/
def Obligations.ZeroizeClearsAllKeyMaterial : Prop :=
  ∀ (dm : Bool) (s : State), ∃ t, exec (.zeroize dm) s = .next t ∧ Ended t .ok ∧
    t.key = Vector.replicate 8 0 ∧ t.nonce = Vector.replicate 6 0 ∧ t.ctr = 0 ∧ t.ctrexh = false ∧ DatapathZero t ∧
    t.tag = Vector.replicate 4 0 ∧ t.ptag = Vector.replicate 4 0 ∧
    (dm = true → ∀ a, t.dmem.read a = 0) ∧ (dm = false → KeepsDmem s t) ∧
    KeepsHostSide s t ∧ t.outLen = s.outLen ∧ t.authok = s.authok

/-! ## Permutation commands (40_permutation.md) -/

/-- QR is the eight steps of rule R120 in order, for every four indices, repeated ones too (40_permutation.md R120, R121). -/
def Obligations.QuarterRoundIsTheEightSteps : Prop :=
  ∀ (a b c d : Fin 16) (s : State), ∃ t, exec (.qr a b c d) s = .next t ∧ Ended t .ok ∧
    (∀ k : Fin 16, t.s[k] = eightSteps (fun j => s.s[j]) a b c d k) ∧ KeepsAllButS s t

/-- QR on four different words is the quarter-round of their values, and `qr i, i, i, i` clears S[i]; every other word keeps
its value (40_permutation.md R120, R121). -/
def Obligations.QuarterRoundOfDistinctAndOfEqualIndices : Prop :=
  (∀ (a b c d : Fin 16) (s : State), a ≠ b → a ≠ c → a ≠ d → b ≠ c → b ≠ d → c ≠ d →
    ∃ t, exec (.qr a b c d) s = .next t ∧ (t.s[a], t.s[b], t.s[c], t.s[d]) = quarter s.s[a] s.s[b] s.s[c] s.s[d] ∧
      ∀ k : Fin 16, k ≠ a → k ≠ b → k ≠ c → k ≠ d → t.s[k] = s.s[k]) ∧
  (∀ (i : Fin 16) (s : State), ∃ t, exec (.qr i i i i) s = .next t ∧ t.s[i] = 0 ∧
      ∀ k : Fin 16, k ≠ i → t.s[k] = s.s[k])

/-- COLRND is four lanes: column j is the quarter-round of the old words j, 4+j, 8+j, 12+j (40_permutation.md R122,
R126). -/
def Obligations.ColumnRoundIsFourLanes : Prop :=
  ∀ s : State, ∃ t, exec .colrnd s = .next t ∧ Ended t .ok ∧
    (∀ (j : Nat) (h : j < 4),
      (t.s[j], t.s[4 + j], t.s[8 + j], t.s[12 + j]) = quarter s.s[j] s.s[4 + j] s.s[8 + j] s.s[12 + j]) ∧
    KeepsAllButS s t

/-- DIAGRND is four lanes: diagonal j is the quarter-round of the old words j, 4+(j+1 mod 4), 8+(j+2 mod 4), 12+(j+3 mod 4)
(40_permutation.md R123, R126). -/
def Obligations.DiagonalRoundIsFourLanes : Prop :=
  ∀ s : State, ∃ t, exec .diagrnd s = .next t ∧ Ended t .ok ∧
    (∀ (j : Nat) (h : j < 4),
      (t.s[j], t.s[4 + (j + 1) % 4], t.s[8 + (j + 2) % 4], t.s[12 + (j + 3) % 4]) =
        quarter s.s[j] s.s[4 + (j + 1) % 4] s.s[8 + (j + 2) % 4] s.s[12 + (j + 3) % 4]) ∧
    KeepsAllButS s t

/-- Quarter-rounds on disjoint index sets may be done in either order (40_permutation.md R126). -/
def Obligations.DisjointQuarterRoundsCommute : Prop :=
  ∀ (a b c d e f g h : Fin 16) (s : State),
    (∀ x ∈ [a, b, c, d], ∀ y ∈ [e, f, g, h], x ≠ y) →
    ∃ t, andThen (exec (.qr a b c d) s) (exec (.qr e f g h)) = .next t ∧
      andThen (exec (.qr e f g h) s) (exec (.qr a b c d)) = .next t

/-- DBLRND equals COLRND followed by DIAGRND as two commands (40_permutation.md R124). -/
def Obligations.DoubleRoundIsColumnThenDiagonal : Prop :=
  ∀ s : State, ∃ t, exec .dblrnd s = .next t ∧ Ended t .ok ∧
    andThen (exec .colrnd s) (exec .diagrnd) = .next t ∧ KeepsAllButS s t

/-- PERM equals ten DBLRND commands, adds nothing back, and leaves the all-zero state zero (40_permutation.md R125,
90_conflicts.md C2). -/
def Obligations.PermIsTenDoubleRounds : Prop :=
  ∀ s : State, ∃ t, exec .perm s = .next t ∧ Ended t .ok ∧ repeated .dblrnd 10 s = .next t ∧ KeepsAllButS s t ∧
    (s.s = Vector.replicate 16 0 → t.s = Vector.replicate 16 0)

/-- QR, COLRND, DIAGRND, DBLRND and PERM read and write S alone, cannot fail, and depend on no other register
(40_permutation.md R127). -/
def Obligations.PermutationCommandsReadAndWriteSAlone : Prop :=
  ∀ (i : Instr) (s : State), ((∃ a b c d, i = .qr a b c d) ∨ i = .colrnd ∨ i = .diagrnd ∨ i = .dblrnd ∨ i = .perm) →
    ∃ t, exec i s = .next t ∧ Ended t .ok ∧ KeepsAllButS s t ∧
      ∀ u : State, u.s = s.s → ∃ v, exec i u = .next v ∧ v.s = t.s ∧ v.report = .ok

/-! ## HChaCha20 and the keystream generator (41_hchacha.md, 42_keystream.md) -/

/-- HCHACHA is PERM on SIGMA, KEY and NONCE[0..3], without feed-forward; SUBKEY takes words 0 to 3 and 12 to 15
(41_hchacha.md R141, R142). -/
def Obligations.HchachaPermutesAndSelects : Prop :=
  ∀ s : State, ∃ t u, exec .hchacha s = .next t ∧ Ended t .ok ∧
    exec .perm { s with s := startArray s.key s.nonce[0] s.nonce[1] s.nonce[2] s.nonce[3] } = .next u ∧
    t.s = u.s ∧ t.subkey = #v[u.s[0], u.s[1], u.s[2], u.s[3], u.s[12], u.s[13], u.s[14], u.s[15]] ∧
    KeepsHostSide s t ∧ KeepsInputs s t ∧ KeepsCounter s t ∧ t.ks = s.ks ∧ KeepsPoly s t ∧ KeepsResults s t ∧
    KeepsDmem s t ∧ t.authok = s.authok

/-- KSBLK with the counter not exhausted: the block is the permutation plus its own start (feed-forward), in S and KS, for
every key, nonce and INC selection; the counter moves only with INC (42_keystream.md R150, R151). -/
def Obligations.KsblkGeneratesTheBlock : Prop :=
  ∀ (ksel nsel inc : Bool) (s : State), s.ctrexh = false →
    ∃ t u x, x = startArray (if ksel then s.subkey else s.key) s.ctr (if nsel then 0 else s.nonce[0])
        (if nsel then s.nonce[4] else s.nonce[1]) (if nsel then s.nonce[5] else s.nonce[2]) ∧
      exec (.ksblk ksel nsel inc) s = .next t ∧ Ended t .ok ∧ exec .perm { s with s := x } = .next u ∧
      (∀ k : Fin 16, t.ks[k] = u.s[k] + x[k]) ∧ t.s = t.ks ∧ (inc = false → KeepsCounter s t) ∧
      KeepsHostSide s t ∧ KeepsInputs s t ∧ t.subkey = s.subkey ∧ KeepsPoly s t ∧ KeepsResults s t ∧
      KeepsDmem s t ∧ t.authok = s.authok

/-- The counter advance and its end: no wrap is silent, the block of counter 0xFFFFFFFF is the last, and with CTREXH every
KSBLK raises INTERNAL_OVERFLOW(1) and writes nothing (42_keystream.md R151, R152, 60_exceptions.md R244). -/
def Obligations.KsblkAdvancesOrExhaustsTheCounter : Prop :=
  ∀ (ksel nsel : Bool) (s : State),
    (s.ctrexh = false → ∃ t, exec (.ksblk ksel nsel true) s = .next t ∧ t.report = .ok ∧
      (if s.ctr.toNat < 2 ^ 32 - 1 then t.ctr.toNat = s.ctr.toNat + 1 ∧ t.ctrexh = false
       else t.ctr = 0 ∧ t.ctrexh = true)) ∧
    (∀ inc, s.ctrexh = true → ∃ t, exec (.ksblk ksel nsel inc) s = .next t ∧ Ended t .counterExhausted ∧
      t.authok = s.authok ∧ KeepsAllButStatus s t)

/-- HCHACHA20 and the keystream block of the same start differ by the feed-forward alone (41_hchacha.md R143). -/
def Obligations.HchachaAndKeystreamDifferByTheFeedForward : Prop :=
  ∀ (k : Vector Word 8) (c n1 n2 n3 : Word), ∃ (b x : Vector Word 16),
    b = chachaBlock k c #v[n1, n2, n3] ∧ x = hchachaState k #v[c, n1, n2, n3] ∧
    b[0] = x[0] + 0x61707865 ∧ b[1] = x[1] + 0x3320646E ∧ b[2] = x[2] + 0x79622D32 ∧ b[3] = x[3] + 0x6B206574 ∧
    b[12] = x[12] + c ∧ b[13] = x[13] + n1 ∧ b[14] = x[14] + n2 ∧ b[15] = x[15] + n3

/-! ## Poly1305 (43_poly1305.md) -/

/-- PINIT: r is the first four key words masked, s the last four, h = 0, from PKEY or from KS (43_poly1305.md R171,
R178). -/
def Obligations.PinitLoadsTheClampedKey : Prop :=
  ∀ (pksrc : Bool) (s : State), ∃ t kw, kw = (if pksrc then s.ks.toList.take 8 else s.pkey.toList) ∧
    exec (.pinit pksrc) s = .next t ∧ Ended t .ok ∧
    numOf t.pr.toList = numOf (kw.take 4) &&& 0x0FFFFFFC0FFFFFFC0FFFFFFC0FFFFFFF ∧
    numOf t.ps.toList = numOf (kw.drop 4) ∧ t.ph = Vector.replicate 5 0 ∧
    KeepsHostSide s t ∧ KeepsInputs s t ∧ KeepsCounter s t ∧ t.s = s.s ∧ t.ks = s.ks ∧ t.subkey = s.subkey ∧
    t.pkey = s.pkey ∧ t.pblk = s.pblk ∧ KeepsResults s t ∧ KeepsDmem s t ∧ t.authok = s.authok

/-- PBLK n: h becomes (h + c) * r mod 2^130 - 5, c the first n bytes of PBLK with 2^(8n) added (43_poly1305.md R172, R173,
R179). -/
def Obligations.PblkAbsorbsTheBlock : Prop :=
  ∀ (n : Nat) (s : State), ∃ t, exec (.pblk n) s = .next t ∧ Ended t .ok ∧
    numOf t.ph.toList =
      (numOf s.ph.toList + (numOf s.pblk.toList % 2 ^ (8 * n) + 2 ^ (8 * n))) * numOf s.pr.toList % (2 ^ 130 - 5) ∧
    KeepsHostSide s t ∧ KeepsInputs s t ∧ KeepsCounter s t ∧ t.s = s.s ∧ t.ks = s.ks ∧ t.subkey = s.subkey ∧
    t.pkey = s.pkey ∧ t.pr = s.pr ∧ t.ps = s.ps ∧ t.pblk = s.pblk ∧ KeepsResults s t ∧ KeepsDmem s t ∧
    t.authok = s.authok

/-- PFIN: the tag is (h + s) mod 2^128, so PH[4] does not reach it, and PFIN again gives the same (43_poly1305.md R174,
R180, 90_conflicts.md C7). -/
def Obligations.PfinFinalisesTheTag : Prop :=
  ∀ s : State, ∃ t, exec .pfin s = .next t ∧ Ended t .ok ∧
    numOf t.tag.toList = (numOf s.ph.toList + numOf s.ps.toList) % 2 ^ 128 ∧
    numOf t.tag.toList = (numOf (s.ph.toList.take 4) + numOf s.ps.toList) % 2 ^ 128 ∧
    exec .pfin t = .next t ∧
    KeepsHostSide s t ∧ KeepsInputs s t ∧ KeepsCounter s t ∧ t.s = s.s ∧ t.ks = s.ks ∧ t.subkey = s.subkey ∧
    KeepsPoly s t ∧ t.outLen = s.outLen ∧ KeepsDmem s t ∧ t.authok = s.authok

/-- PVER: AUTHOK says whether all 128 bits agree, and a difference in any bit is AUTHENTICATION_FAILURE(0)
(43_poly1305.md R181). -/
def Obligations.PverComparesTheTags : Prop :=
  ∀ s : State, ∃ t, exec .pver s = .next t ∧
    ((∀ k : Fin 4, s.tag[k] = s.ptag[k]) → Ended t .ok ∧ t.authok = true) ∧
    ((∃ k : Fin 4, s.tag[k] ≠ s.ptag[k]) → Ended t .authenticationFailure ∧ t.authok = false) ∧
    KeepsAllButStatus s t

/-- The primitive commands compute POLY1305: PINIT on PKEY, a PBLK per 16-byte block and one for a shorter last block, and
PFIN leave the tag of the whole message (43_poly1305.md R175, R178 to R180). -/
def Obligations.PrimitiveCommandsComputePoly1305 : Prop :=
  ∀ (k : List Byte) (full : List (List Byte)) (last : List Byte) (s : State),
    k.length = 32 → (∀ b ∈ full, b.length = 16) → last.length < 16 →
    ∃ t, macByCommands k (full ++ if last = [] then [] else [last]) s = .next t ∧
      bytesLe t.tag.toList = poly1305 k (full.flatten ++ last)

/-! ## AEAD (44_aead.md) -/

/-- AEAD_ENC's checks in order: a buffer that does not fit is RANGE, else buffers that partly overlap are OVERLAP, and
nothing but STATUS changes; LENGTH cannot occur (44_aead.md R202, R210). -/
def Obligations.AeadEncRejectsBadArguments : Prop :=
  ∀ s : State,
    (¬BuffersFit s (s.srcLen.toNat + 16) →
      ∃ t, exec .aeadEnc s = .next t ∧ Ended t .range ∧ t.authok = s.authok ∧ KeepsAllButStatus s t) ∧
    (BuffersFit s (s.srcLen.toNat + 16) → PartlyOverlap s (s.srcLen.toNat + 16) →
      ∃ t, exec .aeadEnc s = .next t ∧ Ended t .overlap ∧ t.authok = s.authok ∧ KeepsAllButStatus s t) ∧
    (EncArguments s → ∃ t, exec .aeadEnc s = .next t ∧ Ended t .ok)

/-- AEAD_DEC's checks in order: SHORT_INPUT, RANGE, OVERLAP, and nothing but STATUS changes; LENGTH cannot occur
(44_aead.md R204, R210). -/
def Obligations.AeadDecRejectsBadArguments : Prop :=
  ∀ s : State,
    (s.srcLen.toNat < 16 →
      ∃ t, exec .aeadDec s = .next t ∧ Ended t .shortInput ∧ t.authok = s.authok ∧ KeepsAllButStatus s t) ∧
    (16 ≤ s.srcLen.toNat → ¬BuffersFit s (s.srcLen.toNat - 16) →
      ∃ t, exec .aeadDec s = .next t ∧ Ended t .range ∧ t.authok = s.authok ∧ KeepsAllButStatus s t) ∧
    (16 ≤ s.srcLen.toNat → BuffersFit s (s.srcLen.toNat - 16) → PartlyOverlap s (s.srcLen.toNat - 16) →
      ∃ t, exec .aeadDec s = .next t ∧ Ended t .overlap ∧ t.authok = s.authok ∧ KeepsAllButStatus s t) ∧
    (DecArguments s → ∃ t, exec .aeadDec s = .next t ∧ (Ended t .ok ∨ Ended t .authenticationFailure))

/-- AEAD_ENC: source XOR keystream, then the tag of what was written, at DST_PTR and nowhere else; TAG a copy of the tag,
OUT_LEN the exact length, the datapath zero, the rest kept. Keystream and one-time key are the blocks that `hchacha` and
`ksblk subkey, xn` generate, counter 0 for the key and 1 + floor(i / 64) for byte i, and the MAC input is written out
(44_aead.md R200, R203, R207, R209, R214, 42_keystream.md R153, 43_poly1305.md R176). -/
def Obligations.AeadEncWritesCiphertextAndTag : Prop :=
  ∀ s : State, s.dmem.wf → EncArguments s →
    ∃ t, exec .aeadEnc s = .next t ∧ Ended t .ok ∧
      (∀ i, i < s.srcLen.toNat → t.dmem.read (s.dstPtr.toNat + i) =
        s.dmem.read (s.srcPtr.toNat + i) ^^^ keystreamByte s i) ∧
      t.dmem.readBytes (s.dstPtr.toNat + s.srcLen.toNat) 16 =
        expectedTag s (t.dmem.readBytes s.dstPtr.toNat s.srcLen.toNat) ∧
      (∀ a, a < s.dstPtr.toNat ∨ s.dstPtr.toNat + s.srcLen.toNat + 16 ≤ a → t.dmem.read a = s.dmem.read a) ∧
      bytesLe t.tag.toList = t.dmem.readBytes (s.dstPtr.toNat + s.srcLen.toNat) 16 ∧
      t.outLen.toNat = s.srcLen.toNat + 16 ∧ DatapathZero t ∧
      KeepsHostSide s t ∧ KeepsInputs s t ∧ KeepsCounter s t ∧ t.authok = s.authok

/-- AEAD_DEC when the tags agree: the plaintext, exactly SRC_LEN - 16 bytes, at DST_PTR and nowhere else; AUTHOK 1, TAG 0,
the datapath zero, the rest kept. Keystream and expected tag are those of AEAD_ENC, through `hchacha` and `ksblk subkey, xn`
and the MAC input written out (44_aead.md R201, R205, R207, R209, R214, R217, 42_keystream.md R153, 43_poly1305.md
R176). -/
def Obligations.AeadDecReleasesThePlaintextOnAMatch : Prop :=
  ∀ s : State, s.dmem.wf → DecArguments s →
    expectedTag s (decCiphertext s) = decProvidedTag s →
    ∃ t, exec .aeadDec s = .next t ∧ Ended t .ok ∧ t.authok = true ∧
      (∀ i, i < s.srcLen.toNat - 16 → t.dmem.read (s.dstPtr.toNat + i) =
        s.dmem.read (s.srcPtr.toNat + i) ^^^ keystreamByte s i) ∧
      (∀ a, a < s.dstPtr.toNat ∨ s.dstPtr.toNat + (s.srcLen.toNat - 16) ≤ a → t.dmem.read a = s.dmem.read a) ∧
      t.outLen.toNat = s.srcLen.toNat - 16 ∧ t.tag = Vector.replicate 4 0 ∧ DatapathZero t ∧
      KeepsHostSide s t ∧ KeepsInputs s t ∧ KeepsCounter s t

/-- AEAD_DEC when any tag bit differs: AUTHENTICATION_FAILURE(0), no DMEM byte written, OUT_LEN 0, TAG 0, the datapath zero,
AUTHOK as acceptance left it (44_aead.md R206, R207, R216). -/
def Obligations.AeadDecReleasesNothingOnAMismatch : Prop :=
  ∀ s : State, DecArguments s → expectedTag s (decCiphertext s) ≠ decProvidedTag s →
    ∃ t, exec .aeadDec s = .next t ∧ Ended t .authenticationFailure ∧ t.authok = s.authok ∧ KeepsDmem s t ∧
      t.outLen = 0 ∧ t.tag = Vector.replicate 4 0 ∧ DatapathZero t ∧
      KeepsHostSide s t ∧ KeepsInputs s t ∧ KeepsCounter s t

/-- Round trip: AEAD_DEC of what AEAD_ENC wrote, with the same KEY, NONCE and AAD bytes, completes OK with AUTHOK = 1,
OUT_LEN the plaintext's length, and the plaintext at its DST_PTR (44_aead.md R212). -/
def Obligations.AeadDecryptsWhatItEncrypted : Prop :=
  ∀ s t u : State, s.dmem.wf → EncArguments s → exec .aeadEnc s = .next t →
    u.dmem.wf → u.key = s.key → u.nonce = s.nonce → aad u = aad s →
    u.srcPtr = s.dstPtr → u.srcLen.toNat = s.srcLen.toNat + 16 → src u = t.dmem.readBytes s.dstPtr.toNat (s.srcLen.toNat + 16) →
    DecArguments u →
    ∃ v, exec .aeadDec u = .next v ∧ Ended v .ok ∧ v.authok = true ∧ v.outLen.toNat = s.srcLen.toNat ∧
      v.dmem.readBytes u.dstPtr.toNat s.srcLen.toNat = src s

/-- The result of an AEAD command depends on its explicit inputs alone: two states that share KEY, NONCE, the buffer
registers, DMEM_BYTES and the bytes of the AAD and source buffers end with the same code, and with the same output bytes,
TAG and OUT_LEN once the checks passed (44_aead.md R211). -/
def Obligations.AeadDependsOnItsInputsAlone : Prop :=
  ∀ s u : State, s.dmem.wf → u.dmem.wf → SameAeadInputs s u →
    (∃ t v, exec .aeadEnc s = .next t ∧ exec .aeadEnc u = .next v ∧ t.report = v.report ∧
      (t.report = .ok → v.tag = t.tag ∧ v.outLen = t.outLen ∧
        ∀ i, i < s.srcLen.toNat + 16 → v.dmem.read (s.dstPtr.toNat + i) = t.dmem.read (s.dstPtr.toNat + i))) ∧
    (∃ t v, exec .aeadDec s = .next t ∧ exec .aeadDec u = .next v ∧ t.report = v.report ∧
      (t.report = .ok ∨ t.report = .authenticationFailure → v.tag = t.tag ∧ v.outLen = t.outLen) ∧
      (t.report = .ok → ∀ i, i < s.srcLen.toNat - 16 →
        v.dmem.read (s.dstPtr.toNat + i) = t.dmem.read (s.dstPtr.toNat + i)))

/-- Two AEAD_ENC commands with equal KEY, NONCE, AAD bytes and source bytes write equal destination bytes and equal TAG,
wherever their buffers lie (44_aead.md R213). -/
def Obligations.EqualInputsEncryptEqually : Prop :=
  ∀ s u : State, s.dmem.wf → u.dmem.wf → EncArguments s → EncArguments u →
    u.key = s.key → u.nonce = s.nonce → aad u = aad s → src u = src s →
    ∃ t v, exec .aeadEnc s = .next t ∧ exec .aeadEnc u = .next v ∧ v.tag = t.tag ∧ v.outLen = t.outLen ∧
      v.dmem.readBytes u.dstPtr.toNat (u.srcLen.toNat + 16) = t.dmem.readBytes s.dstPtr.toNat (s.srcLen.toNat + 16)

/-! ## Completion codes and whole-machine rules (60_exceptions.md, 10_state.md) -/

/-- Every command completes, and only with a code that 60_exceptions.md R246 lists for it; INTERNAL_OVERFLOW(2) never. -/
def Obligations.CommandsProduceOnlyTheirCodes : Prop :=
  ∀ (i : Instr) (s : State), ∃ t, exec i s = .next t ∧ t.busy = false ∧ t.done = true ∧ t.report ∈ codesOf i ∧
    t.report ≠ .length

/-- A command that fails changes nothing beyond STATUS, but for AEAD_DEC's mismatch, which sets TAG and OUT_LEN to 0 and
zeroises the datapath (60_exceptions.md R248). -/
def Obligations.FailuresArePrecise : Prop :=
  ∀ (i : Instr) (s t : State), exec i s = .next t → t.report ≠ .ok →
    (KeepsAllButStatus s t ∧ (i = .pver ∨ t.authok = s.authok)) ∨
    (i = .aeadDec ∧ t.report = .authenticationFailure ∧ KeepsHostSide s t ∧ KeepsInputs s t ∧ KeepsCounter s t ∧
      KeepsDmem s t ∧ t.authok = s.authok ∧ t.tag = Vector.replicate 4 0 ∧ t.outLen = 0 ∧ DatapathZero t)

/-- What each command may change, register by register: no command writes CMD, OVR, IE, ID, DMEMSZ or a buffer register, and
every other register changes only by a command whose rule lists it (`registersWritten`), CTREXH with CTR; AUTHOK only by
PVER and AEAD_DEC; DMEM only by the AEAD commands and ZEROIZE with DM = 1 (10_state.md R27 to R41, R46, 20_memory.md
R68). -/
def Obligations.EachRegisterHasItsWriters : Prop :=
  ∀ (i : Instr) (s t : State), exec i s = .next t →
    KeepsHostSide s t ∧
    (.key ∉ registersWritten i → t.key = s.key) ∧
    (.nonce ∉ registersWritten i → t.nonce = s.nonce) ∧
    (.ctr ∉ registersWritten i → KeepsCounter s t) ∧
    (.subkey ∉ registersWritten i → t.subkey = s.subkey) ∧
    (.s ∉ registersWritten i → t.s = s.s) ∧
    (.ks ∉ registersWritten i → t.ks = s.ks) ∧
    (.pkey ∉ registersWritten i → t.pkey = s.pkey) ∧
    (.pr ∉ registersWritten i → t.pr = s.pr) ∧
    (.ps ∉ registersWritten i → t.ps = s.ps) ∧
    (.ph ∉ registersWritten i → t.ph = s.ph) ∧
    (.pblk ∉ registersWritten i → t.pblk = s.pblk) ∧
    (.tag ∉ registersWritten i → t.tag = s.tag) ∧
    (.ptag ∉ registersWritten i → t.ptag = s.ptag) ∧
    (.outLen ∉ registersWritten i → t.outLen = s.outLen) ∧
    (i ≠ .pver → i ≠ .aeadDec → t.authok = s.authok) ∧
    (i ≠ .zeroize true → i ≠ .aeadEnc → i ≠ .aeadDec → KeepsDmem s t)

/-- STATUS as the host reads it: the fields at the bits of 10_state.md R23 and zeros elsewhere, and its (ERR, CAUSE) is one of
the nine pairs of 60_exceptions.md R241. -/
def Obligations.StatusWordHasTheFieldsOfTheMap : Prop :=
  ∀ s : State,
    (statusWord s).getLsbD 0 = s.busy ∧ (statusWord s).getLsbD 1 = s.done ∧ (statusWord s).getLsbD 2 = s.ovr ∧
    (statusWord s).getLsbD 3 = s.ctrexh ∧ (statusWord s).getLsbD 4 = s.authok ∧
    (statusWord s).extractLsb' 5 3 = 0 ∧ (statusWord s).extractLsb' 16 16 = 0 ∧
    ((statusWord s).extractLsb' 8 4, (statusWord s).extractLsb' 12 4) ∈
      ([(0, 0), (1, 1), (1, 2), (1, 3), (2, 0), (3, 1), (3, 2), (4, 1), (4, 2)] : List (BitVec 4 × BitVec 4))

/-- AUTHOK cannot be forged: a step raises it only as the end of a PVER whose tags agree or of an AEAD_DEC that ends OK
(10_state.md R23, R46). -/
def Obligations.AuthokRisesOnlyByAMatch : Prop :=
  ∀ s t : State, s.authok = false → step s = .next t → t.authok = true →
    s.busy = true ∧ t.report = .ok ∧
    ((decode s.cmd = .command .pver ∧ s.tag = s.ptag) ∨ decode s.cmd = .command .aeadDec)

/-- IRQ is IE and DONE: high after the completion of any command exactly when IE is set, low after an acceptance, a clearing
of DONE or a reset (60_exceptions.md R251). -/
def Obligations.InterruptFollowsCompletion : Prop :=
  ∀ s : State,
    (irq s = true ↔ s.ie = true ∧ s.done = true) ∧
    (s.busy = true → ∃ t, engineStep s = .next t ∧ irq t = s.ie) ∧
    (∀ w, irq (s.accept w) = false) ∧
    (∀ v : Word, v.getLsbD 1 = true → irq (statusWrite s v) = false) ∧
    irq (softReset s) = false ∧ irq (powerOnReset s) = false

/-! ## The host interface (20_memory.md, 10_state.md, 70_reset_and_hazards.md) -/

/-- Responses of host accesses: SLVERR with no effect for a misaligned offset and for a partial strobe outside the DMEM window;
reserved offsets read 0 and ignore writes (20_memory.md R62, 10_state.md R47). -/
def Obligations.BadAndReservedAccessesHaveNoEffect : Prop :=
  ∀ (s : State) (off v : Word) (strb : BitVec 4),
    (off.toNat % 4 ≠ 0 →
      hostRead s off = { s with reply := some (.read .slverr 0) } ∧
      hostWrite s off v strb = { s with reply := some (.write .slverr) }) ∧
    (off.toNat % 4 = 0 → ¬DmemOffset s off.toNat → strb ≠ 0b1111#4 →
      hostWrite s off v strb = { s with reply := some (.write .slverr) }) ∧
    (off.toNat % 4 = 0 → ¬DmemOffset s off.toNat → ¬RegisterOffset off.toNat →
      hostRead s off = { s with reply := some (.read .okay 0) } ∧
      hostWrite s off v 0b1111#4 = { s with reply := some (.write .okay) })

/-- A CMD write while idle is accepted: CMD takes the word, BUSY rises, DONE, AUTHOK, ERR and CAUSE clear, and nothing else
changes (70_reset_and_hazards.md R275, 10_state.md R22). -/
def Obligations.CmdWriteIsAcceptedWhenIdle : Prop :=
  ∀ (s : State) (w : Word), s.busy = false →
    hostWrite s 0x000 w 0b1111#4 =
      { s with cmd := w, busy := true, done := false, authok := false, report := .ok, reply := some (.write .okay) } ∧
    (hostWrite s 0x000 w 0b1111#4).inFlight = some w ∧ irq (hostWrite s 0x000 w 0b1111#4) = false

/-- Commands start in no other way: BUSY rises only by an idle, full-strobe write of CMD, which holds the command in flight
(70_reset_and_hazards.md R275, 10_state.md R22, R45). -/
def Obligations.BusyRisesOnlyByACmdWrite : Prop :=
  ∀ s t : State, s.busy = false → step s = .next t → t.busy = true →
    ∃ w es, s.schedule = .write 0x000 w 0b1111#4 :: es ∧ t.cmd = w

/-- Writes while BUSY: dropped with OVR at every register but STATUS and CTRL and at every DMEM word, and ignored at a
reserved offset; idle or BUSY, a STATUS write clears DONE and OVR by ones and a CTRL write without SRST sets IE, and nothing
else changes (70_reset_and_hazards.md R277, 10_state.md R23, R24, R47). That a dropped DMEM write sets OVR for every strobe,
0b0000 too, is the model's reading, DEDUCED, log entry 20. -/
def Obligations.WritesWhileBusyAreDropped : Prop :=
  ∀ (s : State) (off v : Word),
    (s.busy = true → off.toNat % 4 = 0 → RegisterOffset off.toNat → off ≠ 0x004 → off ≠ 0x008 →
      hostWrite s off v 0b1111#4 = { s with ovr := true, reply := some (.write .okay) }) ∧
    (∀ strb, s.busy = true → off.toNat % 4 = 0 → DmemOffset s off.toNat →
      hostWrite s off v strb = { s with ovr := true, reply := some (.write .okay) }) ∧
    (s.busy = true → off.toNat % 4 = 0 → ¬RegisterOffset off.toNat → ¬DmemOffset s off.toNat →
      hostWrite s off v 0b1111#4 = { s with reply := some (.write .okay) }) ∧
    (hostWrite s 0x004 v 0b1111#4 =
      { s with done := s.done && !v.getLsbD 1, ovr := s.ovr && !v.getLsbD 2, reply := some (.write .okay) }) ∧
    (v.getLsbD 1 = false → hostWrite s 0x008 v 0b1111#4 = { s with ie := v.getLsbD 0, reply := some (.write .okay) })

/-- OVR is sticky and honest: it rises only by a write dropped while BUSY, and falls only by a STATUS write with bit 2 or a
reset (10_state.md R23, R46, 70_reset_and_hazards.md R277). -/
def Obligations.OvrMarksADroppedWrite : Prop :=
  ∀ s t : State, step s = .next t →
    (s.ovr = false → t.ovr = true → s.busy = true ∧ ∃ off v strb es, s.schedule = .write off v strb :: es ∧
      off ≠ 0x004 ∧ off ≠ 0x008 ∧ (RegisterOffset off.toNat ∨ DmemOffset s off.toNat)) ∧
    (s.ovr = true → t.ovr = false → ∃ e es, s.schedule = e :: es ∧
      (isReset e = true ∨ ∃ v : Word, e = .write 0x004 v 0b1111#4 ∧ v.getLsbD 2 = true))

/-- CTREXH falls only by a host write of CTR while idle, a ZEROIZE, or a reset (42_keystream.md R152, 10_state.md R29). -/
def Obligations.ExhaustionEndsOnlyByCtrZeroizeOrReset : Prop :=
  ∀ s t : State, s.ctrexh = true → step s = .next t → t.ctrexh = false →
    (∃ v es, s.busy = false ∧ s.schedule = .write 0x058 v 0b1111#4 :: es ∧ t.ctr = v) ∨
    (s.busy = true ∧ ∃ dm, decode s.cmd = .command (.zeroize dm)) ∨
    (∃ e es, s.schedule = e :: es ∧ isReset e = true)

/-- Reads while BUSY: STATUS, CTRL, ID, DMEMSZ and CMD give their values and KEY 0; every other register and every DMEM word
gives a draw, any value whatever; nothing else changes (70_reset_and_hazards.md R278; the draw is a free value). -/
def Obligations.ReadsWhileBusyAreDraws : Prop :=
  ∀ (s : State) (off : Word), s.busy = true → off.toNat % 4 = 0 →
    (readData s 0x000 = some (.read .okay s.cmd) ∧ readData s 0x004 = some (.read .okay (statusWord s)) ∧
      readData s 0x008 = some (.read .okay (ctrlWord s)) ∧ readData s 0x00C = some (.read .okay s.id) ∧
      readData s 0x010 = some (.read .okay s.dmemsz)) ∧
    (0x20 ≤ off.toNat ∧ off.toNat < 0x40 → readData s off = some (.read .okay 0)) ∧
    ((RegisterOffset off.toNat ∧ 0x40 ≤ off.toNat) ∨ DmemOffset s off.toNat →
      hostRead s off = { s with reply := some (.read .okay (Config.freeWord s.draws)), draws := s.draws + 1 })

/-- A host read changes nothing but the answer on the bus and the model's count of draws (20_memory.md R66; both fields are
the model's choice, log entries 7 and 8). -/
def Obligations.ReadsHaveNoSideEffect : Prop :=
  ∀ (s : State) (off : Word), ∃ r k, hostRead s off = { s with reply := some r, draws := k } ∧
    (s.busy = false → k = s.draws)

/-- While idle an RW register reads as itself and reads back what the host wrote, and the write shows at no other offset
(10_state.md R47, R21); only STATUS may differ as well, where CTR is written (R29). -/
def Obligations.RwRegistersReadBackTheWrite : Prop :=
  ∀ s : State, s.busy = false → RwRegistersRead s ∧ ∀ off v : Word, off.toNat % 4 = 0 → RwOffset off.toNat →
    readData (hostWrite s off v 0b1111#4) off = some (.read .okay v) ∧
    (∀ other : Word, other ≠ off → (off = 0x058 → other ≠ 0x004) →
      readData (hostWrite s off v 0b1111#4) other = readData s other) ∧
    (off = 0x058 → (hostWrite s off v 0b1111#4).ctrexh = false)

/-- While idle CMD, STATUS, CTRL and every RO or CONST register read as themselves, and a write of an RO or CONST register
changes nothing (10_state.md R47, R21 to R26). -/
def Obligations.RoAndConstRegistersIgnoreWrites : Prop :=
  ∀ s : State, s.busy = false → RoRegistersRead s ∧ ∀ off v : Word, off.toNat % 4 = 0 → RoOffset off.toNat →
    hostWrite s off v 0b1111#4 = { s with reply := some (.write .okay) }

/-- KEY cannot be read back: word i is written at 0x020 + 4*i and reads 0 there, and no read at any offset tells two keys
apart (10_state.md R27, R47). -/
def Obligations.KeyIsWriteOnly : Prop :=
  (∀ (s : State) (i : Fin 8) (v : Word), s.busy = false →
    hostWrite s (BitVec.ofNat 32 (0x20 + 4 * i.val)) v 0b1111#4 =
      { s with key := s.key.set i v, reply := some (.write .okay) }) ∧
  (∀ (s : State) (i : Fin 8), Reads s (0x020 + 4 * i.val) 0) ∧
  (∀ (s : State) (k : Vector Word 8) (off : Word), readData { s with key := k } off = readData s off)

/-- The DMEM window while idle: enabled lane k of a write lands in byte `off - DMEM_BASE + k`, other bytes and all registers
keep their values, and a read gives the little-endian word (20_memory.md R62, R63). -/
def Obligations.DmemWindowIsLittleEndianBytes : Prop :=
  ∀ (s : State) (a : Nat) (off v : Word) (strb : BitVec 4), s.busy = false → s.dmem.wf → off.toNat = 0x10000 + a →
    a % 4 = 0 → a < s.dmemBytes →
    ∃ m, hostWrite s off v strb = { s with dmem := m, reply := some (.write .okay) } ∧
      (∀ k, k < 4 → m.read (a + k) = if strb.getLsbD k = true then v.extractLsb' (8 * k) 8 else s.dmem.read (a + k)) ∧
      (∀ b, b < a ∨ a + 4 ≤ b → m.read b = s.dmem.read b) ∧
      readData s off = some (.read .okay (le32 [s.dmem.read a, s.dmem.read (a + 1), s.dmem.read (a + 2), s.dmem.read (a + 3)])) ∧
      (strb = 0b1111#4 → readData (hostWrite s off v strb) off = some (.read .okay v))

/-! ## Reset (70_reset_and_hazards.md) -/

/-- After a power-on reset and after a soft reset, idle or BUSY, every register holds its reset value, the engine is idle and
IRQ is low; so it is at `State.reset` (70_reset_and_hazards.md R271). -/
def Obligations.ResetSetsEveryRegister : Prop :=
  RegistersReset State.reset Config.coreId State.reset.dmemsz ∧
  ∀ s : State, RegistersReset (softReset s) s.id s.dmemsz ∧ RegistersReset (powerOnReset s) s.id s.dmemsz ∧
    (∀ v : Word, v.getLsbD 1 = true →
      RegistersReset (hostWrite s 0x008 v 0b1111#4) s.id s.dmemsz ∧
      (hostWrite s 0x008 v 0b1111#4).reply = some (.write .okay))

/-- DMEM at reset: a soft reset while idle keeps every byte, a power-on reset makes every byte a draw (70_reset_and_hazards.md
R272; the draw is a free value). -/
def Obligations.ResetKeepsOrDrawsDmem : Prop :=
  ∀ s : State, (s.busy = false → KeepsDmem s (softReset s)) ∧
    (∀ a, (powerOnReset s).dmem.read a = Config.freeByte s.draws a) ∧ (powerOnReset s).draws = s.draws + 1 ∧
    (∀ a, State.reset.dmem.read a = Config.freeByte 0 a)

/-- A soft reset while BUSY aborts the command: the registers are reset, and every DMEM byte is, as a draw decides, its value at
acceptance or the value the completed command would have left; so an abort writes no byte the command would not write,
and a ciphertext that fails authentication releases nothing (70_reset_and_hazards.md R273; the draw is a free value; that a
command that would fail writes nothing is DEDUCED, log entry 11). -/
def Obligations.AbortLeavesEachByteOldOrNew : Prop :=
  ∀ (s : State) (v : Word), s.busy = true → s.dmem.wf → v.getLsbD 1 = true →
    ∃ u, engineStep s = .next u ∧
      (∀ a, (hostWrite s 0x008 v 0b1111#4).dmem.read a =
        if Config.freeBit s.draws a = true then u.dmem.read a else s.dmem.read a) ∧
      (hostWrite s 0x008 v 0b1111#4).done = false ∧ (hostWrite s 0x008 v 0b1111#4).ovr = false ∧
      RegistersReset (hostWrite s 0x008 v 0b1111#4) s.id s.dmemsz ∧
      (hostWrite s 0x008 v 0b1111#4).reply = some (.write .okay)
end

