-- ==== Sys2Proof/Laws/Bytes.lean ====
section
/-!
SUPPORT. The lemmas of the byte-string and word notation: lengths, and that the little-endian conversions and the packing
of numbers into register arrays invert each other.
-/

namespace Sys2Proof.Machine

@[simp] theorem length_leBytes (v n : Nat) : (leBytes v n).length = n := by
  induction n generalizing v with
  | zero => rfl
  | succ n ih => simp [leBytes, ih]

@[simp] theorem length_le64 (n : Nat) : (le64 n).length = 8 := length_leBytes n 8

@[simp] theorem length_zeros (n : Nat) : (zeros n).length = n := by simp [zeros]

@[simp] theorem length_bytesLe (ws : List Word) : (bytesLe ws).length = 4 * ws.length := by
  induction ws with
  | nil => rfl
  | cons w ws ih =>
    have h : (bytesLe (w :: ws)).length = 4 + (bytesLe ws).length := by simp [bytesLe]
    rw [h, ih, List.length_cons]
    omega

@[simp] theorem length_xorBytes (p q : List Byte) : (xorBytes p q).length = min p.length q.length := by
  simp [xorBytes]

/-- A padded string has a length that is a multiple of 16 (00_scope.md R11). -/
theorem length_pad16_mod (x : List Byte) : (pad16 x).length % 16 = 0 := by
  simp only [pad16, List.length_append, length_zeros]
  omega

/-- `le_int(le_bytes(v, n)) = v mod 2^(8*n)` (00_scope.md R10). -/
theorem leInt_leBytes (v n : Nat) : leInt (leBytes v n) = v % 2 ^ (8 * n) := by
  induction n generalizing v with
  | zero => simp [leBytes, leInt, Nat.mod_one]
  | succ n ih =>
    have h : 2 ^ (8 * (n + 1)) = 256 * 2 ^ (8 * n) := by rw [Nat.mul_add, Nat.pow_add]; omega
    simp only [leBytes, leInt, ih, BitVec.toNat_ofNat, h, Nat.mod_mul]

/-- A byte string holds a number below 2^(8*len). -/
theorem leInt_lt (b : List Byte) : leInt b < 2 ^ (8 * b.length) := by
  induction b with
  | nil => simp [leInt]
  | cons x b ih =>
    have h : 2 ^ (8 * (b.length + 1)) = 256 * 2 ^ (8 * b.length) := by rw [Nat.mul_add, Nat.pow_add]; omega
    have hx := x.isLt
    simp only [leInt, List.length_cons, h]
    omega

/-- `le_bytes(le_int(b), len(b)) = b` (00_scope.md R10). -/
theorem leBytes_leInt (b : List Byte) : leBytes (leInt b) b.length = b := by
  induction b with
  | nil => rfl
  | cons x b ih =>
    have hx := x.isLt
    have h1 : BitVec.ofNat 8 (leInt (x :: b)) = x := by
      apply BitVec.eq_of_toNat_eq
      simp only [BitVec.toNat_ofNat, leInt]
      omega
    have h2 : leInt (x :: b) / 256 = leInt b := by
      simp only [leInt]
      omega
    simp only [List.length_cons, leBytes, h1, h2, ih]

/-- The number of the words of an array built by position. -/
theorem numOf_ofFn (n v : Nat) :
    numOf (List.ofFn (fun i : Fin n => (BitVec.ofNat 32 (v / 2 ^ (32 * i.val)) : Word))) = v % 2 ^ (32 * n) := by
  induction n generalizing v with
  | zero => simp [numOf, Nat.mod_one]
  | succ n ih =>
    have hs (i : Fin n) : v / 2 ^ (32 * (i.val + 1)) = v / 2 ^ 32 / 2 ^ (32 * i.val) := by
      rw [Nat.div_div_eq_div_mul, ← Nat.pow_add, Nat.mul_add, Nat.add_comm]
    rw [List.ofFn_succ, numOf]
    simp only [Fin.val_zero, Fin.val_succ, hs]
    rw [ih, Nat.mul_add, Nat.add_comm (32 * n), Nat.pow_add, Nat.mod_mul]
    simp

/-- A number survives its packing into n words, modulo 2^(32*n) (10_state.md R34 to R36). -/
@[simp] theorem numOf_limbs (n v : Nat) : numOf (limbs n v).toList = v % 2 ^ (32 * n) := by
  rw [limbs, Vector.toList_ofFn, numOf_ofFn]

/-- A tag has 16 bytes (43_poly1305.md R174). -/
@[simp] theorem length_poly1305 (k m : List Byte) : (poly1305 k m).length = 16 := by simp [poly1305]

theorem length_flatMap_blocks (k : Vector Word 8) (n : Vector Word 3) (c0 : Nat) (js : List Nat) :
    (js.flatMap (fun j => bytesLe (chachaBlock k (BitVec.ofNat 32 (c0 + j)) n).toList)).length = 64 * js.length := by
  induction js with
  | nil => rfl
  | cons j js ih =>
    simp only [List.flatMap_cons, List.length_append, ih, length_bytesLe, Vector.length_toList, List.length_cons]
    omega

/-- KSTREAM returns m bytes (42_keystream.md R153). -/
@[simp] theorem length_kstream (k : Vector Word 8) (n : Vector Word 3) (c0 m : Nat) :
    (kstream k n c0 m).length = m := by
  simp only [kstream, List.length_take, length_flatMap_blocks, List.length_range, ceilDiv]
  omega

end Sys2Proof.Machine
end

