-- ==== Sys2Proof/Laws/Memory.lean ====
section
/-!
SUPPORT. The laws of DMEM: a read after a write, that every operation keeps the canonical form `Memory.wf`, and that nothing
is listed past DMEM.
-/

namespace Sys2Proof.Machine

abbrev cellsRising (cs : List Host.Cell) : Prop := cs.Pairwise (fun c d => c.1 < d.1)

/-! ## Cells -/

theorem cellAt_cellPut (cs : List Host.Cell) (a x : Nat) (b : Byte) :
    cellAt (cellPut cs a b) x = if a = x then some b else cellAt cs x := by
  induction cs with
  | nil => simp [cellPut, cellAt]
  | cons c cs ih =>
    obtain ⟨y, v⟩ := c
    simp only [cellPut]
    split
    · simp [cellAt]
    · split
      · rename_i h
        subst h
        simp only [cellAt]
        split <;> simp_all
      · simp only [cellAt, ih]
        split <;> split <;> simp_all

theorem cellAt_none_of_gt (cs : List Host.Cell) (a : Nat) (h : ∀ c ∈ cs, a < c.1) : cellAt cs a = none := by
  induction cs with
  | nil => rfl
  | cons c cs ih =>
    have h1 := h c (by simp)
    have h2 := ih (fun d hd => h d (by simp [hd]))
    simp [cellAt, h2, Nat.ne_of_gt h1]

theorem cellAt_cellDrop (cs : List Host.Cell) (hs : cellsRising cs) (a x : Nat) :
    cellAt (cellDrop cs a) x = if a = x then none else cellAt cs x := by
  induction cs with
  | nil => simp [cellDrop, cellAt]
  | cons c cs ih =>
    obtain ⟨y, v⟩ := c
    have hr := (List.pairwise_cons.mp hs).1
    have ih := ih (List.pairwise_cons.mp hs).2
    simp only [cellDrop]
    split
    · rename_i h
      subst h
      split
      · rename_i h
        subst h
        exact cellAt_none_of_gt cs y hr
      · rename_i h
        simp [cellAt, h]
    · simp only [cellAt, ih]
      split <;> split <;> simp_all

theorem mem_cellPut (cs : List Host.Cell) (a : Nat) (b : Byte) (c : Host.Cell) (h : c ∈ cellPut cs a b) :
    c = (a, b) ∨ c ∈ cs := by
  induction cs with
  | nil => simpa [cellPut] using h
  | cons d cs ih =>
    obtain ⟨y, v⟩ := d
    simp only [cellPut] at h
    split at h
    · simpa using h
    · split at h
      · simp only [List.mem_cons] at h ⊢
        tauto
      · simp only [List.mem_cons] at h ⊢
        rcases h with h | h
        · tauto
        · rcases ih h with h | h <;> tauto

theorem mem_cellDrop (cs : List Host.Cell) (a : Nat) (c : Host.Cell) (h : c ∈ cellDrop cs a) : c ∈ cs := by
  induction cs with
  | nil => simp [cellDrop] at h
  | cons d cs ih =>
    obtain ⟨y, v⟩ := d
    simp only [cellDrop] at h
    split at h
    · simp [h]
    · simp only [List.mem_cons] at h ⊢
      exact h.imp id ih

theorem cellPut_rising (cs : List Host.Cell) (hs : cellsRising cs) (a : Nat) (b : Byte) :
    cellsRising (cellPut cs a b) := by
  induction cs with
  | nil => simp [cellPut]
  | cons d cs ih =>
    obtain ⟨y, v⟩ := d
    obtain ⟨hr, ht⟩ := List.pairwise_cons.mp hs
    simp only [cellPut]
    split
    · rename_i h
      refine List.pairwise_cons.mpr ⟨fun c hc => ?_, hs⟩
      rcases List.mem_cons.mp hc with rfl | hc
      · exact h
      · exact Nat.lt_trans h (hr c hc)
    · split
      · rename_i h
        subst h
        exact List.pairwise_cons.mpr ⟨hr, ht⟩
      · refine List.pairwise_cons.mpr ⟨fun c hc => ?_, ih ht⟩
        rcases mem_cellPut cs a b c hc with rfl | hc
        · simp only
          omega
        · exact hr c hc

theorem cellDrop_rising (cs : List Host.Cell) (hs : cellsRising cs) (a : Nat) : cellsRising (cellDrop cs a) := by
  induction cs with
  | nil => simp [cellDrop]
  | cons d cs ih =>
    obtain ⟨y, v⟩ := d
    obtain ⟨hr, ht⟩ := List.pairwise_cons.mp hs
    simp only [cellDrop]
    split
    · exact ht
    · exact List.pairwise_cons.mpr ⟨fun c hc => hr c (mem_cellDrop cs a c hc), ih ht⟩

/-! ## Bytes -/

/-- A read after a write of one byte (20_memory.md R60). -/
theorem Memory.read_write (m : Memory) (hm : m.wf) (a x : Nat) (b : Byte) :
    (m.write a b).read x = if a = x then b else m.read x := by
  unfold Memory.write Memory.read
  split
  · rename_i h
    have hz : m.fill.byte x = b := by
      cases hf : m.fill <;> simp_all [Fill.known, Fill.byte]
    simp only [cellAt_cellDrop m.cells hm.1]
    split <;> simp [hz]
  · simp only [cellAt_cellPut]
    split <;> simp

@[simp] theorem Memory.write_fill (m : Memory) (a : Nat) (b : Byte) : (m.write a b).fill = m.fill := by
  unfold Memory.write
  split <;> rfl

/-- A write keeps the canonical form. -/
theorem Memory.write_wf (m : Memory) (hm : m.wf) (a : Nat) (b : Byte) : (m.write a b).wf := by
  obtain ⟨hr, hk⟩ := hm
  unfold Memory.write
  split
  · exact ⟨cellDrop_rising m.cells hr a, fun c hc => hk c (mem_cellDrop m.cells a c hc)⟩
  · rename_i h
    refine ⟨cellPut_rising m.cells hr a b, fun c hc => ?_⟩
    rcases mem_cellPut m.cells a b c hc with rfl | hc
    · exact h
    · exact hk c hc

theorem Memory.write_within (m : Memory) (d a : Nat) (b : Byte) (hm : m.within d) (ha : a < d) :
    (m.write a b).within d := by
  unfold Memory.write
  split
  · exact fun c hc => hm c (mem_cellDrop m.cells a c hc)
  · intro c hc
    rcases mem_cellPut m.cells a b c hc with rfl | hc
    · exact ha
    · exact hm c hc

/-! ## Byte strings -/

/-- A byte-string write keeps the canonical form. -/
theorem Memory.writeBytes_wf (b : List Byte) (m : Memory) (hm : m.wf) (off : Nat) : (m.writeBytes off b).wf := by
  induction b generalizing m off with
  | nil => exact hm
  | cons x b ih => exact ih _ (m.write_wf hm off x) (off + 1)

theorem Memory.writeBytes_within (b : List Byte) (m : Memory) (d off : Nat) (hm : m.within d) (h : off + b.length ≤ d) :
    (m.writeBytes off b).within d := by
  induction b generalizing m off with
  | nil => exact hm
  | cons x b ih =>
    simp only [List.length_cons] at h
    exact ih _ _ (m.write_within d off x hm (by omega)) (by omega)

/-- A read after a byte-string write: the string's byte inside its range, the old byte outside. -/
theorem Memory.read_writeBytes (b : List Byte) (m : Memory) (hm : m.wf) (off x : Nat) :
    (m.writeBytes off b).read x = if off ≤ x ∧ x < off + b.length then b.getD (x - off) 0 else m.read x := by
  induction b generalizing m off with
  | nil => simp [Memory.writeBytes]
  | cons y b ih =>
    simp only [Memory.writeBytes, ih _ (m.write_wf hm off y) (off + 1), m.read_write hm, List.length_cons]
    by_cases h : off = x
    · subst h
      simp
    · by_cases h1 : off ≤ x ∧ x < off + (b.length + 1)
      · have h2 : off + 1 ≤ x ∧ x < off + 1 + b.length := by omega
        have h3 : x - off = x - (off + 1) + 1 := by omega
        rw [if_pos h1, if_pos h2, h3, List.getD_cons_succ]
      · have h2 : ¬(off + 1 ≤ x ∧ x < off + 1 + b.length) := by omega
        rw [if_neg h1, if_neg h2, if_neg h]

@[simp] theorem Memory.length_readBytes (m : Memory) (off n : Nat) : (m.readBytes off n).length = n := by
  simp [Memory.readBytes]

/-- Byte i of a byte-string read is the byte of DMEM at off + i. -/
theorem Memory.getD_readBytes (m : Memory) (off n i : Nat) (h : i < n) : (m.readBytes off n).getD i 0 = m.read (off + i) := by
  simp [Memory.readBytes, h]

/-- A byte-string read right after its write gives the string. -/
theorem Memory.readBytes_writeBytes (b : List Byte) (m : Memory) (hm : m.wf) (off : Nat) :
    (m.writeBytes off b).readBytes off b.length = b := by
  apply List.ext_getElem
  · simp
  · intro i h1 h2
    simp [Memory.readBytes, Memory.read_writeBytes b m hm, h2]

/-- The host's lane writes keep the canonical form (20_memory.md R62). -/
theorem writeLanes_wf (m : Memory) (hm : m.wf) (a : Nat) (v : Word) (strb : BitVec 4) : (writeLanes m a v strb).wf := by
  simp only [writeLanes, List.range, List.range.loop, List.foldl_cons, List.foldl_nil]
  have step (m : Memory) (hm : m.wf) (c : Bool) (x : Nat) (b : Byte) : (if c = true then m.write x b else m).wf := by
    split
    · exact m.write_wf hm x b
    · exact hm
  exact step _ (step _ (step _ (step m hm _ _ _) _ _ _) _ _ _) _ _ _

theorem writeLanes_within (m : Memory) (d : Nat) (hm : m.within d) (a : Nat) (h : a + 3 < d) (v : Word) (strb : BitVec 4) :
    (writeLanes m a v strb).within d := by
  simp only [writeLanes, List.range, List.range.loop, List.foldl_cons, List.foldl_nil]
  have step (m : Memory) (hm : m.within d) (c : Bool) (x : Nat) (hx : x < d) (b : Byte) :
      (if c = true then m.write x b else m).within d := by
    split
    · exact m.write_within d x b hm hx
    · exact hm
  exact step _ (step _ (step _ (step m hm _ _ (by omega) _) _ _ (by omega) _) _ _ (by omega) _) _ _ (by omega) _

/-! ## Aborts (70_reset_and_hazards.md R273) -/

theorem Memory.abortWrite_wf (m : Memory) (hm : m.wf) (k off : Nat) (new : List Byte) : (m.abortWrite k off new).wf :=
  Memory.writeBytes_wf _ m hm off

theorem Memory.abortWrite_within (m : Memory) (d : Nat) (hm : m.within d) (k off : Nat) (new : List Byte)
    (h : off + new.length ≤ d) : (m.abortWrite k off new).within d :=
  Memory.writeBytes_within _ m d off hm (by simpa using h)

/-- An aborted write leaves each byte of its range old or new, as the draw says, and every other byte alone. -/
theorem Memory.read_abortWrite (m : Memory) (hm : m.wf) (k off x : Nat) (new : List Byte) :
    (m.abortWrite k off new).read x =
      if off ≤ x ∧ x < off + new.length then oldOrNew k x (m.read x) (new.getD (x - off) 0) else m.read x := by
  unfold Memory.abortWrite
  rw [Memory.read_writeBytes _ m hm]
  simp only [List.length_map, List.length_range]
  by_cases h : off ≤ x ∧ x < off + new.length
  · have h1 : off + (x - off) = x := by omega
    have h2 : x - off < new.length := by omega
    simp [h, h1, h2]
  · simp [h]

@[simp] theorem Fill.abortZero_known (k : Nat) (f : Fill) : (f.abortZero k).known = f.known := by
  cases f <;> rfl

@[simp] theorem Fill.abortZero_byte (k : Nat) (f : Fill) (a : Nat) : (f.abortZero k).byte a = oldOrNew k a (f.byte a) 0 := by
  cases f <;> simp [Fill.abortZero, Fill.byte, oldOrNew]

theorem cellsAbortZero_rising (k : Nat) (o : Option Byte) (cs : List Host.Cell) (h : cellsRising cs) :
    cellsRising (cellsAbortZero k o cs) := by
  unfold cellsAbortZero
  apply List.Pairwise.filter
  rw [List.pairwise_map]
  exact h

theorem Memory.abortZero_wf (m : Memory) (hm : m.wf) (k : Nat) : (m.abortZero k).wf := by
  refine ⟨cellsAbortZero_rising k _ _ hm.1, fun c hc => ?_⟩
  have hc : c ∈ cellsAbortZero k m.fill.known m.cells := hc
  simp only [cellsAbortZero, List.mem_filter, decide_eq_true_eq] at hc
  simpa [Memory.abortZero] using hc.2

theorem Memory.abortZero_within (m : Memory) (d k : Nat) (hm : m.within d) : (m.abortZero k).within d := by
  intro c hc
  have hc : c ∈ cellsAbortZero k m.fill.known m.cells := hc
  simp only [cellsAbortZero, List.mem_filter, List.mem_map] at hc
  obtain ⟨⟨e, he, rfl⟩, _⟩ := hc
  exact hm e he

theorem cellAt_cellsAbortZero (k : Nat) (o : Option Byte) (cs : List Host.Cell) (hs : cellsRising cs) (x : Nat) :
    cellAt (cellsAbortZero k o cs) x =
      (cellAt cs x).bind (fun b => if o = some (oldOrNew k x b 0) then none else some (oldOrNew k x b 0)) := by
  induction cs with
  | nil => rfl
  | cons c cs ih =>
    obtain ⟨y, v⟩ := c
    have ih := ih (List.pairwise_cons.mp hs).2
    have hr := (List.pairwise_cons.mp hs).1
    simp only [cellsAbortZero, List.map_cons, List.filter_cons] at ih ⊢
    by_cases hyx : y = x
    · subst hyx
      have hn : cellAt cs y = none := cellAt_none_of_gt cs y hr
      simp only [cellAt, if_true, Option.bind_some]
      split
      · rename_i h
        have h : o ≠ some (oldOrNew k y v 0) := by simpa using h
        simp only [cellAt, if_true, if_neg h]
      · rename_i h
        have h : o = some (oldOrNew k y v 0) := by simpa using h
        rw [ih, hn]
        simp [h]
    · simp only [cellAt, if_neg hyx]
      split
      · simp only [cellAt, if_neg hyx, ih]
      · exact ih

/-- An aborted `zeroize dmem` leaves every byte old or 0, as the draw says (70_reset_and_hazards.md R273(c)). -/
theorem Memory.read_abortZero (m : Memory) (hm : m.wf) (k x : Nat) :
    (m.abortZero k).read x = oldOrNew k x (m.read x) 0 := by
  unfold Memory.abortZero Memory.read
  simp only [cellAt_cellsAbortZero k _ _ hm.1, Fill.abortZero_byte]
  cases h : cellAt m.cells x with
  | none => simp
  | some b =>
    simp only [Option.bind_some, Option.getD_some]
    split
    · rename_i hk
      have hz : m.fill = .zero := by
        cases hf : m.fill <;> simp_all [Fill.known]
      rw [hz] at hk ⊢
      simp only [Fill.known, Option.some.injEq] at hk
      rw [← hk]
      simp [Fill.byte, oldOrNew]
    · rfl

/-- DMEM at reset is in canonical form. -/
theorem reset_dmem_wf : State.reset.dmem.wf := ⟨List.Pairwise.nil, by simp [State.reset]⟩

end Sys2Proof.Machine
end

