-- ==== Sys2Proof/Laws/State.lean ====
section
/-!
SUPPORT. What each named update of Machine/Ops.lean does to each field of State: one lemma per field per update, true by
rfl, so that no later proof unfolds a record update.
-/

namespace Sys2Proof.Machine

variable (st : State)

/-! ### `State.setAuthok` -/

@[simp] theorem State.setAuthok_cmd (b : Bool) : (st.setAuthok b).cmd = st.cmd := rfl
@[simp] theorem State.setAuthok_busy (b : Bool) : (st.setAuthok b).busy = st.busy := rfl
@[simp] theorem State.setAuthok_done (b : Bool) : (st.setAuthok b).done = st.done := rfl
@[simp] theorem State.setAuthok_ovr (b : Bool) : (st.setAuthok b).ovr = st.ovr := rfl
@[simp] theorem State.setAuthok_ctrexh (b : Bool) : (st.setAuthok b).ctrexh = st.ctrexh := rfl
@[simp] theorem State.setAuthok_authok (b : Bool) : (st.setAuthok b).authok = b := rfl
@[simp] theorem State.setAuthok_report (b : Bool) : (st.setAuthok b).report = st.report := rfl
@[simp] theorem State.setAuthok_ie (b : Bool) : (st.setAuthok b).ie = st.ie := rfl
@[simp] theorem State.setAuthok_id (b : Bool) : (st.setAuthok b).id = st.id := rfl
@[simp] theorem State.setAuthok_dmemsz (b : Bool) : (st.setAuthok b).dmemsz = st.dmemsz := rfl
@[simp] theorem State.setAuthok_key (b : Bool) : (st.setAuthok b).key = st.key := rfl
@[simp] theorem State.setAuthok_nonce (b : Bool) : (st.setAuthok b).nonce = st.nonce := rfl
@[simp] theorem State.setAuthok_ctr (b : Bool) : (st.setAuthok b).ctr = st.ctr := rfl
@[simp] theorem State.setAuthok_subkey (b : Bool) : (st.setAuthok b).subkey = st.subkey := rfl
@[simp] theorem State.setAuthok_s (b : Bool) : (st.setAuthok b).s = st.s := rfl
@[simp] theorem State.setAuthok_ks (b : Bool) : (st.setAuthok b).ks = st.ks := rfl
@[simp] theorem State.setAuthok_pkey (b : Bool) : (st.setAuthok b).pkey = st.pkey := rfl
@[simp] theorem State.setAuthok_pr (b : Bool) : (st.setAuthok b).pr = st.pr := rfl
@[simp] theorem State.setAuthok_ps (b : Bool) : (st.setAuthok b).ps = st.ps := rfl
@[simp] theorem State.setAuthok_ph (b : Bool) : (st.setAuthok b).ph = st.ph := rfl
@[simp] theorem State.setAuthok_pblk (b : Bool) : (st.setAuthok b).pblk = st.pblk := rfl
@[simp] theorem State.setAuthok_tag (b : Bool) : (st.setAuthok b).tag = st.tag := rfl
@[simp] theorem State.setAuthok_ptag (b : Bool) : (st.setAuthok b).ptag = st.ptag := rfl
@[simp] theorem State.setAuthok_aadPtr (b : Bool) : (st.setAuthok b).aadPtr = st.aadPtr := rfl
@[simp] theorem State.setAuthok_aadLen (b : Bool) : (st.setAuthok b).aadLen = st.aadLen := rfl
@[simp] theorem State.setAuthok_srcPtr (b : Bool) : (st.setAuthok b).srcPtr = st.srcPtr := rfl
@[simp] theorem State.setAuthok_srcLen (b : Bool) : (st.setAuthok b).srcLen = st.srcLen := rfl
@[simp] theorem State.setAuthok_dstPtr (b : Bool) : (st.setAuthok b).dstPtr = st.dstPtr := rfl
@[simp] theorem State.setAuthok_outLen (b : Bool) : (st.setAuthok b).outLen = st.outLen := rfl
@[simp] theorem State.setAuthok_dmem (b : Bool) : (st.setAuthok b).dmem = st.dmem := rfl
@[simp] theorem State.setAuthok_schedule (b : Bool) : (st.setAuthok b).schedule = st.schedule := rfl
@[simp] theorem State.setAuthok_draws (b : Bool) : (st.setAuthok b).draws = st.draws := rfl
@[simp] theorem State.setAuthok_reply (b : Bool) : (st.setAuthok b).reply = st.reply := rfl

/-! ### `State.setS` -/

@[simp] theorem State.setS_cmd (v : Vector Word 16) : (st.setS v).cmd = st.cmd := rfl
@[simp] theorem State.setS_busy (v : Vector Word 16) : (st.setS v).busy = st.busy := rfl
@[simp] theorem State.setS_done (v : Vector Word 16) : (st.setS v).done = st.done := rfl
@[simp] theorem State.setS_ovr (v : Vector Word 16) : (st.setS v).ovr = st.ovr := rfl
@[simp] theorem State.setS_ctrexh (v : Vector Word 16) : (st.setS v).ctrexh = st.ctrexh := rfl
@[simp] theorem State.setS_authok (v : Vector Word 16) : (st.setS v).authok = st.authok := rfl
@[simp] theorem State.setS_report (v : Vector Word 16) : (st.setS v).report = st.report := rfl
@[simp] theorem State.setS_ie (v : Vector Word 16) : (st.setS v).ie = st.ie := rfl
@[simp] theorem State.setS_id (v : Vector Word 16) : (st.setS v).id = st.id := rfl
@[simp] theorem State.setS_dmemsz (v : Vector Word 16) : (st.setS v).dmemsz = st.dmemsz := rfl
@[simp] theorem State.setS_key (v : Vector Word 16) : (st.setS v).key = st.key := rfl
@[simp] theorem State.setS_nonce (v : Vector Word 16) : (st.setS v).nonce = st.nonce := rfl
@[simp] theorem State.setS_ctr (v : Vector Word 16) : (st.setS v).ctr = st.ctr := rfl
@[simp] theorem State.setS_subkey (v : Vector Word 16) : (st.setS v).subkey = st.subkey := rfl
@[simp] theorem State.setS_s (v : Vector Word 16) : (st.setS v).s = v := rfl
@[simp] theorem State.setS_ks (v : Vector Word 16) : (st.setS v).ks = st.ks := rfl
@[simp] theorem State.setS_pkey (v : Vector Word 16) : (st.setS v).pkey = st.pkey := rfl
@[simp] theorem State.setS_pr (v : Vector Word 16) : (st.setS v).pr = st.pr := rfl
@[simp] theorem State.setS_ps (v : Vector Word 16) : (st.setS v).ps = st.ps := rfl
@[simp] theorem State.setS_ph (v : Vector Word 16) : (st.setS v).ph = st.ph := rfl
@[simp] theorem State.setS_pblk (v : Vector Word 16) : (st.setS v).pblk = st.pblk := rfl
@[simp] theorem State.setS_tag (v : Vector Word 16) : (st.setS v).tag = st.tag := rfl
@[simp] theorem State.setS_ptag (v : Vector Word 16) : (st.setS v).ptag = st.ptag := rfl
@[simp] theorem State.setS_aadPtr (v : Vector Word 16) : (st.setS v).aadPtr = st.aadPtr := rfl
@[simp] theorem State.setS_aadLen (v : Vector Word 16) : (st.setS v).aadLen = st.aadLen := rfl
@[simp] theorem State.setS_srcPtr (v : Vector Word 16) : (st.setS v).srcPtr = st.srcPtr := rfl
@[simp] theorem State.setS_srcLen (v : Vector Word 16) : (st.setS v).srcLen = st.srcLen := rfl
@[simp] theorem State.setS_dstPtr (v : Vector Word 16) : (st.setS v).dstPtr = st.dstPtr := rfl
@[simp] theorem State.setS_outLen (v : Vector Word 16) : (st.setS v).outLen = st.outLen := rfl
@[simp] theorem State.setS_dmem (v : Vector Word 16) : (st.setS v).dmem = st.dmem := rfl
@[simp] theorem State.setS_schedule (v : Vector Word 16) : (st.setS v).schedule = st.schedule := rfl
@[simp] theorem State.setS_draws (v : Vector Word 16) : (st.setS v).draws = st.draws := rfl
@[simp] theorem State.setS_reply (v : Vector Word 16) : (st.setS v).reply = st.reply := rfl

/-! ### `State.setKs` -/

@[simp] theorem State.setKs_cmd (v : Vector Word 16) : (st.setKs v).cmd = st.cmd := rfl
@[simp] theorem State.setKs_busy (v : Vector Word 16) : (st.setKs v).busy = st.busy := rfl
@[simp] theorem State.setKs_done (v : Vector Word 16) : (st.setKs v).done = st.done := rfl
@[simp] theorem State.setKs_ovr (v : Vector Word 16) : (st.setKs v).ovr = st.ovr := rfl
@[simp] theorem State.setKs_ctrexh (v : Vector Word 16) : (st.setKs v).ctrexh = st.ctrexh := rfl
@[simp] theorem State.setKs_authok (v : Vector Word 16) : (st.setKs v).authok = st.authok := rfl
@[simp] theorem State.setKs_report (v : Vector Word 16) : (st.setKs v).report = st.report := rfl
@[simp] theorem State.setKs_ie (v : Vector Word 16) : (st.setKs v).ie = st.ie := rfl
@[simp] theorem State.setKs_id (v : Vector Word 16) : (st.setKs v).id = st.id := rfl
@[simp] theorem State.setKs_dmemsz (v : Vector Word 16) : (st.setKs v).dmemsz = st.dmemsz := rfl
@[simp] theorem State.setKs_key (v : Vector Word 16) : (st.setKs v).key = st.key := rfl
@[simp] theorem State.setKs_nonce (v : Vector Word 16) : (st.setKs v).nonce = st.nonce := rfl
@[simp] theorem State.setKs_ctr (v : Vector Word 16) : (st.setKs v).ctr = st.ctr := rfl
@[simp] theorem State.setKs_subkey (v : Vector Word 16) : (st.setKs v).subkey = st.subkey := rfl
@[simp] theorem State.setKs_s (v : Vector Word 16) : (st.setKs v).s = st.s := rfl
@[simp] theorem State.setKs_ks (v : Vector Word 16) : (st.setKs v).ks = v := rfl
@[simp] theorem State.setKs_pkey (v : Vector Word 16) : (st.setKs v).pkey = st.pkey := rfl
@[simp] theorem State.setKs_pr (v : Vector Word 16) : (st.setKs v).pr = st.pr := rfl
@[simp] theorem State.setKs_ps (v : Vector Word 16) : (st.setKs v).ps = st.ps := rfl
@[simp] theorem State.setKs_ph (v : Vector Word 16) : (st.setKs v).ph = st.ph := rfl
@[simp] theorem State.setKs_pblk (v : Vector Word 16) : (st.setKs v).pblk = st.pblk := rfl
@[simp] theorem State.setKs_tag (v : Vector Word 16) : (st.setKs v).tag = st.tag := rfl
@[simp] theorem State.setKs_ptag (v : Vector Word 16) : (st.setKs v).ptag = st.ptag := rfl
@[simp] theorem State.setKs_aadPtr (v : Vector Word 16) : (st.setKs v).aadPtr = st.aadPtr := rfl
@[simp] theorem State.setKs_aadLen (v : Vector Word 16) : (st.setKs v).aadLen = st.aadLen := rfl
@[simp] theorem State.setKs_srcPtr (v : Vector Word 16) : (st.setKs v).srcPtr = st.srcPtr := rfl
@[simp] theorem State.setKs_srcLen (v : Vector Word 16) : (st.setKs v).srcLen = st.srcLen := rfl
@[simp] theorem State.setKs_dstPtr (v : Vector Word 16) : (st.setKs v).dstPtr = st.dstPtr := rfl
@[simp] theorem State.setKs_outLen (v : Vector Word 16) : (st.setKs v).outLen = st.outLen := rfl
@[simp] theorem State.setKs_dmem (v : Vector Word 16) : (st.setKs v).dmem = st.dmem := rfl
@[simp] theorem State.setKs_schedule (v : Vector Word 16) : (st.setKs v).schedule = st.schedule := rfl
@[simp] theorem State.setKs_draws (v : Vector Word 16) : (st.setKs v).draws = st.draws := rfl
@[simp] theorem State.setKs_reply (v : Vector Word 16) : (st.setKs v).reply = st.reply := rfl

/-! ### `State.setSubkey` -/

@[simp] theorem State.setSubkey_cmd (v : Vector Word 8) : (st.setSubkey v).cmd = st.cmd := rfl
@[simp] theorem State.setSubkey_busy (v : Vector Word 8) : (st.setSubkey v).busy = st.busy := rfl
@[simp] theorem State.setSubkey_done (v : Vector Word 8) : (st.setSubkey v).done = st.done := rfl
@[simp] theorem State.setSubkey_ovr (v : Vector Word 8) : (st.setSubkey v).ovr = st.ovr := rfl
@[simp] theorem State.setSubkey_ctrexh (v : Vector Word 8) : (st.setSubkey v).ctrexh = st.ctrexh := rfl
@[simp] theorem State.setSubkey_authok (v : Vector Word 8) : (st.setSubkey v).authok = st.authok := rfl
@[simp] theorem State.setSubkey_report (v : Vector Word 8) : (st.setSubkey v).report = st.report := rfl
@[simp] theorem State.setSubkey_ie (v : Vector Word 8) : (st.setSubkey v).ie = st.ie := rfl
@[simp] theorem State.setSubkey_id (v : Vector Word 8) : (st.setSubkey v).id = st.id := rfl
@[simp] theorem State.setSubkey_dmemsz (v : Vector Word 8) : (st.setSubkey v).dmemsz = st.dmemsz := rfl
@[simp] theorem State.setSubkey_key (v : Vector Word 8) : (st.setSubkey v).key = st.key := rfl
@[simp] theorem State.setSubkey_nonce (v : Vector Word 8) : (st.setSubkey v).nonce = st.nonce := rfl
@[simp] theorem State.setSubkey_ctr (v : Vector Word 8) : (st.setSubkey v).ctr = st.ctr := rfl
@[simp] theorem State.setSubkey_subkey (v : Vector Word 8) : (st.setSubkey v).subkey = v := rfl
@[simp] theorem State.setSubkey_s (v : Vector Word 8) : (st.setSubkey v).s = st.s := rfl
@[simp] theorem State.setSubkey_ks (v : Vector Word 8) : (st.setSubkey v).ks = st.ks := rfl
@[simp] theorem State.setSubkey_pkey (v : Vector Word 8) : (st.setSubkey v).pkey = st.pkey := rfl
@[simp] theorem State.setSubkey_pr (v : Vector Word 8) : (st.setSubkey v).pr = st.pr := rfl
@[simp] theorem State.setSubkey_ps (v : Vector Word 8) : (st.setSubkey v).ps = st.ps := rfl
@[simp] theorem State.setSubkey_ph (v : Vector Word 8) : (st.setSubkey v).ph = st.ph := rfl
@[simp] theorem State.setSubkey_pblk (v : Vector Word 8) : (st.setSubkey v).pblk = st.pblk := rfl
@[simp] theorem State.setSubkey_tag (v : Vector Word 8) : (st.setSubkey v).tag = st.tag := rfl
@[simp] theorem State.setSubkey_ptag (v : Vector Word 8) : (st.setSubkey v).ptag = st.ptag := rfl
@[simp] theorem State.setSubkey_aadPtr (v : Vector Word 8) : (st.setSubkey v).aadPtr = st.aadPtr := rfl
@[simp] theorem State.setSubkey_aadLen (v : Vector Word 8) : (st.setSubkey v).aadLen = st.aadLen := rfl
@[simp] theorem State.setSubkey_srcPtr (v : Vector Word 8) : (st.setSubkey v).srcPtr = st.srcPtr := rfl
@[simp] theorem State.setSubkey_srcLen (v : Vector Word 8) : (st.setSubkey v).srcLen = st.srcLen := rfl
@[simp] theorem State.setSubkey_dstPtr (v : Vector Word 8) : (st.setSubkey v).dstPtr = st.dstPtr := rfl
@[simp] theorem State.setSubkey_outLen (v : Vector Word 8) : (st.setSubkey v).outLen = st.outLen := rfl
@[simp] theorem State.setSubkey_dmem (v : Vector Word 8) : (st.setSubkey v).dmem = st.dmem := rfl
@[simp] theorem State.setSubkey_schedule (v : Vector Word 8) : (st.setSubkey v).schedule = st.schedule := rfl
@[simp] theorem State.setSubkey_draws (v : Vector Word 8) : (st.setSubkey v).draws = st.draws := rfl
@[simp] theorem State.setSubkey_reply (v : Vector Word 8) : (st.setSubkey v).reply = st.reply := rfl

/-! ### `State.setCounter` -/

@[simp] theorem State.setCounter_cmd (c : Word) (x : Bool) : (st.setCounter c x).cmd = st.cmd := rfl
@[simp] theorem State.setCounter_busy (c : Word) (x : Bool) : (st.setCounter c x).busy = st.busy := rfl
@[simp] theorem State.setCounter_done (c : Word) (x : Bool) : (st.setCounter c x).done = st.done := rfl
@[simp] theorem State.setCounter_ovr (c : Word) (x : Bool) : (st.setCounter c x).ovr = st.ovr := rfl
@[simp] theorem State.setCounter_ctrexh (c : Word) (x : Bool) : (st.setCounter c x).ctrexh = x := rfl
@[simp] theorem State.setCounter_authok (c : Word) (x : Bool) : (st.setCounter c x).authok = st.authok := rfl
@[simp] theorem State.setCounter_report (c : Word) (x : Bool) : (st.setCounter c x).report = st.report := rfl
@[simp] theorem State.setCounter_ie (c : Word) (x : Bool) : (st.setCounter c x).ie = st.ie := rfl
@[simp] theorem State.setCounter_id (c : Word) (x : Bool) : (st.setCounter c x).id = st.id := rfl
@[simp] theorem State.setCounter_dmemsz (c : Word) (x : Bool) : (st.setCounter c x).dmemsz = st.dmemsz := rfl
@[simp] theorem State.setCounter_key (c : Word) (x : Bool) : (st.setCounter c x).key = st.key := rfl
@[simp] theorem State.setCounter_nonce (c : Word) (x : Bool) : (st.setCounter c x).nonce = st.nonce := rfl
@[simp] theorem State.setCounter_ctr (c : Word) (x : Bool) : (st.setCounter c x).ctr = c := rfl
@[simp] theorem State.setCounter_subkey (c : Word) (x : Bool) : (st.setCounter c x).subkey = st.subkey := rfl
@[simp] theorem State.setCounter_s (c : Word) (x : Bool) : (st.setCounter c x).s = st.s := rfl
@[simp] theorem State.setCounter_ks (c : Word) (x : Bool) : (st.setCounter c x).ks = st.ks := rfl
@[simp] theorem State.setCounter_pkey (c : Word) (x : Bool) : (st.setCounter c x).pkey = st.pkey := rfl
@[simp] theorem State.setCounter_pr (c : Word) (x : Bool) : (st.setCounter c x).pr = st.pr := rfl
@[simp] theorem State.setCounter_ps (c : Word) (x : Bool) : (st.setCounter c x).ps = st.ps := rfl
@[simp] theorem State.setCounter_ph (c : Word) (x : Bool) : (st.setCounter c x).ph = st.ph := rfl
@[simp] theorem State.setCounter_pblk (c : Word) (x : Bool) : (st.setCounter c x).pblk = st.pblk := rfl
@[simp] theorem State.setCounter_tag (c : Word) (x : Bool) : (st.setCounter c x).tag = st.tag := rfl
@[simp] theorem State.setCounter_ptag (c : Word) (x : Bool) : (st.setCounter c x).ptag = st.ptag := rfl
@[simp] theorem State.setCounter_aadPtr (c : Word) (x : Bool) : (st.setCounter c x).aadPtr = st.aadPtr := rfl
@[simp] theorem State.setCounter_aadLen (c : Word) (x : Bool) : (st.setCounter c x).aadLen = st.aadLen := rfl
@[simp] theorem State.setCounter_srcPtr (c : Word) (x : Bool) : (st.setCounter c x).srcPtr = st.srcPtr := rfl
@[simp] theorem State.setCounter_srcLen (c : Word) (x : Bool) : (st.setCounter c x).srcLen = st.srcLen := rfl
@[simp] theorem State.setCounter_dstPtr (c : Word) (x : Bool) : (st.setCounter c x).dstPtr = st.dstPtr := rfl
@[simp] theorem State.setCounter_outLen (c : Word) (x : Bool) : (st.setCounter c x).outLen = st.outLen := rfl
@[simp] theorem State.setCounter_dmem (c : Word) (x : Bool) : (st.setCounter c x).dmem = st.dmem := rfl
@[simp] theorem State.setCounter_schedule (c : Word) (x : Bool) : (st.setCounter c x).schedule = st.schedule := rfl
@[simp] theorem State.setCounter_draws (c : Word) (x : Bool) : (st.setCounter c x).draws = st.draws := rfl
@[simp] theorem State.setCounter_reply (c : Word) (x : Bool) : (st.setCounter c x).reply = st.reply := rfl

/-! ### `State.setPolyKey` -/

@[simp] theorem State.setPolyKey_cmd (r k : Vector Word 4) : (st.setPolyKey r k).cmd = st.cmd := rfl
@[simp] theorem State.setPolyKey_busy (r k : Vector Word 4) : (st.setPolyKey r k).busy = st.busy := rfl
@[simp] theorem State.setPolyKey_done (r k : Vector Word 4) : (st.setPolyKey r k).done = st.done := rfl
@[simp] theorem State.setPolyKey_ovr (r k : Vector Word 4) : (st.setPolyKey r k).ovr = st.ovr := rfl
@[simp] theorem State.setPolyKey_ctrexh (r k : Vector Word 4) : (st.setPolyKey r k).ctrexh = st.ctrexh := rfl
@[simp] theorem State.setPolyKey_authok (r k : Vector Word 4) : (st.setPolyKey r k).authok = st.authok := rfl
@[simp] theorem State.setPolyKey_report (r k : Vector Word 4) : (st.setPolyKey r k).report = st.report := rfl
@[simp] theorem State.setPolyKey_ie (r k : Vector Word 4) : (st.setPolyKey r k).ie = st.ie := rfl
@[simp] theorem State.setPolyKey_id (r k : Vector Word 4) : (st.setPolyKey r k).id = st.id := rfl
@[simp] theorem State.setPolyKey_dmemsz (r k : Vector Word 4) : (st.setPolyKey r k).dmemsz = st.dmemsz := rfl
@[simp] theorem State.setPolyKey_key (r k : Vector Word 4) : (st.setPolyKey r k).key = st.key := rfl
@[simp] theorem State.setPolyKey_nonce (r k : Vector Word 4) : (st.setPolyKey r k).nonce = st.nonce := rfl
@[simp] theorem State.setPolyKey_ctr (r k : Vector Word 4) : (st.setPolyKey r k).ctr = st.ctr := rfl
@[simp] theorem State.setPolyKey_subkey (r k : Vector Word 4) : (st.setPolyKey r k).subkey = st.subkey := rfl
@[simp] theorem State.setPolyKey_s (r k : Vector Word 4) : (st.setPolyKey r k).s = st.s := rfl
@[simp] theorem State.setPolyKey_ks (r k : Vector Word 4) : (st.setPolyKey r k).ks = st.ks := rfl
@[simp] theorem State.setPolyKey_pkey (r k : Vector Word 4) : (st.setPolyKey r k).pkey = st.pkey := rfl
@[simp] theorem State.setPolyKey_pr (r k : Vector Word 4) : (st.setPolyKey r k).pr = r := rfl
@[simp] theorem State.setPolyKey_ps (r k : Vector Word 4) : (st.setPolyKey r k).ps = k := rfl
@[simp] theorem State.setPolyKey_ph (r k : Vector Word 4) : (st.setPolyKey r k).ph = st.ph := rfl
@[simp] theorem State.setPolyKey_pblk (r k : Vector Word 4) : (st.setPolyKey r k).pblk = st.pblk := rfl
@[simp] theorem State.setPolyKey_tag (r k : Vector Word 4) : (st.setPolyKey r k).tag = st.tag := rfl
@[simp] theorem State.setPolyKey_ptag (r k : Vector Word 4) : (st.setPolyKey r k).ptag = st.ptag := rfl
@[simp] theorem State.setPolyKey_aadPtr (r k : Vector Word 4) : (st.setPolyKey r k).aadPtr = st.aadPtr := rfl
@[simp] theorem State.setPolyKey_aadLen (r k : Vector Word 4) : (st.setPolyKey r k).aadLen = st.aadLen := rfl
@[simp] theorem State.setPolyKey_srcPtr (r k : Vector Word 4) : (st.setPolyKey r k).srcPtr = st.srcPtr := rfl
@[simp] theorem State.setPolyKey_srcLen (r k : Vector Word 4) : (st.setPolyKey r k).srcLen = st.srcLen := rfl
@[simp] theorem State.setPolyKey_dstPtr (r k : Vector Word 4) : (st.setPolyKey r k).dstPtr = st.dstPtr := rfl
@[simp] theorem State.setPolyKey_outLen (r k : Vector Word 4) : (st.setPolyKey r k).outLen = st.outLen := rfl
@[simp] theorem State.setPolyKey_dmem (r k : Vector Word 4) : (st.setPolyKey r k).dmem = st.dmem := rfl
@[simp] theorem State.setPolyKey_schedule (r k : Vector Word 4) : (st.setPolyKey r k).schedule = st.schedule := rfl
@[simp] theorem State.setPolyKey_draws (r k : Vector Word 4) : (st.setPolyKey r k).draws = st.draws := rfl
@[simp] theorem State.setPolyKey_reply (r k : Vector Word 4) : (st.setPolyKey r k).reply = st.reply := rfl

/-! ### `State.setPh` -/

@[simp] theorem State.setPh_cmd (h : Vector Word 5) : (st.setPh h).cmd = st.cmd := rfl
@[simp] theorem State.setPh_busy (h : Vector Word 5) : (st.setPh h).busy = st.busy := rfl
@[simp] theorem State.setPh_done (h : Vector Word 5) : (st.setPh h).done = st.done := rfl
@[simp] theorem State.setPh_ovr (h : Vector Word 5) : (st.setPh h).ovr = st.ovr := rfl
@[simp] theorem State.setPh_ctrexh (h : Vector Word 5) : (st.setPh h).ctrexh = st.ctrexh := rfl
@[simp] theorem State.setPh_authok (h : Vector Word 5) : (st.setPh h).authok = st.authok := rfl
@[simp] theorem State.setPh_report (h : Vector Word 5) : (st.setPh h).report = st.report := rfl
@[simp] theorem State.setPh_ie (h : Vector Word 5) : (st.setPh h).ie = st.ie := rfl
@[simp] theorem State.setPh_id (h : Vector Word 5) : (st.setPh h).id = st.id := rfl
@[simp] theorem State.setPh_dmemsz (h : Vector Word 5) : (st.setPh h).dmemsz = st.dmemsz := rfl
@[simp] theorem State.setPh_key (h : Vector Word 5) : (st.setPh h).key = st.key := rfl
@[simp] theorem State.setPh_nonce (h : Vector Word 5) : (st.setPh h).nonce = st.nonce := rfl
@[simp] theorem State.setPh_ctr (h : Vector Word 5) : (st.setPh h).ctr = st.ctr := rfl
@[simp] theorem State.setPh_subkey (h : Vector Word 5) : (st.setPh h).subkey = st.subkey := rfl
@[simp] theorem State.setPh_s (h : Vector Word 5) : (st.setPh h).s = st.s := rfl
@[simp] theorem State.setPh_ks (h : Vector Word 5) : (st.setPh h).ks = st.ks := rfl
@[simp] theorem State.setPh_pkey (h : Vector Word 5) : (st.setPh h).pkey = st.pkey := rfl
@[simp] theorem State.setPh_pr (h : Vector Word 5) : (st.setPh h).pr = st.pr := rfl
@[simp] theorem State.setPh_ps (h : Vector Word 5) : (st.setPh h).ps = st.ps := rfl
@[simp] theorem State.setPh_ph (h : Vector Word 5) : (st.setPh h).ph = h := rfl
@[simp] theorem State.setPh_pblk (h : Vector Word 5) : (st.setPh h).pblk = st.pblk := rfl
@[simp] theorem State.setPh_tag (h : Vector Word 5) : (st.setPh h).tag = st.tag := rfl
@[simp] theorem State.setPh_ptag (h : Vector Word 5) : (st.setPh h).ptag = st.ptag := rfl
@[simp] theorem State.setPh_aadPtr (h : Vector Word 5) : (st.setPh h).aadPtr = st.aadPtr := rfl
@[simp] theorem State.setPh_aadLen (h : Vector Word 5) : (st.setPh h).aadLen = st.aadLen := rfl
@[simp] theorem State.setPh_srcPtr (h : Vector Word 5) : (st.setPh h).srcPtr = st.srcPtr := rfl
@[simp] theorem State.setPh_srcLen (h : Vector Word 5) : (st.setPh h).srcLen = st.srcLen := rfl
@[simp] theorem State.setPh_dstPtr (h : Vector Word 5) : (st.setPh h).dstPtr = st.dstPtr := rfl
@[simp] theorem State.setPh_outLen (h : Vector Word 5) : (st.setPh h).outLen = st.outLen := rfl
@[simp] theorem State.setPh_dmem (h : Vector Word 5) : (st.setPh h).dmem = st.dmem := rfl
@[simp] theorem State.setPh_schedule (h : Vector Word 5) : (st.setPh h).schedule = st.schedule := rfl
@[simp] theorem State.setPh_draws (h : Vector Word 5) : (st.setPh h).draws = st.draws := rfl
@[simp] theorem State.setPh_reply (h : Vector Word 5) : (st.setPh h).reply = st.reply := rfl

/-! ### `State.setTag` -/

@[simp] theorem State.setTag_cmd (t : Vector Word 4) : (st.setTag t).cmd = st.cmd := rfl
@[simp] theorem State.setTag_busy (t : Vector Word 4) : (st.setTag t).busy = st.busy := rfl
@[simp] theorem State.setTag_done (t : Vector Word 4) : (st.setTag t).done = st.done := rfl
@[simp] theorem State.setTag_ovr (t : Vector Word 4) : (st.setTag t).ovr = st.ovr := rfl
@[simp] theorem State.setTag_ctrexh (t : Vector Word 4) : (st.setTag t).ctrexh = st.ctrexh := rfl
@[simp] theorem State.setTag_authok (t : Vector Word 4) : (st.setTag t).authok = st.authok := rfl
@[simp] theorem State.setTag_report (t : Vector Word 4) : (st.setTag t).report = st.report := rfl
@[simp] theorem State.setTag_ie (t : Vector Word 4) : (st.setTag t).ie = st.ie := rfl
@[simp] theorem State.setTag_id (t : Vector Word 4) : (st.setTag t).id = st.id := rfl
@[simp] theorem State.setTag_dmemsz (t : Vector Word 4) : (st.setTag t).dmemsz = st.dmemsz := rfl
@[simp] theorem State.setTag_key (t : Vector Word 4) : (st.setTag t).key = st.key := rfl
@[simp] theorem State.setTag_nonce (t : Vector Word 4) : (st.setTag t).nonce = st.nonce := rfl
@[simp] theorem State.setTag_ctr (t : Vector Word 4) : (st.setTag t).ctr = st.ctr := rfl
@[simp] theorem State.setTag_subkey (t : Vector Word 4) : (st.setTag t).subkey = st.subkey := rfl
@[simp] theorem State.setTag_s (t : Vector Word 4) : (st.setTag t).s = st.s := rfl
@[simp] theorem State.setTag_ks (t : Vector Word 4) : (st.setTag t).ks = st.ks := rfl
@[simp] theorem State.setTag_pkey (t : Vector Word 4) : (st.setTag t).pkey = st.pkey := rfl
@[simp] theorem State.setTag_pr (t : Vector Word 4) : (st.setTag t).pr = st.pr := rfl
@[simp] theorem State.setTag_ps (t : Vector Word 4) : (st.setTag t).ps = st.ps := rfl
@[simp] theorem State.setTag_ph (t : Vector Word 4) : (st.setTag t).ph = st.ph := rfl
@[simp] theorem State.setTag_pblk (t : Vector Word 4) : (st.setTag t).pblk = st.pblk := rfl
@[simp] theorem State.setTag_tag (t : Vector Word 4) : (st.setTag t).tag = t := rfl
@[simp] theorem State.setTag_ptag (t : Vector Word 4) : (st.setTag t).ptag = st.ptag := rfl
@[simp] theorem State.setTag_aadPtr (t : Vector Word 4) : (st.setTag t).aadPtr = st.aadPtr := rfl
@[simp] theorem State.setTag_aadLen (t : Vector Word 4) : (st.setTag t).aadLen = st.aadLen := rfl
@[simp] theorem State.setTag_srcPtr (t : Vector Word 4) : (st.setTag t).srcPtr = st.srcPtr := rfl
@[simp] theorem State.setTag_srcLen (t : Vector Word 4) : (st.setTag t).srcLen = st.srcLen := rfl
@[simp] theorem State.setTag_dstPtr (t : Vector Word 4) : (st.setTag t).dstPtr = st.dstPtr := rfl
@[simp] theorem State.setTag_outLen (t : Vector Word 4) : (st.setTag t).outLen = st.outLen := rfl
@[simp] theorem State.setTag_dmem (t : Vector Word 4) : (st.setTag t).dmem = st.dmem := rfl
@[simp] theorem State.setTag_schedule (t : Vector Word 4) : (st.setTag t).schedule = st.schedule := rfl
@[simp] theorem State.setTag_draws (t : Vector Word 4) : (st.setTag t).draws = st.draws := rfl
@[simp] theorem State.setTag_reply (t : Vector Word 4) : (st.setTag t).reply = st.reply := rfl

/-! ### `State.setOutLen` -/

@[simp] theorem State.setOutLen_cmd (n : Word) : (st.setOutLen n).cmd = st.cmd := rfl
@[simp] theorem State.setOutLen_busy (n : Word) : (st.setOutLen n).busy = st.busy := rfl
@[simp] theorem State.setOutLen_done (n : Word) : (st.setOutLen n).done = st.done := rfl
@[simp] theorem State.setOutLen_ovr (n : Word) : (st.setOutLen n).ovr = st.ovr := rfl
@[simp] theorem State.setOutLen_ctrexh (n : Word) : (st.setOutLen n).ctrexh = st.ctrexh := rfl
@[simp] theorem State.setOutLen_authok (n : Word) : (st.setOutLen n).authok = st.authok := rfl
@[simp] theorem State.setOutLen_report (n : Word) : (st.setOutLen n).report = st.report := rfl
@[simp] theorem State.setOutLen_ie (n : Word) : (st.setOutLen n).ie = st.ie := rfl
@[simp] theorem State.setOutLen_id (n : Word) : (st.setOutLen n).id = st.id := rfl
@[simp] theorem State.setOutLen_dmemsz (n : Word) : (st.setOutLen n).dmemsz = st.dmemsz := rfl
@[simp] theorem State.setOutLen_key (n : Word) : (st.setOutLen n).key = st.key := rfl
@[simp] theorem State.setOutLen_nonce (n : Word) : (st.setOutLen n).nonce = st.nonce := rfl
@[simp] theorem State.setOutLen_ctr (n : Word) : (st.setOutLen n).ctr = st.ctr := rfl
@[simp] theorem State.setOutLen_subkey (n : Word) : (st.setOutLen n).subkey = st.subkey := rfl
@[simp] theorem State.setOutLen_s (n : Word) : (st.setOutLen n).s = st.s := rfl
@[simp] theorem State.setOutLen_ks (n : Word) : (st.setOutLen n).ks = st.ks := rfl
@[simp] theorem State.setOutLen_pkey (n : Word) : (st.setOutLen n).pkey = st.pkey := rfl
@[simp] theorem State.setOutLen_pr (n : Word) : (st.setOutLen n).pr = st.pr := rfl
@[simp] theorem State.setOutLen_ps (n : Word) : (st.setOutLen n).ps = st.ps := rfl
@[simp] theorem State.setOutLen_ph (n : Word) : (st.setOutLen n).ph = st.ph := rfl
@[simp] theorem State.setOutLen_pblk (n : Word) : (st.setOutLen n).pblk = st.pblk := rfl
@[simp] theorem State.setOutLen_tag (n : Word) : (st.setOutLen n).tag = st.tag := rfl
@[simp] theorem State.setOutLen_ptag (n : Word) : (st.setOutLen n).ptag = st.ptag := rfl
@[simp] theorem State.setOutLen_aadPtr (n : Word) : (st.setOutLen n).aadPtr = st.aadPtr := rfl
@[simp] theorem State.setOutLen_aadLen (n : Word) : (st.setOutLen n).aadLen = st.aadLen := rfl
@[simp] theorem State.setOutLen_srcPtr (n : Word) : (st.setOutLen n).srcPtr = st.srcPtr := rfl
@[simp] theorem State.setOutLen_srcLen (n : Word) : (st.setOutLen n).srcLen = st.srcLen := rfl
@[simp] theorem State.setOutLen_dstPtr (n : Word) : (st.setOutLen n).dstPtr = st.dstPtr := rfl
@[simp] theorem State.setOutLen_outLen (n : Word) : (st.setOutLen n).outLen = n := rfl
@[simp] theorem State.setOutLen_dmem (n : Word) : (st.setOutLen n).dmem = st.dmem := rfl
@[simp] theorem State.setOutLen_schedule (n : Word) : (st.setOutLen n).schedule = st.schedule := rfl
@[simp] theorem State.setOutLen_draws (n : Word) : (st.setOutLen n).draws = st.draws := rfl
@[simp] theorem State.setOutLen_reply (n : Word) : (st.setOutLen n).reply = st.reply := rfl

/-! ### `State.setDmem` -/

@[simp] theorem State.setDmem_cmd (m : Memory) : (st.setDmem m).cmd = st.cmd := rfl
@[simp] theorem State.setDmem_busy (m : Memory) : (st.setDmem m).busy = st.busy := rfl
@[simp] theorem State.setDmem_done (m : Memory) : (st.setDmem m).done = st.done := rfl
@[simp] theorem State.setDmem_ovr (m : Memory) : (st.setDmem m).ovr = st.ovr := rfl
@[simp] theorem State.setDmem_ctrexh (m : Memory) : (st.setDmem m).ctrexh = st.ctrexh := rfl
@[simp] theorem State.setDmem_authok (m : Memory) : (st.setDmem m).authok = st.authok := rfl
@[simp] theorem State.setDmem_report (m : Memory) : (st.setDmem m).report = st.report := rfl
@[simp] theorem State.setDmem_ie (m : Memory) : (st.setDmem m).ie = st.ie := rfl
@[simp] theorem State.setDmem_id (m : Memory) : (st.setDmem m).id = st.id := rfl
@[simp] theorem State.setDmem_dmemsz (m : Memory) : (st.setDmem m).dmemsz = st.dmemsz := rfl
@[simp] theorem State.setDmem_key (m : Memory) : (st.setDmem m).key = st.key := rfl
@[simp] theorem State.setDmem_nonce (m : Memory) : (st.setDmem m).nonce = st.nonce := rfl
@[simp] theorem State.setDmem_ctr (m : Memory) : (st.setDmem m).ctr = st.ctr := rfl
@[simp] theorem State.setDmem_subkey (m : Memory) : (st.setDmem m).subkey = st.subkey := rfl
@[simp] theorem State.setDmem_s (m : Memory) : (st.setDmem m).s = st.s := rfl
@[simp] theorem State.setDmem_ks (m : Memory) : (st.setDmem m).ks = st.ks := rfl
@[simp] theorem State.setDmem_pkey (m : Memory) : (st.setDmem m).pkey = st.pkey := rfl
@[simp] theorem State.setDmem_pr (m : Memory) : (st.setDmem m).pr = st.pr := rfl
@[simp] theorem State.setDmem_ps (m : Memory) : (st.setDmem m).ps = st.ps := rfl
@[simp] theorem State.setDmem_ph (m : Memory) : (st.setDmem m).ph = st.ph := rfl
@[simp] theorem State.setDmem_pblk (m : Memory) : (st.setDmem m).pblk = st.pblk := rfl
@[simp] theorem State.setDmem_tag (m : Memory) : (st.setDmem m).tag = st.tag := rfl
@[simp] theorem State.setDmem_ptag (m : Memory) : (st.setDmem m).ptag = st.ptag := rfl
@[simp] theorem State.setDmem_aadPtr (m : Memory) : (st.setDmem m).aadPtr = st.aadPtr := rfl
@[simp] theorem State.setDmem_aadLen (m : Memory) : (st.setDmem m).aadLen = st.aadLen := rfl
@[simp] theorem State.setDmem_srcPtr (m : Memory) : (st.setDmem m).srcPtr = st.srcPtr := rfl
@[simp] theorem State.setDmem_srcLen (m : Memory) : (st.setDmem m).srcLen = st.srcLen := rfl
@[simp] theorem State.setDmem_dstPtr (m : Memory) : (st.setDmem m).dstPtr = st.dstPtr := rfl
@[simp] theorem State.setDmem_outLen (m : Memory) : (st.setDmem m).outLen = st.outLen := rfl
@[simp] theorem State.setDmem_dmem (m : Memory) : (st.setDmem m).dmem = m := rfl
@[simp] theorem State.setDmem_schedule (m : Memory) : (st.setDmem m).schedule = st.schedule := rfl
@[simp] theorem State.setDmem_draws (m : Memory) : (st.setDmem m).draws = st.draws := rfl
@[simp] theorem State.setDmem_reply (m : Memory) : (st.setDmem m).reply = st.reply := rfl

/-! ### `State.zeroiseDatapath` -/

@[simp] theorem State.zeroiseDatapath_cmd : (st.zeroiseDatapath).cmd = st.cmd := rfl
@[simp] theorem State.zeroiseDatapath_busy : (st.zeroiseDatapath).busy = st.busy := rfl
@[simp] theorem State.zeroiseDatapath_done : (st.zeroiseDatapath).done = st.done := rfl
@[simp] theorem State.zeroiseDatapath_ovr : (st.zeroiseDatapath).ovr = st.ovr := rfl
@[simp] theorem State.zeroiseDatapath_ctrexh : (st.zeroiseDatapath).ctrexh = st.ctrexh := rfl
@[simp] theorem State.zeroiseDatapath_authok : (st.zeroiseDatapath).authok = st.authok := rfl
@[simp] theorem State.zeroiseDatapath_report : (st.zeroiseDatapath).report = st.report := rfl
@[simp] theorem State.zeroiseDatapath_ie : (st.zeroiseDatapath).ie = st.ie := rfl
@[simp] theorem State.zeroiseDatapath_id : (st.zeroiseDatapath).id = st.id := rfl
@[simp] theorem State.zeroiseDatapath_dmemsz : (st.zeroiseDatapath).dmemsz = st.dmemsz := rfl
@[simp] theorem State.zeroiseDatapath_key : (st.zeroiseDatapath).key = st.key := rfl
@[simp] theorem State.zeroiseDatapath_nonce : (st.zeroiseDatapath).nonce = st.nonce := rfl
@[simp] theorem State.zeroiseDatapath_ctr : (st.zeroiseDatapath).ctr = st.ctr := rfl
@[simp] theorem State.zeroiseDatapath_subkey : (st.zeroiseDatapath).subkey = Vector.replicate 8 0 := rfl
@[simp] theorem State.zeroiseDatapath_s : (st.zeroiseDatapath).s = Vector.replicate 16 0 := rfl
@[simp] theorem State.zeroiseDatapath_ks : (st.zeroiseDatapath).ks = Vector.replicate 16 0 := rfl
@[simp] theorem State.zeroiseDatapath_pkey : (st.zeroiseDatapath).pkey = Vector.replicate 8 0 := rfl
@[simp] theorem State.zeroiseDatapath_pr : (st.zeroiseDatapath).pr = Vector.replicate 4 0 := rfl
@[simp] theorem State.zeroiseDatapath_ps : (st.zeroiseDatapath).ps = Vector.replicate 4 0 := rfl
@[simp] theorem State.zeroiseDatapath_ph : (st.zeroiseDatapath).ph = Vector.replicate 5 0 := rfl
@[simp] theorem State.zeroiseDatapath_pblk : (st.zeroiseDatapath).pblk = Vector.replicate 4 0 := rfl
@[simp] theorem State.zeroiseDatapath_tag : (st.zeroiseDatapath).tag = st.tag := rfl
@[simp] theorem State.zeroiseDatapath_ptag : (st.zeroiseDatapath).ptag = st.ptag := rfl
@[simp] theorem State.zeroiseDatapath_aadPtr : (st.zeroiseDatapath).aadPtr = st.aadPtr := rfl
@[simp] theorem State.zeroiseDatapath_aadLen : (st.zeroiseDatapath).aadLen = st.aadLen := rfl
@[simp] theorem State.zeroiseDatapath_srcPtr : (st.zeroiseDatapath).srcPtr = st.srcPtr := rfl
@[simp] theorem State.zeroiseDatapath_srcLen : (st.zeroiseDatapath).srcLen = st.srcLen := rfl
@[simp] theorem State.zeroiseDatapath_dstPtr : (st.zeroiseDatapath).dstPtr = st.dstPtr := rfl
@[simp] theorem State.zeroiseDatapath_outLen : (st.zeroiseDatapath).outLen = st.outLen := rfl
@[simp] theorem State.zeroiseDatapath_dmem : (st.zeroiseDatapath).dmem = st.dmem := rfl
@[simp] theorem State.zeroiseDatapath_schedule : (st.zeroiseDatapath).schedule = st.schedule := rfl
@[simp] theorem State.zeroiseDatapath_draws : (st.zeroiseDatapath).draws = st.draws := rfl
@[simp] theorem State.zeroiseDatapath_reply : (st.zeroiseDatapath).reply = st.reply := rfl

/-! ### `State.zeroiseKeys` -/

@[simp] theorem State.zeroiseKeys_cmd : (st.zeroiseKeys).cmd = st.cmd := rfl
@[simp] theorem State.zeroiseKeys_busy : (st.zeroiseKeys).busy = st.busy := rfl
@[simp] theorem State.zeroiseKeys_done : (st.zeroiseKeys).done = st.done := rfl
@[simp] theorem State.zeroiseKeys_ovr : (st.zeroiseKeys).ovr = st.ovr := rfl
@[simp] theorem State.zeroiseKeys_ctrexh : (st.zeroiseKeys).ctrexh = false := rfl
@[simp] theorem State.zeroiseKeys_authok : (st.zeroiseKeys).authok = st.authok := rfl
@[simp] theorem State.zeroiseKeys_report : (st.zeroiseKeys).report = st.report := rfl
@[simp] theorem State.zeroiseKeys_ie : (st.zeroiseKeys).ie = st.ie := rfl
@[simp] theorem State.zeroiseKeys_id : (st.zeroiseKeys).id = st.id := rfl
@[simp] theorem State.zeroiseKeys_dmemsz : (st.zeroiseKeys).dmemsz = st.dmemsz := rfl
@[simp] theorem State.zeroiseKeys_key : (st.zeroiseKeys).key = Vector.replicate 8 0 := rfl
@[simp] theorem State.zeroiseKeys_nonce : (st.zeroiseKeys).nonce = Vector.replicate 6 0 := rfl
@[simp] theorem State.zeroiseKeys_ctr : (st.zeroiseKeys).ctr = 0 := rfl
@[simp] theorem State.zeroiseKeys_subkey : (st.zeroiseKeys).subkey = Vector.replicate 8 0 := rfl
@[simp] theorem State.zeroiseKeys_s : (st.zeroiseKeys).s = Vector.replicate 16 0 := rfl
@[simp] theorem State.zeroiseKeys_ks : (st.zeroiseKeys).ks = Vector.replicate 16 0 := rfl
@[simp] theorem State.zeroiseKeys_pkey : (st.zeroiseKeys).pkey = Vector.replicate 8 0 := rfl
@[simp] theorem State.zeroiseKeys_pr : (st.zeroiseKeys).pr = Vector.replicate 4 0 := rfl
@[simp] theorem State.zeroiseKeys_ps : (st.zeroiseKeys).ps = Vector.replicate 4 0 := rfl
@[simp] theorem State.zeroiseKeys_ph : (st.zeroiseKeys).ph = Vector.replicate 5 0 := rfl
@[simp] theorem State.zeroiseKeys_pblk : (st.zeroiseKeys).pblk = Vector.replicate 4 0 := rfl
@[simp] theorem State.zeroiseKeys_tag : (st.zeroiseKeys).tag = Vector.replicate 4 0 := rfl
@[simp] theorem State.zeroiseKeys_ptag : (st.zeroiseKeys).ptag = Vector.replicate 4 0 := rfl
@[simp] theorem State.zeroiseKeys_aadPtr : (st.zeroiseKeys).aadPtr = st.aadPtr := rfl
@[simp] theorem State.zeroiseKeys_aadLen : (st.zeroiseKeys).aadLen = st.aadLen := rfl
@[simp] theorem State.zeroiseKeys_srcPtr : (st.zeroiseKeys).srcPtr = st.srcPtr := rfl
@[simp] theorem State.zeroiseKeys_srcLen : (st.zeroiseKeys).srcLen = st.srcLen := rfl
@[simp] theorem State.zeroiseKeys_dstPtr : (st.zeroiseKeys).dstPtr = st.dstPtr := rfl
@[simp] theorem State.zeroiseKeys_outLen : (st.zeroiseKeys).outLen = st.outLen := rfl
@[simp] theorem State.zeroiseKeys_dmem : (st.zeroiseKeys).dmem = st.dmem := rfl
@[simp] theorem State.zeroiseKeys_schedule : (st.zeroiseKeys).schedule = st.schedule := rfl
@[simp] theorem State.zeroiseKeys_draws : (st.zeroiseKeys).draws = st.draws := rfl
@[simp] theorem State.zeroiseKeys_reply : (st.zeroiseKeys).reply = st.reply := rfl

/-! ### `State.accept` -/

@[simp] theorem State.accept_cmd (w : Word) : (st.accept w).cmd = w := rfl
@[simp] theorem State.accept_busy (w : Word) : (st.accept w).busy = true := rfl
@[simp] theorem State.accept_done (w : Word) : (st.accept w).done = false := rfl
@[simp] theorem State.accept_ovr (w : Word) : (st.accept w).ovr = st.ovr := rfl
@[simp] theorem State.accept_ctrexh (w : Word) : (st.accept w).ctrexh = st.ctrexh := rfl
@[simp] theorem State.accept_authok (w : Word) : (st.accept w).authok = false := rfl
@[simp] theorem State.accept_report (w : Word) : (st.accept w).report = .ok := rfl
@[simp] theorem State.accept_ie (w : Word) : (st.accept w).ie = st.ie := rfl
@[simp] theorem State.accept_id (w : Word) : (st.accept w).id = st.id := rfl
@[simp] theorem State.accept_dmemsz (w : Word) : (st.accept w).dmemsz = st.dmemsz := rfl
@[simp] theorem State.accept_key (w : Word) : (st.accept w).key = st.key := rfl
@[simp] theorem State.accept_nonce (w : Word) : (st.accept w).nonce = st.nonce := rfl
@[simp] theorem State.accept_ctr (w : Word) : (st.accept w).ctr = st.ctr := rfl
@[simp] theorem State.accept_subkey (w : Word) : (st.accept w).subkey = st.subkey := rfl
@[simp] theorem State.accept_s (w : Word) : (st.accept w).s = st.s := rfl
@[simp] theorem State.accept_ks (w : Word) : (st.accept w).ks = st.ks := rfl
@[simp] theorem State.accept_pkey (w : Word) : (st.accept w).pkey = st.pkey := rfl
@[simp] theorem State.accept_pr (w : Word) : (st.accept w).pr = st.pr := rfl
@[simp] theorem State.accept_ps (w : Word) : (st.accept w).ps = st.ps := rfl
@[simp] theorem State.accept_ph (w : Word) : (st.accept w).ph = st.ph := rfl
@[simp] theorem State.accept_pblk (w : Word) : (st.accept w).pblk = st.pblk := rfl
@[simp] theorem State.accept_tag (w : Word) : (st.accept w).tag = st.tag := rfl
@[simp] theorem State.accept_ptag (w : Word) : (st.accept w).ptag = st.ptag := rfl
@[simp] theorem State.accept_aadPtr (w : Word) : (st.accept w).aadPtr = st.aadPtr := rfl
@[simp] theorem State.accept_aadLen (w : Word) : (st.accept w).aadLen = st.aadLen := rfl
@[simp] theorem State.accept_srcPtr (w : Word) : (st.accept w).srcPtr = st.srcPtr := rfl
@[simp] theorem State.accept_srcLen (w : Word) : (st.accept w).srcLen = st.srcLen := rfl
@[simp] theorem State.accept_dstPtr (w : Word) : (st.accept w).dstPtr = st.dstPtr := rfl
@[simp] theorem State.accept_outLen (w : Word) : (st.accept w).outLen = st.outLen := rfl
@[simp] theorem State.accept_dmem (w : Word) : (st.accept w).dmem = st.dmem := rfl
@[simp] theorem State.accept_schedule (w : Word) : (st.accept w).schedule = st.schedule := rfl
@[simp] theorem State.accept_draws (w : Word) : (st.accept w).draws = st.draws := rfl
@[simp] theorem State.accept_reply (w : Word) : (st.accept w).reply = st.reply := rfl

/-! ### `State.finish` -/

@[simp] theorem State.finish_cmd (c : Completion) : (st.finish c).cmd = st.cmd := rfl
@[simp] theorem State.finish_busy (c : Completion) : (st.finish c).busy = false := rfl
@[simp] theorem State.finish_done (c : Completion) : (st.finish c).done = true := rfl
@[simp] theorem State.finish_ovr (c : Completion) : (st.finish c).ovr = st.ovr := rfl
@[simp] theorem State.finish_ctrexh (c : Completion) : (st.finish c).ctrexh = st.ctrexh := rfl
@[simp] theorem State.finish_authok (c : Completion) : (st.finish c).authok = st.authok := rfl
@[simp] theorem State.finish_report (c : Completion) : (st.finish c).report = c := rfl
@[simp] theorem State.finish_ie (c : Completion) : (st.finish c).ie = st.ie := rfl
@[simp] theorem State.finish_id (c : Completion) : (st.finish c).id = st.id := rfl
@[simp] theorem State.finish_dmemsz (c : Completion) : (st.finish c).dmemsz = st.dmemsz := rfl
@[simp] theorem State.finish_key (c : Completion) : (st.finish c).key = st.key := rfl
@[simp] theorem State.finish_nonce (c : Completion) : (st.finish c).nonce = st.nonce := rfl
@[simp] theorem State.finish_ctr (c : Completion) : (st.finish c).ctr = st.ctr := rfl
@[simp] theorem State.finish_subkey (c : Completion) : (st.finish c).subkey = st.subkey := rfl
@[simp] theorem State.finish_s (c : Completion) : (st.finish c).s = st.s := rfl
@[simp] theorem State.finish_ks (c : Completion) : (st.finish c).ks = st.ks := rfl
@[simp] theorem State.finish_pkey (c : Completion) : (st.finish c).pkey = st.pkey := rfl
@[simp] theorem State.finish_pr (c : Completion) : (st.finish c).pr = st.pr := rfl
@[simp] theorem State.finish_ps (c : Completion) : (st.finish c).ps = st.ps := rfl
@[simp] theorem State.finish_ph (c : Completion) : (st.finish c).ph = st.ph := rfl
@[simp] theorem State.finish_pblk (c : Completion) : (st.finish c).pblk = st.pblk := rfl
@[simp] theorem State.finish_tag (c : Completion) : (st.finish c).tag = st.tag := rfl
@[simp] theorem State.finish_ptag (c : Completion) : (st.finish c).ptag = st.ptag := rfl
@[simp] theorem State.finish_aadPtr (c : Completion) : (st.finish c).aadPtr = st.aadPtr := rfl
@[simp] theorem State.finish_aadLen (c : Completion) : (st.finish c).aadLen = st.aadLen := rfl
@[simp] theorem State.finish_srcPtr (c : Completion) : (st.finish c).srcPtr = st.srcPtr := rfl
@[simp] theorem State.finish_srcLen (c : Completion) : (st.finish c).srcLen = st.srcLen := rfl
@[simp] theorem State.finish_dstPtr (c : Completion) : (st.finish c).dstPtr = st.dstPtr := rfl
@[simp] theorem State.finish_outLen (c : Completion) : (st.finish c).outLen = st.outLen := rfl
@[simp] theorem State.finish_dmem (c : Completion) : (st.finish c).dmem = st.dmem := rfl
@[simp] theorem State.finish_schedule (c : Completion) : (st.finish c).schedule = st.schedule := rfl
@[simp] theorem State.finish_draws (c : Completion) : (st.finish c).draws = st.draws := rfl
@[simp] theorem State.finish_reply (c : Completion) : (st.finish c).reply = st.reply := rfl

/-! ### `State.resetRegisters` -/

@[simp] theorem State.resetRegisters_cmd : (st.resetRegisters).cmd = 0 := rfl
@[simp] theorem State.resetRegisters_busy : (st.resetRegisters).busy = false := rfl
@[simp] theorem State.resetRegisters_done : (st.resetRegisters).done = false := rfl
@[simp] theorem State.resetRegisters_ovr : (st.resetRegisters).ovr = false := rfl
@[simp] theorem State.resetRegisters_ctrexh : (st.resetRegisters).ctrexh = false := rfl
@[simp] theorem State.resetRegisters_authok : (st.resetRegisters).authok = false := rfl
@[simp] theorem State.resetRegisters_report : (st.resetRegisters).report = .ok := rfl
@[simp] theorem State.resetRegisters_ie : (st.resetRegisters).ie = false := rfl
@[simp] theorem State.resetRegisters_id : (st.resetRegisters).id = st.id := rfl
@[simp] theorem State.resetRegisters_dmemsz : (st.resetRegisters).dmemsz = st.dmemsz := rfl
@[simp] theorem State.resetRegisters_key : (st.resetRegisters).key = Vector.replicate 8 0 := rfl
@[simp] theorem State.resetRegisters_nonce : (st.resetRegisters).nonce = Vector.replicate 6 0 := rfl
@[simp] theorem State.resetRegisters_ctr : (st.resetRegisters).ctr = 0 := rfl
@[simp] theorem State.resetRegisters_subkey : (st.resetRegisters).subkey = Vector.replicate 8 0 := rfl
@[simp] theorem State.resetRegisters_s : (st.resetRegisters).s = Vector.replicate 16 0 := rfl
@[simp] theorem State.resetRegisters_ks : (st.resetRegisters).ks = Vector.replicate 16 0 := rfl
@[simp] theorem State.resetRegisters_pkey : (st.resetRegisters).pkey = Vector.replicate 8 0 := rfl
@[simp] theorem State.resetRegisters_pr : (st.resetRegisters).pr = Vector.replicate 4 0 := rfl
@[simp] theorem State.resetRegisters_ps : (st.resetRegisters).ps = Vector.replicate 4 0 := rfl
@[simp] theorem State.resetRegisters_ph : (st.resetRegisters).ph = Vector.replicate 5 0 := rfl
@[simp] theorem State.resetRegisters_pblk : (st.resetRegisters).pblk = Vector.replicate 4 0 := rfl
@[simp] theorem State.resetRegisters_tag : (st.resetRegisters).tag = Vector.replicate 4 0 := rfl
@[simp] theorem State.resetRegisters_ptag : (st.resetRegisters).ptag = Vector.replicate 4 0 := rfl
@[simp] theorem State.resetRegisters_aadPtr : (st.resetRegisters).aadPtr = 0 := rfl
@[simp] theorem State.resetRegisters_aadLen : (st.resetRegisters).aadLen = 0 := rfl
@[simp] theorem State.resetRegisters_srcPtr : (st.resetRegisters).srcPtr = 0 := rfl
@[simp] theorem State.resetRegisters_srcLen : (st.resetRegisters).srcLen = 0 := rfl
@[simp] theorem State.resetRegisters_dstPtr : (st.resetRegisters).dstPtr = 0 := rfl
@[simp] theorem State.resetRegisters_outLen : (st.resetRegisters).outLen = 0 := rfl
@[simp] theorem State.resetRegisters_dmem : (st.resetRegisters).dmem = st.dmem := rfl
@[simp] theorem State.resetRegisters_schedule : (st.resetRegisters).schedule = st.schedule := rfl
@[simp] theorem State.resetRegisters_draws : (st.resetRegisters).draws = st.draws := rfl
@[simp] theorem State.resetRegisters_reply : (st.resetRegisters).reply = st.reply := rfl

/-! ### `State.takeDraw` -/

@[simp] theorem State.takeDraw_cmd : (st.takeDraw).cmd = st.cmd := rfl
@[simp] theorem State.takeDraw_busy : (st.takeDraw).busy = st.busy := rfl
@[simp] theorem State.takeDraw_done : (st.takeDraw).done = st.done := rfl
@[simp] theorem State.takeDraw_ovr : (st.takeDraw).ovr = st.ovr := rfl
@[simp] theorem State.takeDraw_ctrexh : (st.takeDraw).ctrexh = st.ctrexh := rfl
@[simp] theorem State.takeDraw_authok : (st.takeDraw).authok = st.authok := rfl
@[simp] theorem State.takeDraw_report : (st.takeDraw).report = st.report := rfl
@[simp] theorem State.takeDraw_ie : (st.takeDraw).ie = st.ie := rfl
@[simp] theorem State.takeDraw_id : (st.takeDraw).id = st.id := rfl
@[simp] theorem State.takeDraw_dmemsz : (st.takeDraw).dmemsz = st.dmemsz := rfl
@[simp] theorem State.takeDraw_key : (st.takeDraw).key = st.key := rfl
@[simp] theorem State.takeDraw_nonce : (st.takeDraw).nonce = st.nonce := rfl
@[simp] theorem State.takeDraw_ctr : (st.takeDraw).ctr = st.ctr := rfl
@[simp] theorem State.takeDraw_subkey : (st.takeDraw).subkey = st.subkey := rfl
@[simp] theorem State.takeDraw_s : (st.takeDraw).s = st.s := rfl
@[simp] theorem State.takeDraw_ks : (st.takeDraw).ks = st.ks := rfl
@[simp] theorem State.takeDraw_pkey : (st.takeDraw).pkey = st.pkey := rfl
@[simp] theorem State.takeDraw_pr : (st.takeDraw).pr = st.pr := rfl
@[simp] theorem State.takeDraw_ps : (st.takeDraw).ps = st.ps := rfl
@[simp] theorem State.takeDraw_ph : (st.takeDraw).ph = st.ph := rfl
@[simp] theorem State.takeDraw_pblk : (st.takeDraw).pblk = st.pblk := rfl
@[simp] theorem State.takeDraw_tag : (st.takeDraw).tag = st.tag := rfl
@[simp] theorem State.takeDraw_ptag : (st.takeDraw).ptag = st.ptag := rfl
@[simp] theorem State.takeDraw_aadPtr : (st.takeDraw).aadPtr = st.aadPtr := rfl
@[simp] theorem State.takeDraw_aadLen : (st.takeDraw).aadLen = st.aadLen := rfl
@[simp] theorem State.takeDraw_srcPtr : (st.takeDraw).srcPtr = st.srcPtr := rfl
@[simp] theorem State.takeDraw_srcLen : (st.takeDraw).srcLen = st.srcLen := rfl
@[simp] theorem State.takeDraw_dstPtr : (st.takeDraw).dstPtr = st.dstPtr := rfl
@[simp] theorem State.takeDraw_outLen : (st.takeDraw).outLen = st.outLen := rfl
@[simp] theorem State.takeDraw_dmem : (st.takeDraw).dmem = st.dmem := rfl
@[simp] theorem State.takeDraw_schedule : (st.takeDraw).schedule = st.schedule := rfl
@[simp] theorem State.takeDraw_draws : (st.takeDraw).draws = st.draws + 1 := rfl
@[simp] theorem State.takeDraw_reply : (st.takeDraw).reply = st.reply := rfl

/-! ### `State.setReply` -/

@[simp] theorem State.setReply_cmd (r : Reply) : (st.setReply r).cmd = st.cmd := rfl
@[simp] theorem State.setReply_busy (r : Reply) : (st.setReply r).busy = st.busy := rfl
@[simp] theorem State.setReply_done (r : Reply) : (st.setReply r).done = st.done := rfl
@[simp] theorem State.setReply_ovr (r : Reply) : (st.setReply r).ovr = st.ovr := rfl
@[simp] theorem State.setReply_ctrexh (r : Reply) : (st.setReply r).ctrexh = st.ctrexh := rfl
@[simp] theorem State.setReply_authok (r : Reply) : (st.setReply r).authok = st.authok := rfl
@[simp] theorem State.setReply_report (r : Reply) : (st.setReply r).report = st.report := rfl
@[simp] theorem State.setReply_ie (r : Reply) : (st.setReply r).ie = st.ie := rfl
@[simp] theorem State.setReply_id (r : Reply) : (st.setReply r).id = st.id := rfl
@[simp] theorem State.setReply_dmemsz (r : Reply) : (st.setReply r).dmemsz = st.dmemsz := rfl
@[simp] theorem State.setReply_key (r : Reply) : (st.setReply r).key = st.key := rfl
@[simp] theorem State.setReply_nonce (r : Reply) : (st.setReply r).nonce = st.nonce := rfl
@[simp] theorem State.setReply_ctr (r : Reply) : (st.setReply r).ctr = st.ctr := rfl
@[simp] theorem State.setReply_subkey (r : Reply) : (st.setReply r).subkey = st.subkey := rfl
@[simp] theorem State.setReply_s (r : Reply) : (st.setReply r).s = st.s := rfl
@[simp] theorem State.setReply_ks (r : Reply) : (st.setReply r).ks = st.ks := rfl
@[simp] theorem State.setReply_pkey (r : Reply) : (st.setReply r).pkey = st.pkey := rfl
@[simp] theorem State.setReply_pr (r : Reply) : (st.setReply r).pr = st.pr := rfl
@[simp] theorem State.setReply_ps (r : Reply) : (st.setReply r).ps = st.ps := rfl
@[simp] theorem State.setReply_ph (r : Reply) : (st.setReply r).ph = st.ph := rfl
@[simp] theorem State.setReply_pblk (r : Reply) : (st.setReply r).pblk = st.pblk := rfl
@[simp] theorem State.setReply_tag (r : Reply) : (st.setReply r).tag = st.tag := rfl
@[simp] theorem State.setReply_ptag (r : Reply) : (st.setReply r).ptag = st.ptag := rfl
@[simp] theorem State.setReply_aadPtr (r : Reply) : (st.setReply r).aadPtr = st.aadPtr := rfl
@[simp] theorem State.setReply_aadLen (r : Reply) : (st.setReply r).aadLen = st.aadLen := rfl
@[simp] theorem State.setReply_srcPtr (r : Reply) : (st.setReply r).srcPtr = st.srcPtr := rfl
@[simp] theorem State.setReply_srcLen (r : Reply) : (st.setReply r).srcLen = st.srcLen := rfl
@[simp] theorem State.setReply_dstPtr (r : Reply) : (st.setReply r).dstPtr = st.dstPtr := rfl
@[simp] theorem State.setReply_outLen (r : Reply) : (st.setReply r).outLen = st.outLen := rfl
@[simp] theorem State.setReply_dmem (r : Reply) : (st.setReply r).dmem = st.dmem := rfl
@[simp] theorem State.setReply_schedule (r : Reply) : (st.setReply r).schedule = st.schedule := rfl
@[simp] theorem State.setReply_draws (r : Reply) : (st.setReply r).draws = st.draws := rfl
@[simp] theorem State.setReply_reply (r : Reply) : (st.setReply r).reply = some r := rfl

/-! ### `State.setSchedule` -/

@[simp] theorem State.setSchedule_cmd (es : List Event) : (st.setSchedule es).cmd = st.cmd := rfl
@[simp] theorem State.setSchedule_busy (es : List Event) : (st.setSchedule es).busy = st.busy := rfl
@[simp] theorem State.setSchedule_done (es : List Event) : (st.setSchedule es).done = st.done := rfl
@[simp] theorem State.setSchedule_ovr (es : List Event) : (st.setSchedule es).ovr = st.ovr := rfl
@[simp] theorem State.setSchedule_ctrexh (es : List Event) : (st.setSchedule es).ctrexh = st.ctrexh := rfl
@[simp] theorem State.setSchedule_authok (es : List Event) : (st.setSchedule es).authok = st.authok := rfl
@[simp] theorem State.setSchedule_report (es : List Event) : (st.setSchedule es).report = st.report := rfl
@[simp] theorem State.setSchedule_ie (es : List Event) : (st.setSchedule es).ie = st.ie := rfl
@[simp] theorem State.setSchedule_id (es : List Event) : (st.setSchedule es).id = st.id := rfl
@[simp] theorem State.setSchedule_dmemsz (es : List Event) : (st.setSchedule es).dmemsz = st.dmemsz := rfl
@[simp] theorem State.setSchedule_key (es : List Event) : (st.setSchedule es).key = st.key := rfl
@[simp] theorem State.setSchedule_nonce (es : List Event) : (st.setSchedule es).nonce = st.nonce := rfl
@[simp] theorem State.setSchedule_ctr (es : List Event) : (st.setSchedule es).ctr = st.ctr := rfl
@[simp] theorem State.setSchedule_subkey (es : List Event) : (st.setSchedule es).subkey = st.subkey := rfl
@[simp] theorem State.setSchedule_s (es : List Event) : (st.setSchedule es).s = st.s := rfl
@[simp] theorem State.setSchedule_ks (es : List Event) : (st.setSchedule es).ks = st.ks := rfl
@[simp] theorem State.setSchedule_pkey (es : List Event) : (st.setSchedule es).pkey = st.pkey := rfl
@[simp] theorem State.setSchedule_pr (es : List Event) : (st.setSchedule es).pr = st.pr := rfl
@[simp] theorem State.setSchedule_ps (es : List Event) : (st.setSchedule es).ps = st.ps := rfl
@[simp] theorem State.setSchedule_ph (es : List Event) : (st.setSchedule es).ph = st.ph := rfl
@[simp] theorem State.setSchedule_pblk (es : List Event) : (st.setSchedule es).pblk = st.pblk := rfl
@[simp] theorem State.setSchedule_tag (es : List Event) : (st.setSchedule es).tag = st.tag := rfl
@[simp] theorem State.setSchedule_ptag (es : List Event) : (st.setSchedule es).ptag = st.ptag := rfl
@[simp] theorem State.setSchedule_aadPtr (es : List Event) : (st.setSchedule es).aadPtr = st.aadPtr := rfl
@[simp] theorem State.setSchedule_aadLen (es : List Event) : (st.setSchedule es).aadLen = st.aadLen := rfl
@[simp] theorem State.setSchedule_srcPtr (es : List Event) : (st.setSchedule es).srcPtr = st.srcPtr := rfl
@[simp] theorem State.setSchedule_srcLen (es : List Event) : (st.setSchedule es).srcLen = st.srcLen := rfl
@[simp] theorem State.setSchedule_dstPtr (es : List Event) : (st.setSchedule es).dstPtr = st.dstPtr := rfl
@[simp] theorem State.setSchedule_outLen (es : List Event) : (st.setSchedule es).outLen = st.outLen := rfl
@[simp] theorem State.setSchedule_dmem (es : List Event) : (st.setSchedule es).dmem = st.dmem := rfl
@[simp] theorem State.setSchedule_schedule (es : List Event) : (st.setSchedule es).schedule = es := rfl
@[simp] theorem State.setSchedule_draws (es : List Event) : (st.setSchedule es).draws = st.draws := rfl
@[simp] theorem State.setSchedule_reply (es : List Event) : (st.setSchedule es).reply = st.reply := rfl

/-! ### `State.setOvr` -/

@[simp] theorem State.setOvr_cmd (b : Bool) : (st.setOvr b).cmd = st.cmd := rfl
@[simp] theorem State.setOvr_busy (b : Bool) : (st.setOvr b).busy = st.busy := rfl
@[simp] theorem State.setOvr_done (b : Bool) : (st.setOvr b).done = st.done := rfl
@[simp] theorem State.setOvr_ovr (b : Bool) : (st.setOvr b).ovr = b := rfl
@[simp] theorem State.setOvr_ctrexh (b : Bool) : (st.setOvr b).ctrexh = st.ctrexh := rfl
@[simp] theorem State.setOvr_authok (b : Bool) : (st.setOvr b).authok = st.authok := rfl
@[simp] theorem State.setOvr_report (b : Bool) : (st.setOvr b).report = st.report := rfl
@[simp] theorem State.setOvr_ie (b : Bool) : (st.setOvr b).ie = st.ie := rfl
@[simp] theorem State.setOvr_id (b : Bool) : (st.setOvr b).id = st.id := rfl
@[simp] theorem State.setOvr_dmemsz (b : Bool) : (st.setOvr b).dmemsz = st.dmemsz := rfl
@[simp] theorem State.setOvr_key (b : Bool) : (st.setOvr b).key = st.key := rfl
@[simp] theorem State.setOvr_nonce (b : Bool) : (st.setOvr b).nonce = st.nonce := rfl
@[simp] theorem State.setOvr_ctr (b : Bool) : (st.setOvr b).ctr = st.ctr := rfl
@[simp] theorem State.setOvr_subkey (b : Bool) : (st.setOvr b).subkey = st.subkey := rfl
@[simp] theorem State.setOvr_s (b : Bool) : (st.setOvr b).s = st.s := rfl
@[simp] theorem State.setOvr_ks (b : Bool) : (st.setOvr b).ks = st.ks := rfl
@[simp] theorem State.setOvr_pkey (b : Bool) : (st.setOvr b).pkey = st.pkey := rfl
@[simp] theorem State.setOvr_pr (b : Bool) : (st.setOvr b).pr = st.pr := rfl
@[simp] theorem State.setOvr_ps (b : Bool) : (st.setOvr b).ps = st.ps := rfl
@[simp] theorem State.setOvr_ph (b : Bool) : (st.setOvr b).ph = st.ph := rfl
@[simp] theorem State.setOvr_pblk (b : Bool) : (st.setOvr b).pblk = st.pblk := rfl
@[simp] theorem State.setOvr_tag (b : Bool) : (st.setOvr b).tag = st.tag := rfl
@[simp] theorem State.setOvr_ptag (b : Bool) : (st.setOvr b).ptag = st.ptag := rfl
@[simp] theorem State.setOvr_aadPtr (b : Bool) : (st.setOvr b).aadPtr = st.aadPtr := rfl
@[simp] theorem State.setOvr_aadLen (b : Bool) : (st.setOvr b).aadLen = st.aadLen := rfl
@[simp] theorem State.setOvr_srcPtr (b : Bool) : (st.setOvr b).srcPtr = st.srcPtr := rfl
@[simp] theorem State.setOvr_srcLen (b : Bool) : (st.setOvr b).srcLen = st.srcLen := rfl
@[simp] theorem State.setOvr_dstPtr (b : Bool) : (st.setOvr b).dstPtr = st.dstPtr := rfl
@[simp] theorem State.setOvr_outLen (b : Bool) : (st.setOvr b).outLen = st.outLen := rfl
@[simp] theorem State.setOvr_dmem (b : Bool) : (st.setOvr b).dmem = st.dmem := rfl
@[simp] theorem State.setOvr_schedule (b : Bool) : (st.setOvr b).schedule = st.schedule := rfl
@[simp] theorem State.setOvr_draws (b : Bool) : (st.setOvr b).draws = st.draws := rfl
@[simp] theorem State.setOvr_reply (b : Bool) : (st.setOvr b).reply = st.reply := rfl

/-! ### `State.setDone` -/

@[simp] theorem State.setDone_cmd (b : Bool) : (st.setDone b).cmd = st.cmd := rfl
@[simp] theorem State.setDone_busy (b : Bool) : (st.setDone b).busy = st.busy := rfl
@[simp] theorem State.setDone_done (b : Bool) : (st.setDone b).done = b := rfl
@[simp] theorem State.setDone_ovr (b : Bool) : (st.setDone b).ovr = st.ovr := rfl
@[simp] theorem State.setDone_ctrexh (b : Bool) : (st.setDone b).ctrexh = st.ctrexh := rfl
@[simp] theorem State.setDone_authok (b : Bool) : (st.setDone b).authok = st.authok := rfl
@[simp] theorem State.setDone_report (b : Bool) : (st.setDone b).report = st.report := rfl
@[simp] theorem State.setDone_ie (b : Bool) : (st.setDone b).ie = st.ie := rfl
@[simp] theorem State.setDone_id (b : Bool) : (st.setDone b).id = st.id := rfl
@[simp] theorem State.setDone_dmemsz (b : Bool) : (st.setDone b).dmemsz = st.dmemsz := rfl
@[simp] theorem State.setDone_key (b : Bool) : (st.setDone b).key = st.key := rfl
@[simp] theorem State.setDone_nonce (b : Bool) : (st.setDone b).nonce = st.nonce := rfl
@[simp] theorem State.setDone_ctr (b : Bool) : (st.setDone b).ctr = st.ctr := rfl
@[simp] theorem State.setDone_subkey (b : Bool) : (st.setDone b).subkey = st.subkey := rfl
@[simp] theorem State.setDone_s (b : Bool) : (st.setDone b).s = st.s := rfl
@[simp] theorem State.setDone_ks (b : Bool) : (st.setDone b).ks = st.ks := rfl
@[simp] theorem State.setDone_pkey (b : Bool) : (st.setDone b).pkey = st.pkey := rfl
@[simp] theorem State.setDone_pr (b : Bool) : (st.setDone b).pr = st.pr := rfl
@[simp] theorem State.setDone_ps (b : Bool) : (st.setDone b).ps = st.ps := rfl
@[simp] theorem State.setDone_ph (b : Bool) : (st.setDone b).ph = st.ph := rfl
@[simp] theorem State.setDone_pblk (b : Bool) : (st.setDone b).pblk = st.pblk := rfl
@[simp] theorem State.setDone_tag (b : Bool) : (st.setDone b).tag = st.tag := rfl
@[simp] theorem State.setDone_ptag (b : Bool) : (st.setDone b).ptag = st.ptag := rfl
@[simp] theorem State.setDone_aadPtr (b : Bool) : (st.setDone b).aadPtr = st.aadPtr := rfl
@[simp] theorem State.setDone_aadLen (b : Bool) : (st.setDone b).aadLen = st.aadLen := rfl
@[simp] theorem State.setDone_srcPtr (b : Bool) : (st.setDone b).srcPtr = st.srcPtr := rfl
@[simp] theorem State.setDone_srcLen (b : Bool) : (st.setDone b).srcLen = st.srcLen := rfl
@[simp] theorem State.setDone_dstPtr (b : Bool) : (st.setDone b).dstPtr = st.dstPtr := rfl
@[simp] theorem State.setDone_outLen (b : Bool) : (st.setDone b).outLen = st.outLen := rfl
@[simp] theorem State.setDone_dmem (b : Bool) : (st.setDone b).dmem = st.dmem := rfl
@[simp] theorem State.setDone_schedule (b : Bool) : (st.setDone b).schedule = st.schedule := rfl
@[simp] theorem State.setDone_draws (b : Bool) : (st.setDone b).draws = st.draws := rfl
@[simp] theorem State.setDone_reply (b : Bool) : (st.setDone b).reply = st.reply := rfl

/-! ### `State.setIe` -/

@[simp] theorem State.setIe_cmd (b : Bool) : (st.setIe b).cmd = st.cmd := rfl
@[simp] theorem State.setIe_busy (b : Bool) : (st.setIe b).busy = st.busy := rfl
@[simp] theorem State.setIe_done (b : Bool) : (st.setIe b).done = st.done := rfl
@[simp] theorem State.setIe_ovr (b : Bool) : (st.setIe b).ovr = st.ovr := rfl
@[simp] theorem State.setIe_ctrexh (b : Bool) : (st.setIe b).ctrexh = st.ctrexh := rfl
@[simp] theorem State.setIe_authok (b : Bool) : (st.setIe b).authok = st.authok := rfl
@[simp] theorem State.setIe_report (b : Bool) : (st.setIe b).report = st.report := rfl
@[simp] theorem State.setIe_ie (b : Bool) : (st.setIe b).ie = b := rfl
@[simp] theorem State.setIe_id (b : Bool) : (st.setIe b).id = st.id := rfl
@[simp] theorem State.setIe_dmemsz (b : Bool) : (st.setIe b).dmemsz = st.dmemsz := rfl
@[simp] theorem State.setIe_key (b : Bool) : (st.setIe b).key = st.key := rfl
@[simp] theorem State.setIe_nonce (b : Bool) : (st.setIe b).nonce = st.nonce := rfl
@[simp] theorem State.setIe_ctr (b : Bool) : (st.setIe b).ctr = st.ctr := rfl
@[simp] theorem State.setIe_subkey (b : Bool) : (st.setIe b).subkey = st.subkey := rfl
@[simp] theorem State.setIe_s (b : Bool) : (st.setIe b).s = st.s := rfl
@[simp] theorem State.setIe_ks (b : Bool) : (st.setIe b).ks = st.ks := rfl
@[simp] theorem State.setIe_pkey (b : Bool) : (st.setIe b).pkey = st.pkey := rfl
@[simp] theorem State.setIe_pr (b : Bool) : (st.setIe b).pr = st.pr := rfl
@[simp] theorem State.setIe_ps (b : Bool) : (st.setIe b).ps = st.ps := rfl
@[simp] theorem State.setIe_ph (b : Bool) : (st.setIe b).ph = st.ph := rfl
@[simp] theorem State.setIe_pblk (b : Bool) : (st.setIe b).pblk = st.pblk := rfl
@[simp] theorem State.setIe_tag (b : Bool) : (st.setIe b).tag = st.tag := rfl
@[simp] theorem State.setIe_ptag (b : Bool) : (st.setIe b).ptag = st.ptag := rfl
@[simp] theorem State.setIe_aadPtr (b : Bool) : (st.setIe b).aadPtr = st.aadPtr := rfl
@[simp] theorem State.setIe_aadLen (b : Bool) : (st.setIe b).aadLen = st.aadLen := rfl
@[simp] theorem State.setIe_srcPtr (b : Bool) : (st.setIe b).srcPtr = st.srcPtr := rfl
@[simp] theorem State.setIe_srcLen (b : Bool) : (st.setIe b).srcLen = st.srcLen := rfl
@[simp] theorem State.setIe_dstPtr (b : Bool) : (st.setIe b).dstPtr = st.dstPtr := rfl
@[simp] theorem State.setIe_outLen (b : Bool) : (st.setIe b).outLen = st.outLen := rfl
@[simp] theorem State.setIe_dmem (b : Bool) : (st.setIe b).dmem = st.dmem := rfl
@[simp] theorem State.setIe_schedule (b : Bool) : (st.setIe b).schedule = st.schedule := rfl
@[simp] theorem State.setIe_draws (b : Bool) : (st.setIe b).draws = st.draws := rfl
@[simp] theorem State.setIe_reply (b : Bool) : (st.setIe b).reply = st.reply := rfl

end Sys2Proof.Machine
end

