-- ==== Sys2Proof/Laws/Machine.lean ====
section
/-!
SUPPORT. One lemma per shared operation that says once everything it can do: the engine's accesses to DMEM, the AEAD
commands past their checks, the engine's turn and one step.
-/

namespace Sys2Proof.Machine

/-! ## The engine's accesses (20_memory.md R68) -/

theorem memRead_ok (s : State) (off n : Nat) (h : off + n ≤ s.dmemBytes) :
    memRead s off n = .ok (s.dmem.readBytes off n) := by simp [memRead, h]

theorem memWrite_ok (s : State) (off : Nat) (b : List Byte) (h : off + b.length ≤ s.dmemBytes) :
    memWrite s off b = .ok (s.setDmem (s.dmem.writeBytes off b)) := by simp [memWrite, h]

@[simp] theorem engineOutcome_ok (t : State) : engineOutcome (.ok t) = .next t := rfl

/-! ## Lengths of the AEAD functions (44_aead.md R214) -/

@[simp] theorem length_aeadStream (k : Vector Word 8) (n : Vector Word 6) (m : Nat) : (aeadStream k n m).length = m := by
  simp [aeadStream]

@[simp] theorem length_aeadTag (k : Vector Word 8) (n : Vector Word 6) (a x : List Byte) : (aeadTag k n a x).length = 16 := by
  simp [aeadTag]

@[simp] theorem length_xenc (k : Vector Word 8) (n : Vector Word 6) (a p : List Byte) :
    (xenc k n a p).length = p.length + 16 := by simp [xenc]

theorem length_xdec (k : Vector Word 8) (n : Vector Word 6) (a c p : List Byte) (h : xdec k n a c = some p) :
    p.length = c.length - 16 := by
  simp only [xdec] at h
  split at h
  · simp only [Option.some.injEq] at h
    subst h
    simp
  · simp at h

/-! ## The argument checks (44_aead.md R202, R204) -/

/-- The checks of AEAD_ENC pass exactly when every buffer fits and source and destination coincide or are disjoint: the
LENGTH check never fires (44_aead.md R210). -/
theorem encChecks_none_iff (s : State) : encChecks s = none ↔
    (s.aadPtr.toNat + s.aadLen.toNat ≤ s.dmemBytes ∧ s.srcPtr.toNat + s.srcLen.toNat ≤ s.dmemBytes ∧
      s.dstPtr.toNat + s.srcLen.toNat + 16 ≤ s.dmemBytes) ∧
    (s.srcPtr = s.dstPtr ∨ disjoint s.srcPtr.toNat s.srcLen.toNat s.dstPtr.toNat (s.srcLen.toNat + 16) = true) := by
  have hl := s.srcLen.isLt
  have hc : ¬ceilDiv s.srcLen.toNat 64 > 2 ^ 32 - 1 := by
    simp only [ceilDiv]
    omega
  simp only [encChecks, if_neg hc]
  split
  · simp only [reduceCtorEq, false_iff]
    omega
  · split
    · simp only [reduceCtorEq, false_iff]
      tauto
    · simp only [true_iff]
      refine ⟨by omega, by tauto⟩

theorem decChecks_none_iff (s : State) : decChecks s = none ↔
    16 ≤ s.srcLen.toNat ∧
    (s.aadPtr.toNat + s.aadLen.toNat ≤ s.dmemBytes ∧ s.srcPtr.toNat + s.srcLen.toNat ≤ s.dmemBytes ∧
      s.dstPtr.toNat + (s.srcLen.toNat - 16) ≤ s.dmemBytes) ∧
    (s.srcPtr = s.dstPtr ∨ disjoint s.srcPtr.toNat s.srcLen.toNat s.dstPtr.toNat (s.srcLen.toNat - 16) = true) := by
  have hl := s.srcLen.isLt
  have hc : ¬ceilDiv (s.srcLen.toNat - 16) 64 > 2 ^ 32 - 1 := by
    simp only [ceilDiv]
    omega
  simp only [decChecks, if_neg hc]
  split
  · simp only [reduceCtorEq, false_iff]
    omega
  · split
    · simp only [reduceCtorEq, false_iff]
      omega
    · split
      · simp only [reduceCtorEq, false_iff]
        tauto
      · simp only [true_iff]
        refine ⟨by omega, by omega, by tauto⟩

/-- `DISJOINT` says that no byte lies in both ranges (44_aead.md section 2). -/
theorem disjoint_iff (p m q n : Nat) : disjoint p m q n = true ↔ ¬∃ a, (p ≤ a ∧ a < p + m) ∧ (q ≤ a ∧ a < q + n) := by
  simp only [disjoint, Bool.or_eq_true, decide_eq_true_eq]
  constructor
  · rintro h ⟨a, h1, h2⟩
    omega
  · intro h
    by_contra hn
    exact h ⟨max p q, by omega, by omega⟩

/-! ## The AEAD commands past their checks -/

/-- The associated data an AEAD command reads. -/
abbrev aadBytes (s : State) : List Byte := s.dmem.readBytes s.aadPtr.toNat s.aadLen.toNat

/-- The source bytes an AEAD command reads. -/
abbrev srcBytes (s : State) : List Byte := s.dmem.readBytes s.srcPtr.toNat s.srcLen.toNat

theorem encOutput_ok (s : State) (h : encChecks s = none) :
    encOutput s = .ok (xenc s.key s.nonce (aadBytes s) (srcBytes s)) := by
  obtain ⟨⟨h1, h2, _⟩, _⟩ := (encChecks_none_iff s).mp h
  simp only [encOutput, memRead_ok s _ _ h1, memRead_ok s _ _ h2]
  rfl

theorem decOutput_ok (s : State) (h : decChecks s = none) :
    decOutput s = .ok (xdec s.key s.nonce (aadBytes s) (srcBytes s)) := by
  obtain ⟨_, ⟨h1, h2, _⟩, _⟩ := (decChecks_none_iff s).mp h
  simp only [decOutput, memRead_ok s _ _ h1, memRead_ok s _ _ h2]
  rfl

/-- AEAD_ENC: a failed check, or the whole effect of 44_aead.md R203. -/
theorem execAeadEnc_cases (s : State) :
    (∃ c, encChecks s = some c ∧ execAeadEnc s = .next (s.finish c)) ∨
    (encChecks s = none ∧ ∃ out, out = xenc s.key s.nonce (aadBytes s) (srcBytes s) ∧
      execAeadEnc s = .next (((((s.setDmem (s.dmem.writeBytes s.dstPtr.toNat out)).setTag
        (wordsLe 4 (out.drop s.srcLen.toNat))).setOutLen (s.srcLen + 16)).zeroiseDatapath).finish .ok)) := by
  cases h : encChecks s with
  | some c => exact .inl ⟨c, rfl, by simp [execAeadEnc, h]⟩
  | none =>
    obtain ⟨⟨_, _, h3⟩, _⟩ := (encChecks_none_iff s).mp h
    refine .inr ⟨rfl, _, rfl, ?_⟩
    have hw : s.dstPtr.toNat + (xenc s.key s.nonce (aadBytes s) (srcBytes s)).length ≤ s.dmemBytes := by
      simp only [length_xenc, Memory.length_readBytes]
      omega
    simp only [execAeadEnc, h, encRun, encOutput_ok s h]
    rw [show ∀ (x : List Byte) (f : List Byte → Except Fault State), (Except.ok x >>= f) = f x from fun _ _ => rfl,
      memWrite_ok s _ _ hw]
    rfl

/-- AEAD_DEC: a failed check, a mismatch that writes nothing (R206), or the whole effect of 44_aead.md R205. -/
theorem execAeadDec_cases (s : State) :
    (∃ c, decChecks s = some c ∧ execAeadDec s = .next (s.finish c)) ∨
    (decChecks s = none ∧ xdec s.key s.nonce (aadBytes s) (srcBytes s) = none ∧
      execAeadDec s = .next ((((s.setTag (Vector.replicate 4 0)).setOutLen 0).zeroiseDatapath).finish
        .authenticationFailure)) ∨
    (decChecks s = none ∧ ∃ p, xdec s.key s.nonce (aadBytes s) (srcBytes s) = some p ∧
      p.length = s.srcLen.toNat - 16 ∧
      execAeadDec s = .next ((((((s.setDmem (s.dmem.writeBytes s.dstPtr.toNat p)).setTag
        (Vector.replicate 4 0)).setOutLen (s.srcLen - 16)).setAuthok true).zeroiseDatapath).finish .ok)) := by
  have hb : ∀ (x : Option (List Byte)) (f : Option (List Byte) → Except Fault State), (Except.ok x >>= f) = f x :=
    fun _ _ => rfl
  cases h : decChecks s with
  | some c => exact .inl ⟨c, rfl, by simp [execAeadDec, h]⟩
  | none =>
    obtain ⟨_, ⟨_, _, h3⟩, _⟩ := (decChecks_none_iff s).mp h
    cases hx : xdec s.key s.nonce (aadBytes s) (srcBytes s) with
    | none =>
      refine .inr (.inl ⟨rfl, rfl, ?_⟩)
      simp only [execAeadDec, h, decRun, decOutput_ok s h, hb, hx]
      rfl
    | some p =>
      have hp : p.length = s.srcLen.toNat - 16 := by simpa using length_xdec _ _ _ _ _ hx
      refine .inr (.inr ⟨rfl, p, rfl, hp, ?_⟩)
      have hw : s.dstPtr.toNat + p.length ≤ s.dmemBytes := by omega
      simp only [execAeadDec, h, decRun, decOutput_ok s h, hb, hx, memWrite_ok s _ _ hw]
      rfl

/-! ## The engine's turn and one step -/

theorem inFlight_eq_some (s : State) (w : Word) : s.inFlight = some w ↔ s.busy = true ∧ s.cmd = w := by
  simp [State.inFlight]

/-- The engine's turn: idle, an unassigned opcode, a reserved bit, or a command. -/
theorem engineStep_cases (s : State) :
    (s.busy = false ∧ engineStep s = .next s) ∨
    (s.busy = true ∧ decode s.cmd = .unassigned ∧ engineStep s = .next (s.finish .unassigned)) ∨
    (s.busy = true ∧ decode s.cmd = .reservedBit ∧ engineStep s = .next (s.finish .reservedBit)) ∨
    (s.busy = true ∧ ∃ i, decode s.cmd = .command i ∧ engineStep s = exec i s) := by
  cases hb : s.busy with
  | false => exact .inl ⟨rfl, by simp [engineStep, State.inFlight, hb]⟩
  | true =>
    cases hd : decode s.cmd with
    | unassigned =>
      exact .inr (.inl ⟨rfl, rfl, by simp [engineStep, State.inFlight, hb, hd, rejectUnassigned]⟩)
    | reservedBit =>
      exact .inr (.inr (.inl ⟨rfl, rfl, by simp [engineStep, State.inFlight, hb, hd, rejectReservedBit]⟩))
    | command i => exact .inr (.inr (.inr ⟨rfl, i, rfl, by simp [engineStep, State.inFlight, hb, hd]⟩))

/-- One step: the engine's turn, or the next event of the environment. -/
theorem step_cases (s : State) :
    ((s.schedule = [] ∧ step s = engineStep s) ∨
      ∃ es, s.schedule = .engine :: es ∧ step s = engineStep (s.setSchedule es)) ∨
    (∃ off es, s.schedule = .read off :: es ∧ step s = .next (hostRead (s.setSchedule es) off)) ∨
    (∃ off v strb es, s.schedule = .write off v strb :: es ∧ step s = .next (hostWrite (s.setSchedule es) off v strb)) ∨
    (∃ es, s.schedule = .powerOn :: es ∧ step s = .next (powerOnReset (s.setSchedule es))) := by
  cases h : s.schedule with
  | nil => exact .inl (.inl ⟨rfl, by simp [step, h]⟩)
  | cons e es =>
    cases e with
    | engine => exact .inl (.inr ⟨es, rfl, by simp [step, h]⟩)
    | read off => exact .inr (.inl ⟨off, es, rfl, by simp [step, h]⟩)
    | write off v strb => exact .inr (.inr (.inl ⟨off, v, strb, es, rfl, by simp [step, h]⟩))
    | powerOn => exact .inr (.inr (.inr ⟨es, rfl, by simp [step, h]⟩))

/-- The word placed by `withFetchWord` is the one the next step runs. -/
theorem step_withFetchWord (s : State) (nbits w : Nat) :
    step (s.withFetchWord nbits w) = engineStep (s.accept (tableWord nbits w)) := by
  cases h : s.schedule with
  | nil => simp [State.withFetchWord, State.engineNext, h, step]
  | cons e es =>
    have hs : (s.accept (tableWord nbits w)).setSchedule (e :: es) = s.accept (tableWord nbits w) := by
      rw [← h]
      rfl
    simp only [State.withFetchWord, State.engineNext, State.accept_schedule, h, step, State.setSchedule_schedule]
    rw [← hs]
    rfl

/-! ## Host accesses -/

/-- The three kinds of offset (20_memory.md R61). -/
theorem targetOf_cases (s : State) (off : Nat) :
    (dmemBase ≤ off ∧ off < dmemBase + s.dmemBytes ∧ targetOf s off = .dmem (off - dmemBase)) ∨
    (¬(dmemBase ≤ off ∧ off < dmemBase + s.dmemBytes) ∧ ∃ r ∈ regMap, r.offset ≤ off ∧ off < r.offset + 4 * r.words ∧
      targetOf s off = .reg r ((off - r.offset) / 4)) ∨
    (¬(dmemBase ≤ off ∧ off < dmemBase + s.dmemBytes) ∧
      (∀ r ∈ regMap, ¬(r.offset ≤ off ∧ off < r.offset + 4 * r.words)) ∧ targetOf s off = .reserved) := by
  by_cases h : dmemBase ≤ off ∧ off < dmemBase + s.dmemBytes
  · exact .inl ⟨h.1, h.2, by rw [targetOf, if_pos h]⟩
  · refine .inr ?_
    cases hf : regMap.find? (fun r => r.offset ≤ off && off < r.offset + 4 * r.words) with
    | some r =>
      have hp := List.find?_some hf
      simp only [Bool.and_eq_true, decide_eq_true_eq] at hp
      exact .inl ⟨h, r, List.mem_of_find?_eq_some hf, hp.1, hp.2, by rw [targetOf, if_neg h, hf]⟩
    | none =>
      refine .inr ⟨h, fun r hr hc => ?_, by rw [targetOf, if_neg h, hf]⟩
      have hp := List.find?_eq_none.mp hf r hr
      simp only [Bool.and_eq_true, decide_eq_true_eq] at hp
      exact hp hc

/-- What a host write can do (20_memory.md R62, 70_reset_and_hazards.md R277). -/
theorem hostWrite_cases (s : State) (off v : Word) (strb : BitVec 4) :
    hostWrite s off v strb = s.setReply (.write .slverr) ∨
    hostWrite s off v strb = s.setReply (.write .okay) ∨
    (∃ a, off.toNat = dmemBase + a ∧ a < s.dmemBytes ∧ off.toNat % 4 = 0 ∧
      hostWrite s off v strb = (dmemWrite s a v strb).setReply (.write .okay)) ∨
    (∃ r i, targetOf s off.toNat = .reg r i ∧ off.toNat % 4 = 0 ∧ strb = 0b1111#4 ∧
      hostWrite s off v strb = (registerWrite s r.name i v).setReply (.write .okay)) := by
  by_cases h4 : off.toNat % 4 ≠ 0
  · exact .inl (by simp [hostWrite, h4])
  · have h4' : off.toNat % 4 = 0 := by omega
    cases ht : targetOf s off.toNat with
    | dmem a =>
      refine .inr (.inr (.inl ⟨a, ?_, ?_, h4', by simp [hostWrite, h4', ht]⟩))
      all_goals
        unfold targetOf at ht
        split at ht
        · simp only [Target.dmem.injEq] at ht
          omega
        · split at ht <;> simp at ht
    | reg r i =>
      by_cases hs : strb = 0b1111#4
      · exact .inr (.inr (.inr ⟨r, i, rfl, h4', hs, by simp [hostWrite, h4', ht, hs]⟩))
      · exact .inl (by simp [hostWrite, h4', ht, hs])
    | reserved =>
      by_cases hs : strb = 0b1111#4
      · exact .inr (.inl (by simp [hostWrite, h4', ht, hs]))
      · exact .inl (by simp [hostWrite, h4', ht, hs])

/-- What a host read can do: an answer and nothing else, or an answer that is a draw (20_memory.md R66,
70_reset_and_hazards.md R278). -/
theorem hostRead_cases (s : State) (off : Word) :
    (∃ r, hostRead s off = s.setReply r) ∨ (s.busy = true ∧ hostRead s off = drawnReply s) := by
  by_cases h4 : off.toNat % 4 ≠ 0
  · exact .inl ⟨_, by simp only [hostRead, if_pos h4]; rfl⟩
  · cases ht : targetOf s off.toNat with
    | dmem a =>
      cases hb : s.busy with
      | true => exact .inr ⟨rfl, by simp only [hostRead, if_neg h4, ht, hb, if_true]⟩
      | false => exact .inl ⟨_, by simp only [hostRead, if_neg h4, ht, hb, Bool.false_eq_true, if_false]; rfl⟩
    | reg r i =>
      by_cases hc : (s.busy && !readsWhileBusy r.name) = true
      · exact .inr ⟨by simp_all, by simp only [hostRead, if_neg h4, ht, if_pos hc]⟩
      · exact .inl ⟨_, by simp only [hostRead, if_neg h4, ht, if_neg hc]; rfl⟩
    | reserved => exact .inl ⟨_, by simp only [hostRead, if_neg h4, ht]; rfl⟩

end Sys2Proof.Machine
end

