-- ==== Sys2Proof/Laws/Commands.lean ====
section
/-!
SUPPORT. One lemma per shared function of the commands: what each quarter-round step does to each word, the counter
advance, and how the byte strings and the numbers of the register arrays agree.
-/

namespace Sys2Proof.Machine

/-! ## The whole effect of each command that cannot fail -/

theorem exec_nop (s : State) : exec .nop s = .next (s.finish .ok) := rfl

theorem exec_qr (a b c d : Fin 16) (s : State) :
    exec (.qr a b c d) s = .next ((s.setS (qrf s.s a b c d)).finish .ok) := rfl

theorem exec_colrnd (s : State) : exec .colrnd s = .next ((s.setS (columnRound s.s)).finish .ok) := rfl

theorem exec_diagrnd (s : State) : exec .diagrnd s = .next ((s.setS (diagonalRound s.s)).finish .ok) := rfl

theorem exec_dblrnd (s : State) : exec .dblrnd s = .next ((s.setS (doubleRound s.s)).finish .ok) := rfl

theorem exec_perm (s : State) : exec .perm s = .next ((s.setS (permF s.s)).finish .ok) := rfl

theorem exec_hchacha (s : State) :
    exec .hchacha s = .next (((s.setS (hchachaState s.key (noncePrefix s.nonce))).setSubkey
      (hchachaSubkey s.key (noncePrefix s.nonce))).finish .ok) := rfl

theorem exec_pinit (p : Bool) (s : State) :
    exec (.pinit p) s = .next (((s.setPolyKey (limbs 4 (polyR (pinitKey s p))) (limbs 4 (polyS (pinitKey s p)))).setPh
      (limbs 5 0)).finish .ok) := rfl

theorem exec_pblk (n : Nat) (s : State) :
    exec (.pblk n) s = .next ((s.setPh (limbs 5 (((numOf s.ph.toList + (leInt (pblkBytes s n) + 2 ^ (8 * n))) *
      numOf s.pr.toList) % polyP))).finish .ok) := rfl

theorem exec_pfin (s : State) :
    exec .pfin s = .next ((s.setTag (limbs 4 (polyTag (numOf s.ph.toList) (numOf s.ps.toList)))).finish .ok) := rfl

theorem exec_zeroize_true (s : State) :
    exec (.zeroize true) s = .next ((s.zeroiseKeys.setDmem Memory.zeroed).finish .ok) := rfl

theorem exec_zeroize_false (s : State) : exec (.zeroize false) s = .next (s.zeroiseKeys.finish .ok) := rfl

/-- KSBLK: the counter exhausted, or the block and, with INC, the counter advance. -/
theorem exec_ksblk (ksel nsel inc : Bool) (s : State) :
    exec (.ksblk ksel nsel inc) s =
      if s.ctrexh = true then .next (s.finish .counterExhausted)
      else .next ((if inc = true then advanceCounter ((s.setS (chachaBlock (ksblkKey s ksel) s.ctr (ksblkNonce s nsel))).setKs
          (chachaBlock (ksblkKey s ksel) s.ctr (ksblkNonce s nsel)))
        else (s.setS (chachaBlock (ksblkKey s ksel) s.ctr (ksblkNonce s nsel))).setKs
          (chachaBlock (ksblkKey s ksel) s.ctr (ksblkNonce s nsel))).finish .ok) := rfl

/-! ## The permutation (40_permutation.md) -/

theorem rotl_eq_rotateLeft (x : Word) (n : Nat) (h : n < 32) : rotl x n = x.rotateLeft n := by
  rw [rotl, BitVec.rotateLeft_def, Nat.mod_eq_of_lt h]

/-- `S[x] <- S[x] + S[y]` word by word. -/
theorem getElem_addInto (v : Vector Word 16) (x y k : Fin 16) :
    (addInto v x y)[k] = if k = x then v[x] + v[y] else v[k] := by
  by_cases h : k = x
  · subst h
    simp [addInto]
  · have hv : x.val ≠ k.val := fun e => h (Fin.ext e.symm)
    simp [addInto, h, hv]

/-- `S[x] <- rotl(S[x] ^ S[y], n)` word by word. -/
theorem getElem_xorRotInto (v : Vector Word 16) (x y k : Fin 16) (n : Nat) (hn : n < 32) :
    (xorRotInto v x y n)[k] = if k = x then (v[x] ^^^ v[y]).rotateLeft n else v[k] := by
  by_cases h : k = x
  · subst h
    simp [xorRotInto, rotl_eq_rotateLeft _ _ hn]
  · have hv : x.val ≠ k.val := fun e => h (Fin.ext e.symm)
    simp [xorRotInto, h, hv]

theorem doubleRounds_succ (n : Nat) (v : Vector Word 16) : doubleRounds (n + 1) v = doubleRounds n (doubleRound v) := rfl

/-- A second command on S leaves what it would leave alone, but for S. -/
theorem finish_setS_finish (s : State) (d e : Vector Word 16) :
    (((s.setS d).finish .ok).setS e).finish .ok = (s.setS e).finish .ok := rfl

/-! ## The counter (42_keystream.md R152) -/

/-- The counter advance in one line: add 1, and past 0xFFFFFFFF the counter is exhausted. -/
theorem advanceCounter_eq (s : State) :
    advanceCounter s = s.setCounter (s.ctr + 1) (s.ctrexh || s.ctr == 0xFFFFFFFF#32) := by
  unfold advanceCounter
  split
  · rename_i h
    simp [h]
  · rename_i h
    simp [beq_eq_false_iff_ne.mpr h]

/-! ## Byte strings and register arrays (10_state.md R42) -/

theorem leInt_append (a b : List Byte) : leInt (a ++ b) = leInt a + 2 ^ (8 * a.length) * leInt b := by
  induction a with
  | nil => simp [leInt]
  | cons x a ih =>
    have h : 2 ^ (8 * (a.length + 1)) = 256 * 2 ^ (8 * a.length) := by rw [Nat.mul_add, Nat.pow_add]; omega
    simp only [List.cons_append, leInt, ih, List.length_cons, h]
    ring

/-- The bytes of a register array and its number agree. -/
theorem leInt_bytesLe (ws : List Word) : leInt (bytesLe ws) = numOf ws := by
  induction ws with
  | nil => rfl
  | cons w ws ih =>
    have h : bytesLe (w :: ws) = leBytes w.toNat 4 ++ bytesLe ws := by simp [bytesLe]
    have hw := w.isLt
    rw [h, leInt_append, leInt_leBytes, ih, length_leBytes, numOf]
    omega

/-- Byte j of `le_bytes(v, n)`. -/
theorem getD_leBytes (v n j : Nat) (h : j < n) : (leBytes v n).getD j 0 = BitVec.ofNat 8 (v / 256 ^ j) := by
  induction n generalizing v j with
  | zero => omega
  | succ n ih =>
    cases j with
    | zero => simp [leBytes]
    | succ j =>
      rw [leBytes, List.getD_cons_succ, ih _ _ (by omega), Nat.div_div_eq_div_mul, Nat.pow_succ']

/-- Byte j of a register array: bits 8*(j mod 4)+7 to 8*(j mod 4) of word j div 4 (10_state.md R42). -/
theorem getD_bytesLe (ws : List Word) (j : Nat) :
    (bytesLe ws).getD j 0 = (ws.getD (j / 4) 0).extractLsb' (8 * (j % 4)) 8 := by
  induction ws generalizing j with
  | nil => simp [bytesLe]
  | cons w ws ih =>
    have h : bytesLe (w :: ws) = leBytes w.toNat 4 ++ bytesLe ws := by simp [bytesLe]
    rw [h]
    by_cases hj : j < 4
    · have h0 : j / 4 = 0 := by omega
      have hm : j % 4 = j := by omega
      rw [List.getD_append _ _ _ _ (by simpa using hj), getD_leBytes _ _ _ hj, h0, hm, List.getD_cons_zero]
      apply BitVec.eq_of_toNat_eq
      simp [Nat.shiftRight_eq_div_pow, Nat.pow_mul]
    · have hd : j / 4 = (j - 4) / 4 + 1 := by omega
      have hm : j % 4 = (j - 4) % 4 := by omega
      rw [List.getD_append_right _ _ _ _ (by simp; omega), length_leBytes, ih, hd, hm, List.getD_cons_succ]

/-- "Byte i of the result (i < m) is byte i mod 64 of the block with counter c0 + floor(i / 64)" (42_keystream.md R153). -/
theorem getD_kstream (k : Vector Word 8) (n : Vector Word 3) (c0 m i : Nat) (h : i < m) :
    (kstream k n c0 m).getD i 0 = (bytesLe (chachaBlock k (BitVec.ofNat 32 (c0 + i / 64)) n).toList).getD (i % 64) 0 := by
  have blocks (g : Nat → List Byte) (hg : ∀ j, (g j).length = 64) :
      ∀ (b i : Nat), i < 64 * b → ((List.range b).flatMap g).getD i 0 = (g (i / 64)).getD (i % 64) 0 := by
    intro b
    induction b with
    | zero => intro i hi; omega
    | succ b ih =>
      intro i hi
      have hl : ((List.range b).flatMap g).length = 64 * b := by simp [List.length_flatMap, hg, Nat.mul_comm]
      rw [List.range_succ, List.flatMap_append]
      by_cases hb : i < 64 * b
      · rw [List.getD_append _ _ _ _ (by omega), ih i hb]
      · have hq : i / 64 = b := by omega
        have hr : i - 64 * b = i % 64 := by omega
        rw [List.getD_append_right _ _ _ _ (by omega), hl, hq, hr]
        simp
  have hc : i < 64 * ceilDiv m 64 := by
    simp only [ceilDiv]
    omega
  have ht (l : List Byte) : (l.take m).getD i 0 = l.getD i 0 := by simp [List.getD_eq_getElem?_getD, h]
  rw [kstream, ht, blocks _ (fun j => by simp) _ i hc]

/-- Four bytes survive their packing into a word. -/
theorem leBytes_le32 (b : List Byte) (h : b.length = 4) : leBytes (le32 b).toNat 4 = b := by
  have hb := leInt_lt b
  rw [h] at hb
  have hv : (le32 b).toNat = leInt b := by
    simp only [le32, BitVec.toNat_ofNat]
    omega
  rw [hv, ← h, leBytes_leInt]

theorem flatMap_blocks (n : Nat) (b : List Byte) (h : b.length = 4 * n) :
    (List.ofFn (fun i : Fin n => (b.drop (4 * i.val)).take 4)).flatten = b := by
  induction n generalizing b with
  | zero => simpa using h
  | succ n ih =>
    have hd := ih (b.drop 4) (by simp; omega)
    simp only [List.drop_drop] at hd
    rw [List.ofFn_succ, List.flatten_cons]
    simp only [Fin.val_zero, Fin.val_succ, Nat.mul_zero, List.drop_zero, Nat.mul_add, Nat.mul_one, Nat.add_comm _ 4]
    rw [hd, List.take_append_drop]

/-- `bytes_le(words_le(b)) = b` (00_scope.md R10). -/
theorem bytesLe_wordsLe (n : Nat) (b : List Byte) (h : b.length = 4 * n) : bytesLe (wordsLe n b).toList = b := by
  have hl (i : Fin n) : leBytes (le32 ((b.drop (4 * i.val)).take 4)).toNat 4 = (b.drop (4 * i.val)).take 4 := by
    apply leBytes_le32
    have := i.isLt
    simp
    omega
  rw [wordsLe, Vector.toList_ofFn, bytesLe, List.flatMap_def, List.map_ofFn]
  simp only [Function.comp_def, hl]
  exact flatMap_blocks n b h

/-- `words_le(le_bytes(v, 4*n))` and the packing of a number are one (43_poly1305.md R178, R179). -/
theorem wordsLe_leBytes (n v : Nat) : (wordsLe n (leBytes v (4 * n))).toList = (limbs n v).toList := by
  have drop_leBytes (k : Nat) : ∀ (v m : Nat), (leBytes v m).drop k = leBytes (v / 2 ^ (8 * k)) (m - k) := by
    induction k with
    | zero => intro v m; simp
    | succ k ih =>
      intro v m
      cases m with
      | zero => simp [leBytes]
      | succ m =>
        have h : 2 ^ (8 * (k + 1)) = 256 * 2 ^ (8 * k) := by rw [Nat.mul_add, Nat.pow_add]; omega
        simp only [leBytes, List.drop_succ_cons, ih, Nat.add_sub_add_right, h, Nat.div_div_eq_div_mul]
  have take_leBytes (k : Nat) : ∀ (v m : Nat), k ≤ m → (leBytes v m).take k = leBytes v k := by
    induction k with
    | zero => intro v m _; simp [leBytes]
    | succ k ih =>
      intro v m h
      cases m with
      | zero => omega
      | succ m => simp only [leBytes, List.take_succ_cons, ih _ _ (Nat.le_of_succ_le_succ h)]
  rw [wordsLe, limbs, Vector.toList_ofFn, Vector.toList_ofFn]
  congr 1
  funext i
  have hi := i.isLt
  have he : 8 * (4 * i.val) = 32 * i.val := by omega
  rw [drop_leBytes, take_leBytes _ _ _ (by omega), le32, leInt_leBytes, he]
  apply BitVec.eq_of_toNat_eq
  simp

end Sys2Proof.Machine
end

