-- ==== Sys2Proof/Laws/Aead.lean ====
section
/-!
SUPPORT. The keystream, the one-time key and the tag as the primitive commands give them are those the AEAD commands
compute.
-/

namespace Sys2Proof.Claims

open Sys2Proof Sys2Proof.Machine

/-- A byte of the block that `hchacha` and `ksblk subkey, xn` generate, through the block function. -/
theorem blockByte_eq (s : State) (c j : Nat) :
    blockByte s c j =
      (bytesLe (chachaBlock (aeadSubkey s.key s.nonce) (BitVec.ofNat 32 c) (shortNonce s.nonce)).toList).getD j 0 := by
  rw [getD_bytesLe]
  simp only [blockByte, blockByCommands, exec_hchacha, andThen, exec_ksblk, State.finish_ctrexh, State.setSubkey_ctrexh,
    State.setS_ctrexh, Bool.false_eq_true, if_false, State.finish_ks, State.setKs_ks, ksblkKey, ksblkNonce, if_true,
    State.finish_subkey, State.setSubkey_subkey, State.finish_nonce, State.setSubkey_nonce, State.setS_nonce,
    State.finish_ctr, State.setSubkey_ctr, State.setS_ctr]
  rfl

theorem keystreamByte_eq (s : State) (m i : Nat) (h : i < m) :
    keystreamByte s i = (aeadStream s.key s.nonce m).getD i 0 := by
  rw [keystreamByte, blockByte_eq, aeadStream, getD_kstream _ _ _ _ _ h]

theorem oneTimeKey_eq (s : State) : oneTimeKey s = aeadPolyKey s.key s.nonce := by
  apply List.ext_getElem
  · simp [oneTimeKey, aeadPolyKey]
  · intro i h1 h2
    have hi : i < 64 := by
      simp only [oneTimeKey, List.length_map, List.length_range] at h1
      omega
    simp [oneTimeKey, aeadPolyKey, blockByte_eq, hi]

theorem macInput_eq (a x : List Byte) : macInput a x = macData a x := by
  have lb (n : Nat) : lengthBytes n = le64 n := by
    simp [lengthBytes, le64, leBytes, List.range, List.range.loop, Nat.div_div_eq_div_mul]
  simp only [macInput, macData, padded, pad16, zeros, lb]

theorem expectedTag_eq (s : State) (x : List Byte) : expectedTag s x = aeadTag s.key s.nonce (aad s) x := by
  rw [expectedTag, oneTimeKey_eq, macInput_eq, aeadTag]

end Sys2Proof.Claims
end

