-- ==== Sys2Proof/Laws/PerInstr.lean ====
section
/-!
SUPPORT. Statements made once per command: the word of a command is the one its row of the opcode map describes.
-/

namespace Sys2Proof.Laws.MatchesOpcodeMap

/-- `match` and `mask` of a command's row (30_encoding.md R98). -/
def rowOf : Instr → Word × Word
  | .nop => (0x00000000#32, 0xFFFFFFFF#32)
  | .qr _ _ _ _ => (0x00000001#32, 0xFF0000FF#32)
  | .colrnd => (0x00000002#32, 0xFFFFFFFF#32)
  | .diagrnd => (0x00000003#32, 0xFFFFFFFF#32)
  | .dblrnd => (0x00000004#32, 0xFFFFFFFF#32)
  | .perm => (0x00000005#32, 0xFFFFFFFF#32)
  | .hchacha => (0x00000010#32, 0xFFFFFFFF#32)
  | .ksblk _ _ _ => (0x00000011#32, 0xFFFFF8FF#32)
  | .pinit _ => (0x00000020#32, 0xFFFFFEFF#32)
  | .pblk _ => (0x00000021#32, 0xFFFFF0FF#32)
  | .pfin => (0x00000022#32, 0xFFFFFFFF#32)
  | .pver => (0x00000023#32, 0xFFFFFFFF#32)
  | .aeadEnc => (0x00000030#32, 0xFFFFFFFF#32)
  | .aeadDec => (0x00000031#32, 0xFFFFFFFF#32)
  | .zeroize _ => (0x0000003F#32, 0xFFFFFEFF#32)

/-- "A word w is the command when `w & mask == match`" (30_encoding.md R98): the encoder's word is. -/
def Statement (i : Instr) : Prop := encode i &&& (rowOf i).2 = (rowOf i).1

/-- A mask distributes over the fields of a word. -/
theorem or_masked (x y m : Word) : (x ||| y) &&& m = (x &&& m) ||| (y &&& m) := by
  ext i
  simp [Bool.and_or_distrib_right]

theorem nibbleAt_masked (lo : Nat) (m : Word) (h : ∀ k : Fin 16, nibbleAt k.val lo &&& m = 0) (n : Nat) :
    nibbleAt n lo &&& m = 0 := by
  have h := h ⟨n % 16, Nat.mod_lt n (by decide)⟩
  simpa [nibbleAt] using h

theorem nop : Statement .nop := rfl
theorem qr (a b c d : Fin 16) : Statement (.qr a b c d) := by
  have h8 := nibbleAt_masked 8 0xFF0000FF#32 (by decide) a.val
  have h12 := nibbleAt_masked 12 0xFF0000FF#32 (by decide) b.val
  have h16 := nibbleAt_masked 16 0xFF0000FF#32 (by decide) c.val
  have h20 := nibbleAt_masked 20 0xFF0000FF#32 (by decide) d.val
  simp only [Statement, encode, rowOf, or_masked, h8, h12, h16, h20]
  rfl
theorem colrnd : Statement .colrnd := rfl
theorem diagrnd : Statement .diagrnd := rfl
theorem dblrnd : Statement .dblrnd := rfl
theorem perm : Statement .perm := rfl
theorem hchacha : Statement .hchacha := rfl
theorem ksblk (ksel nsel inc : Bool) : Statement (.ksblk ksel nsel inc) := by
  cases ksel <;> cases nsel <;> cases inc <;> rfl
theorem pinit (pksrc : Bool) : Statement (.pinit pksrc) := by cases pksrc <;> rfl
theorem pblk (n : Nat) : Statement (.pblk n) := by
  have h8 := nibbleAt_masked 8 0xFFFFF0FF#32 (by decide) (n - 1)
  simp only [Statement, encode, rowOf, or_masked, h8]
  rfl
theorem pfin : Statement .pfin := rfl
theorem pver : Statement .pver := rfl
theorem aeadEnc : Statement .aeadEnc := rfl
theorem aeadDec : Statement .aeadDec := rfl
theorem zeroize (dm : Bool) : Statement (.zeroize dm) := by cases dm <;> rfl

end Sys2Proof.Laws.MatchesOpcodeMap
end

