-- ==== Sys2Proof/Machine/HostProgram.lean ====
section
/-!
DEFINITION. The host's side of the spec: the assembly text of commands (30_encoding.md R102), the host program notation and
its pseudo-instructions (30_encoding.md R103, R104), and the end of a run (70_reset_and_hazards.md R286). "It describes the
host, not the CORE": nothing here is part of `State` or of `step` (log entry 18).
-/

namespace Sys2Proof.Machine

/-! ## Command assembly (30_encoding.md R102) -/

/-- One line of command assembly. -/
inductive AsmLine where
  /-- A command. -/
  | command (i : Instr)
  /-- `raw w`: any 32-bit word. -/
  | raw (w : Word)
  deriving DecidableEq, Repr

/-- The word a line encodes. -/
def asmWord : AsmLine → Word
  | .command i => encode i
  | .raw w => w

/-- The text of a command, numbers in decimal. -/
def asmText : Instr → String
  | .nop => "nop"
  | .qr a b c d =>
    "qr " ++ toString a.val ++ ", " ++ toString b.val ++ ", " ++ toString c.val ++ ", " ++ toString d.val
  | .colrnd => "colrnd"
  | .diagrnd => "diagrnd"
  | .dblrnd => "dblrnd"
  | .perm => "perm"
  | .hchacha => "hchacha"
  | .ksblk ksel nsel inc =>
    "ksblk " ++ (if ksel then "subkey" else "key") ++ ", " ++ (if nsel then "xn" else "n96") ++ (if inc then ", inc" else "")
  | .pinit pksrc => "pinit " ++ (if pksrc then "ks" else "pkey")
  | .pblk n => "pblk " ++ toString n
  | .pfin => "pfin"
  | .pver => "pver"
  | .aeadEnc => "aead.enc"
  | .aeadDec => "aead.dec"
  | .zeroize dm => if dm then "zeroize dmem" else "zeroize"

/-! ## Host programs (30_encoding.md R103, R104) -/

/-- "A variable or an immediate". -/
inductive HostArg where
  | var (t : Fin 8)
  | imm (v : Word)
  deriving DecidableEq, Repr

/-- A host operation; a label is the position of the operation it stands before. -/
inductive HostOp where
  | li (t : Fin 8) (v : Word)
  | lw (t : Fin 8) (off : Word)
  | sw (off : Word) (x : HostArg)
  | sb (off : Word) (v : Byte)
  | andi (t : Fin 8) (x : HostArg) (v : Word)
  | addi (t : Fin 8) (x : HostArg) (v : Word)
  | beq (x y : HostArg) (l : Nat)
  | bne (x y : HostArg) (l : Nat)
  | j (l : Nat)
  | halt
  deriving DecidableEq, Repr

/-- A host program at work on a CORE: the variables t0 to t7, the position in the program, whether the run has ended, and
whose turns come next (true: the engine's), which is the draw of 70_reset_and_hazards.md R276. -/
structure HostRun where
  core  : State
  vars  : Vector Word 8
  prog  : List HostOp
  pos   : Nat
  ended : Bool
  turns : List Bool
  deriving DecidableEq, Repr

/-- The start of a program: "eight 32-bit variables t0 to t7, all 0 at the start". -/
def hostStart (core : State) (prog : List HostOp) (turns : List Bool) : HostRun :=
  ⟨core, Vector.replicate 8 0, prog, 0, false, turns⟩

/-- The value of a variable or an immediate. -/
def hostArg (vars : Vector Word 8) : HostArg → Word
  | .var t => vars[t]
  | .imm v => v

/-- The data of the last reply; a write's reply carries none. -/
def replyData (s : State) : Word :=
  match s.reply with
  | some (.read _ d) => d
  | some (.write _) => 0
  | none => 0

/-- `sb off, imm8`: a DMEM byte store through one lane (30_encoding.md R103). -/
def hostStoreByte (s : State) (off : Word) (v : Byte) : State :=
  let lane := off.toNat % 4
  hostWrite s (off &&& 0xFFFFFFFC#32) (BitVec.ofNat 32 (v.toNat * 2 ^ (8 * lane))) (BitVec.ofNat 4 (2 ^ lane))

/-- A branch: to the label or to the next operation. -/
def hostJump (r : HostRun) (taken : Bool) (l : Nat) : HostRun := { r with pos := if taken then l else r.pos + 1 }

/-- One host operation (30_encoding.md R103); `halt` ends the run when the engine is idle and waits while it is BUSY
(70_reset_and_hazards.md R286). -/
def hostOp (r : HostRun) : HostOp → HostRun
  | .li t v => { r with vars := r.vars.set t v, pos := r.pos + 1 }
  | .lw t off =>
    let c := hostRead r.core off
    { r with core := c, vars := r.vars.set t (replyData c), pos := r.pos + 1 }
  | .sw off x => { r with core := hostWrite r.core off (hostArg r.vars x) 0b1111#4, pos := r.pos + 1 }
  | .sb off v => { r with core := hostStoreByte r.core off v, pos := r.pos + 1 }
  | .andi t x v => { r with vars := r.vars.set t (hostArg r.vars x &&& v), pos := r.pos + 1 }
  | .addi t x v => { r with vars := r.vars.set t (hostArg r.vars x + v), pos := r.pos + 1 }
  | .beq x y l => hostJump r (hostArg r.vars x == hostArg r.vars y) l
  | .bne x y l => hostJump r (hostArg r.vars x != hostArg r.vars y) l
  | .j l => hostJump r true l
  | .halt => if r.core.busy then r else { r with ended := true }

/-- The host's turn; past the program's last operation there is nothing to do. -/
def hostTurn (r : HostRun) : HostRun :=
  match r.prog[r.pos]? with
  | none => r
  | some op => hostOp r op

/-- The engine's turn. -/
def engineTurn (r : HostRun) : Host.Outcome HostRun Fault Refusal :=
  match engineStep r.core with
  | .next c => .next { r with core := c }
  | .fault f => .fault f
  | .refused q => .refused q

/-- One step of a host program and the CORE together; with no turn given, a command in flight completes first. -/
def hostRunStep (r : HostRun) : Host.Outcome HostRun Fault Refusal :=
  if r.ended then .next r
  else
    match r.turns with
    | [] => if r.core.busy then engineTurn r else .next (hostTurn r)
    | true :: ts => engineTurn { r with turns := ts }
    | false :: ts => .next (hostTurn { r with turns := ts })

/-- `wait`, written at position `p` of a program (30_encoding.md R104). -/
def waitOps (p : Nat) : List HostOp :=
  [.lw 7 0x004, .andi 7 (.var 7) 1, .bne (.var 7) (.imm 0) p]

/-- `cmd <command>`, written at position `p` of a program (30_encoding.md R104). -/
def cmdOps (p : Nat) (l : AsmLine) : List HostOp := .sw 0x000 (.imm (asmWord l)) :: waitOps (p + 1)

/-- What is observed at the end of a run (70_reset_and_hazards.md R286): every register as the host reads it, in the order
of the register map (STATUS among them), DMEM, IRQ, and t0 to t7. -/
structure EndState where
  registers : List Word
  dmem      : Memory
  irq       : Bool
  vars      : Vector Word 8
  deriving DecidableEq, Repr

/-- The observed end state of a run that has ended. -/
def endState (r : HostRun) : Option EndState :=
  if r.ended then
    some ⟨regMap.flatMap (fun row => (List.range row.words).map (readReg r.core row.name)), r.core.dmem, irq r.core, r.vars⟩
  else none

end Sys2Proof.Machine
end

