-- ==== Sys2Proof/Tests/Slice0.lean ====
section
/-!
SUPPORT. Tests of the model: the spec's own vectors (95_test_vectors.md), words written out from the encoding tables
(30_encoding.md), and for every statement with hypotheses a state and operands that meet them.

DMEM starts as zeros here, "the choice of these vectors" (95_test_vectors.md). `witness_` theorems meet hypotheses; `test_`
theorems compare with the spec.
-/

namespace Sys2Proof.Tests

open Sys2Proof Sys2Proof.Machine Sys2Proof.Claims

set_option maxRecDepth 100000

/-! ## Helpers -/

/-- Reset with DMEM zero. -/
def base : State := { State.reset with dmem := ⟨.zero, []⟩ }

/-- The next state of an outcome; reset where there is none. -/
def after : Host.Outcome State Fault Refusal → State
  | .next t => t
  | .fault _ => State.reset
  | .refused _ => State.reset

/-- One command accepted and completed. -/
def run (s : State) (w : Nat) : State := after (step (s.withFetchWord 32 w))

/-- `n` steps. -/
def steps : Nat → State → State
  | 0, s => s
  | n + 1, s => steps n (after (step s))

/-- A state with these events to come. -/
def events (s : State) (es : List Event) : State := { s with schedule := es }

/-- A state with a command in flight. -/
def busyWith (s : State) (w : Word) : State := s.accept w

/-- A byte string written as one hexadecimal number, first byte on the left. -/
def hex (n v : Nat) : List Byte := (leBytes v n).reverse

/-- The bytes `lo`, `lo + 1`, ... -/
def upFrom (lo n : Nat) : List Byte := (List.range n).map (fun i => BitVec.ofNat 8 (lo + i))

/-- DMEM with a byte string put at an offset. -/
def put (s : State) (off : Nat) (b : List Byte) : State := s.setDmem (s.dmem.writeBytes off b)

/-- KEY bytes 00..1f, NONCE bytes 00..17. -/
def keyed : State := { base with key := wordsLe 8 (upFrom 0 32), nonce := wordsLe 6 (upFrom 0 24) }

/-- "Common start for T44.1 to T44.12" (95_test_vectors.md 2.5). -/
def common : State := { put (put keyed 0 (hex 2 0x6164)) 0x10 (hex 3 0x686921) with aadLen := 2 }

/-- T44.1 before its command. -/
def encReady : State := { common with srcPtr := 0x10, srcLen := 3, dstPtr := 0x40 }

/-- T44.2 before its command: DMEM as T44.1 leaves it. -/
def decReady : State :=
  { put common 0x40 (hex 19 0xf6ab2e4fc5a1eddc0a49a682882da7dc978645) with srcPtr := 0x40, srcLen := 19, dstPtr := 0x80 }

/-- T44.3 before its command. -/
def decBad : State := { put decReady 0x40 [0xF7] with dstPtr := 0xC0 }

/-- S[i] = i. -/
def sUp : Vector Word 16 := Vector.ofFn (fun i => BitVec.ofNat 32 i.val)

/-! ## Well-formedness (30_encoding.md R96, R102: "n is 1..16") -/

theorem test_wellFormed_pblk_zero_refused : (Instr.pblk 0).wellFormed = false := by decide
theorem test_wellFormed_pblk_seventeen_refused : (Instr.pblk 17).wellFormed = false := by decide
theorem test_wellFormed_pblk_ends : (Instr.pblk 1).wellFormed = true ∧ (Instr.pblk 16).wellFormed = true := by decide

/-! ## Decode: words written bit by bit from the formats of 30_encoding.md R92 to R98 -/

/-- Format N, OPC 00000000. -/
theorem test_decode_nop : decode 0b00000000000000000000000000000000#32 = .command .nop := by decide
/-- Format Q, d = 1111, c = 0010, b = 0001, a = 1000, OPC 00000001. -/
theorem test_decode_qr : decode 0b00000000111100100001100000000001#32 = .command (.qr 8 1 2 15) := by decide
theorem test_decode_colrnd : decode 0b00000000000000000000000000000010#32 = .command .colrnd := by decide
theorem test_decode_diagrnd : decode 0b00000000000000000000000000000011#32 = .command .diagrnd := by decide
theorem test_decode_dblrnd : decode 0b00000000000000000000000000000100#32 = .command .dblrnd := by decide
theorem test_decode_perm : decode 0b00000000000000000000000000000101#32 = .command .perm := by decide
theorem test_decode_hchacha : decode 0b00000000000000000000000000010000#32 = .command .hchacha := by decide
/-- Format K, INC bit 10, NSEL bit 9, KSEL bit 8. -/
theorem test_decode_ksblk :
    decode 0b00000000000000000000000100010001#32 = .command (.ksblk true false false) ∧
    decode 0b00000000000000000000001000010001#32 = .command (.ksblk false true false) ∧
    decode 0b00000000000000000000010000010001#32 = .command (.ksblk false false true) := by decide
/-- Format I, PKSRC bit 8. -/
theorem test_decode_pinit :
    decode 0b00000000000000000000000000100000#32 = .command (.pinit false) ∧
    decode 0b00000000000000000000000100100000#32 = .command (.pinit true) := by decide
/-- Format B, LENM1 bits 11:8. -/
theorem test_decode_pblk :
    decode 0b00000000000000000000000000100001#32 = .command (.pblk 1) ∧
    decode 0b00000000000000000000100000100001#32 = .command (.pblk 9) := by decide
theorem test_decode_pfin : decode 0b00000000000000000000000000100010#32 = .command .pfin := by decide
theorem test_decode_pver : decode 0b00000000000000000000000000100011#32 = .command .pver := by decide
theorem test_decode_aeadEnc : decode 0b00000000000000000000000000110000#32 = .command .aeadEnc := by decide
theorem test_decode_aeadDec : decode 0b00000000000000000000000000110001#32 = .command .aeadDec := by decide
/-- Format Z, DM bit 8. -/
theorem test_decode_zeroize :
    decode 0b00000000000000000000000000111111#32 = .command (.zeroize false) ∧
    decode 0b00000000000000000000000100111111#32 = .command (.zeroize true) := by decide

/-- T45.5, T45.6, and the unassigned opcode whose word also has a reserved bit (30_encoding.md R99 (1) before (2)). -/
theorem test_decode_rejects :
    decode 0x00001021#32 = .reservedBit ∧ decode 0x00000006#32 = .unassigned ∧ decode 0x80000006#32 = .unassigned := by
  decide

/-- "Unassigned opcodes: 0x06-0x0F, 0x12-0x1F, 0x24-0x2F, 0x32-0x3E, 0x40-0xFF" (30_encoding.md R99), for all 256 opcodes. -/
theorem test_decode_unassigned :
    ∀ k : Fin 256, (decode (BitVec.ofNat 32 k.val) = .unassigned ↔
      (0x06 ≤ k.val ∧ k.val ≤ 0x0F) ∨ (0x12 ≤ k.val ∧ k.val ≤ 0x1F) ∨ (0x24 ≤ k.val ∧ k.val ≤ 0x2F) ∨
      (0x32 ≤ k.val ∧ k.val ≤ 0x3E) ∨ 0x40 ≤ k.val) := by decide +kernel

/-- No two rows of the opcode map share an opcode. -/
theorem test_opcodes_distinct : (opcodeMap.map OpcodeRow.opc).Nodup := by decide

/-- 30_encoding.md R102's examples, the other way. -/
theorem test_encode_examples :
    encode (.qr 0 4 8 12) = 0x00C84001#32 ∧ encode (.ksblk true true true) = 0x00000711#32 ∧
    encode (.pblk 2) = 0x00000121#32 ∧ encode (.zeroize true) = 0x0000013F#32 := by decide

/-- The syntax of 30_encoding.md R102. -/
theorem test_asm :
    asmText (.qr 0 4 8 12) = "qr 0, 4, 8, 12" ∧ asmText (.ksblk true true true) = "ksblk subkey, xn, inc" ∧
    asmText (.ksblk false false false) = "ksblk key, n96" ∧ asmText (.pinit true) = "pinit ks" ∧
    asmText (.zeroize true) = "zeroize dmem" := by decide

/-! ## Commands: the vectors of 95_test_vectors.md 2.1 to 2.6 -/

/-- T45.1, and T45.7: NOP clears the report of T45.2. -/
theorem test_nop : statusWord (run base 0x0) = 0x2 ∧ statusWord (run (run base 0xFF) 0x0) = 0x2 := by decide

/-- T45.2 to T45.4: ILLEGAL_COMMAND. -/
theorem test_illegal :
    statusWord (run base 0xFF) = 0x1402 ∧ statusWord (run base 0x01C84001) = 0x2402 ∧
    statusWord (run base 0x130) = 0x2402 := by decide

/-- T40.1. -/
theorem test_qr :
    (run { base with s := #v[0x11111111, 0x01020304, 0x9B8D6F43, 0x01234567, 0, 0, 0, 0, 0, 0, 0, 0, 0, 0, 0, 0] }
      0x00321001).s = #v[0xEA2A92F4, 0xCB1CF8CE, 0x4581472E, 0x5881C4BB, 0, 0, 0, 0, 0, 0, 0, 0, 0, 0, 0, 0] := by
  decide +kernel

/-- T40.5: repeated indices, sequential steps. -/
theorem test_qr_repeated :
    (run { base with s := #v[1, 2, 0, 0, 0, 0, 0, 0, 0, 0, 0, 0, 0, 0, 0, 0] } 0x00110001).s =
      #v[0x40200000, 0x00800000, 0, 0, 0, 0, 0, 0, 0, 0, 0, 0, 0, 0, 0, 0] := by decide +kernel

/-- T40.6. -/
theorem test_colrnd :
    (run { base with s := sUp } 0x2).s =
      #v[0x8000C004, 0xB000C006, 0x6000C008, 0x5000C00A, 0x64624444, 0xE5E35CDD, 0x63643533, 0xE2E52DAA,
         0x08C80488, 0x0BCB06B9, 0x06C6086A, 0x05C50A5B, 0x08C00480, 0x0BC006B0, 0x06C00860, 0x05C00A50] := by
  decide +kernel

/-- T40.7. -/
theorem test_diagrnd :
    (run { base with s := sUp } 0x3).s =
      #v[0xA000F005, 0xB000D007, 0x4000F009, 0x9000D007, 0xECEBCCCC, 0x7D7AD555, 0xEDEBDDDD, 0x7A7CA422,
         0x04F40948, 0x09D90799, 0x0AFA05AA, 0x0BDB07BB, 0x0BD007B0, 0x04F00940, 0x09D00790, 0x0AF005A0] := by
  decide +kernel

/-- T40.8. -/
theorem test_dblrnd :
    (run { base with s := sUp } 0x4).s =
      #v[0xA9295C6A, 0xB471BE7A, 0x38E65EC4, 0x74348B87, 0xF1AD76C6, 0x7B44627B, 0x946682B0, 0xF12F4910,
         0xD7E22F80, 0x3232DDD4, 0xB5B3B74D, 0xC0240444, 0xC8A5DE45, 0xE417E1D3, 0x1A392478, 0x983C4EBF] := by
  decide +kernel

/-- T40.10. -/
theorem test_perm :
    (run { base with s := sUp } 0x5).s =
      #v[0x48E90081, 0xF390518C, 0x224B1422, 0x0E74BDB7, 0x888688D2, 0x108E96F4, 0x1DE13D82, 0x71BC3E28,
         0x281FF786, 0x66900EBD, 0xD3BFBE82, 0x815F33EE, 0x665AAEB4, 0x7485A165, 0x61889CE7, 0x94255E20] := by
  decide +kernel

/-- T41.1. -/
theorem test_hchacha :
    (run { keyed with nonce := #v[0x09000000, 0x4A000000, 0, 0x27594131, 0, 0] } 0x10).subkey =
      #v[0x423B4182, 0xFE7BB227, 0x50420ED3, 0x737D878A, 0xD5E4F9A0, 0x53A8748A, 0x13C42EC1, 0xDCECD326] := by
  decide +kernel

/-- T42.4 and T42.5: the last block, then INTERNAL_OVERFLOW(1). -/
theorem test_ksblk_exhaustion :
    let t := run { base with ctr := 0xFFFFFFFF } 0x411
    t.ks[0] = 0x09CDE4AC ∧ t.ctr = 0 ∧ statusWord t = 0xA ∧ statusWord (run t 0x11) = 0x130A ∧ (run t 0x11).ks = t.ks := by
  decide +kernel

/-- T42.8: the AEAD's one-time key, after `hchacha`. -/
theorem test_ksblk_subkey :
    (bytesLe (run (run keyed 0x10) 0x311).ks.toList).take 32 =
      hex 32 0xe53a61cef151e81401067de33adfc02e90ab205361b49b539fda7f0e63b1bc7d := by decide +kernel

/-- The key of V1.5 clamped and split, as T43.1 gives it. -/
def polyKeyed : State :=
  { base with
    pr := #v[0x08BED685, 0x036D5554, 0x0E52447C, 0x0806D540], ps := #v[0x8A800301, 0xFDB20DFB, 0xAFF6BF4A, 0x1BF54941] }

/-- T43.1. -/
theorem test_pinit :
    let t := run { base with pkey := wordsLe 8 (hex 32 0x85d6be7857556d337f4452fe42d506a80103808afb0db2fd4abff6af4149f51b) } 0x20
    t.pr = polyKeyed.pr ∧ t.ps = polyKeyed.ps := by decide +kernel

/-- 30_encoding.md R95, 43_poly1305.md R178: `pinit ks` reads KS[0..7]. -/
theorem test_pinit_ks :
    (run { base with ks := #v[1, 2, 3, 4, 5, 6, 7, 8, 9, 9, 9, 9, 9, 9, 9, 9] } 0x120).ps = #v[5, 6, 7, 8] := by
  decide +kernel

/-- T43.2. -/
theorem test_pblk :
    (run { polyKeyed with pblk := #v[0x70797243, 0x72676F74, 0x69687061, 0x6F462063] } 0xF21).ph =
      #v[0xE69C83FC, 0x47DDEB88, 0x9D64AE91, 0xC88C7784, 0x00000002] := by decide +kernel

/-- T43.10: a block of one byte. -/
theorem test_pblk_partial :
    (run { base with pr := #v[1, 0, 0, 0], pblk := #v[0x000000FF, 7, 7, 7] } 0x021).ph = #v[0x000001FF, 0, 0, 0, 0] := by
  decide +kernel

/-- T43.3's last step: the accumulator of V1.5 and its tag. -/
theorem test_pfin :
    (run { polyKeyed with ph := #v[0x369D03A7, 0xC8844335, 0xFF946C77, 0x8D31B7CA, 0x00000002] } 0x22).tag =
      #v[0xC11D06A8, 0xC6365130, 0xAF8B2BC2, 0xA927010C] := by decide +kernel

/-- T43.12: the sum wraps mod 2^128. -/
theorem test_pfin_wraps :
    (run { base with ph := #v[1, 0, 0, 0, 1], ps := Vector.replicate 4 0xFFFFFFFF } 0x22).tag = Vector.replicate 4 0 := by
  decide +kernel

/-- T43.6, and T43.5: one bit differs. -/
theorem test_pver :
    statusWord (run base 0x23) = 0x12 ∧
    statusWord (run { base with tag := #v[0xC11D06A8, 0, 0, 0], ptag := #v[0xC11D06A9, 0, 0, 0] } 0x23) = 0x202 := by
  decide +kernel

/-- T44.1; and T44.24, whose byte 64 comes from the block with counter 2. -/
theorem test_aeadEnc :
    (let t := run encReady 0x30
     t.dmem.readBytes 0x40 0x13 = hex 19 0xf6ab2e4fc5a1eddc0a49a682882da7dc978645 ∧ statusWord t = 0x2 ∧
     t.outLen = 0x13 ∧ t.tag = #v[0xEDA1C54F, 0xA6490ADC, 0xA72D8882, 0x458697DC]) ∧
    (let t := run { common with srcPtr := 0x100, srcLen := 65, dstPtr := 0x200 } 0x30
     t.dmem.readBytes 0x200 4 = hex 4 0x9ec20f7f ∧
     t.dmem.readBytes 0x240 17 = hex 17 0xb297d2b757cb34118961cadff615d1e3ff ∧ t.outLen = 0x51) := by decide +kernel

/-- T44.7, T44.8 and T44.12: the argument checks at their edges. -/
theorem test_aeadEnc_checks :
    statusWord (run { encReady with dstPtr := 0xFFEE } 0x30) = 0x2102 ∧
    statusWord (run { encReady with dstPtr := 0x12 } 0x30) = 0x3102 ∧
    statusWord (run { encReady with srcPtr := 0, srcLen := 0xFFFFFFFF } 0x30) = 0x2102 := by decide +kernel

/-- T44.2 and T44.3. -/
theorem test_aeadDec :
    ((run decReady 0x31).dmem.readBytes 0x80 3 = hex 3 0x686921 ∧ statusWord (run decReady 0x31) = 0x12 ∧
      (run decReady 0x31).outLen = 3) ∧
    ((run decBad 0x31).dmem.readBytes 0xC0 3 = [0, 0, 0] ∧ statusWord (run decBad 0x31) = 0x202) := by decide +kernel

/-- T44.13 to T44.16. -/
theorem test_aeadDec_checks :
    statusWord (run { base with srcPtr := 0x10000, srcLen := 15 } 0x31) = 0x1102 ∧
    statusWord (run { base with srcPtr := 0xFFF0, srcLen := 17, dstPtr := 0x100 } 0x31) = 0x2102 ∧
    statusWord (run { base with srcPtr := 0xFFF0, srcLen := 16, dstPtr := 0x100 } 0x31) = 0x202 ∧
    statusWord (run { base with srcPtr := 0x40, srcLen := 19, dstPtr := 0x42 } 0x31) = 0x3102 := by decide +kernel

/-- T45.8 and T45.9. -/
theorem test_zeroize :
    let s := { put keyed 0 (hex 3 0x78797a) with ctr := 9, aadPtr := 4 }
    let t := run s 0x3F
    t.key = Vector.replicate 8 0 ∧ t.ctr = 0 ∧ t.aadPtr = 4 ∧ t.dmem = s.dmem ∧ (run t 0x13F).dmem = ⟨.zero, []⟩ := by
  decide +kernel

/-- T45.10. -/
theorem test_zeroize_ends_exhaustion :
    statusWord (run { base with ctrexh := true } 0x3F) = 0x2 := by decide

/-! ## The host interface: 95_test_vectors.md 2.7 -/

/-- T70.1 to T70.3. -/
theorem test_slverr :
    (hostRead base 0x006).reply = some (.read .slverr 0) ∧ (hostWrite base 0x006 7 0b1111).reply = some (.write .slverr) ∧
    (hostWrite base 0x058 0x12345678 0b0011).reply = some (.write .slverr) ∧
    (hostWrite base 0x058 0x12345678 0b0011).ctr = 0 := by decide +kernel

/-- T70.4 to T70.6. -/
theorem test_reserved_and_constants :
    (hostRead base 0x014).reply = some (.read .okay 0) ∧ (hostRead base 0x1A8).reply = some (.read .okay 0) ∧
    (hostRead base 0x20000).reply = some (.read .okay 0) ∧ (hostRead base 0x010).reply = some (.read .okay 0x00010000) ∧
    (hostRead keyed 0x020).reply = some (.read .okay 0) := by decide +kernel

/-- T70.7. -/
theorem test_byte_strobes :
    (hostWrite base 0x10004 0xAABBCCDD 0b0110).dmem.readBytes 4 4 = [0x00, 0xcc, 0xbb, 0x00] := by decide +kernel

/-- T70.8 to T70.10. -/
theorem test_irq_and_soft_reset :
    let t := run { base with ie := true } 0x0
    irq t = true ∧ irq (hostWrite t 0x004 0x2 0b1111) = false ∧ (hostWrite t 0x008 0x3 0b1111).ie = false := by
  decide +kernel

/-- T70.11: the write of S is dropped, STATUS reads BUSY and OVR, and PERM completes. -/
theorem test_busy_hazard :
    let s := events { base with s := sUp } [.write 0x000 5 0b1111, .write 0x080 0xDEAD 0b1111, .read 0x004]
    (steps 3 s).reply = some (.read .okay 5) ∧ statusWord (steps 4 s) = 6 ∧ (steps 4 s).s[0] = 0x48E90081 := by
  decide +kernel

/-- T70.13: the NOP is lost, only PERM completes. -/
theorem test_second_command_lost :
    let s := events base [.write 0x000 5 0b1111, .write 0x000 0 0b1111]
    statusWord (steps 3 s) = 6 ∧ (steps 3 s).cmd = 5 := by decide +kernel

/-- T70.16: an aborted AEAD_DEC whose tags differ writes nothing. -/
theorem test_abort_releases_nothing :
    (hostWrite (busyWith decBad 0x31) 0x008 2 0b1111).dmem = decBad.dmem := by decide +kernel

/-- 30_encoding.md R104: `cmd nop` polls until BUSY = 0, also where the engine is slow; then `halt` ends the run. -/
theorem test_host_program :
    let prog := cmdOps 0 (.raw 0xFF) ++ [.lw 0 0x004, .halt]
    let go := fun r => match hostRunStep r with | .next r' => r' | .fault _ => r | .refused _ => r
    let r := (List.range 12).foldl (fun r _ => go r) (hostStart base prog [false, false, false, false, true])
    r.ended = true ∧ r.vars[0] = 0x1402 ∧ r.vars[7] = 0 := by decide +kernel

/-! ## Witnesses: encoding and step -/

theorem witness_DecodeOfEncodeIsTheCommand :
    (Instr.qr 15 0 15 15).wellFormed = true ∧ (Instr.ksblk true false true).wellFormed = true ∧
    (Instr.pblk 1).wellFormed = true ∧ (Instr.pblk 16).wellFormed = true := by decide

theorem witness_EncodeOfDecodeIsTheWord :
    decode 0x00FFFF01#32 = .command (.qr 15 15 15 15) ∧ decode 0x00000021#32 = .command (.pblk 1) := by decide

theorem witness_WordIsTheCommandOfItsRow :
    ((0x00000021, 0xFFFFF0FF, "PBLK") : Word × Word × String) ∈ opcodeRows ∧
    0x00000F21#32 &&& 0xFFFFF0FF#32 = 0x00000021#32 ∧ 0x00001F21#32 &&& 0xFFFFF0FF#32 ≠ 0x00000021#32 := by decide

theorem witness_RejectedWordsAreThoseOfTheMap :
    decode 0x00000006#32 = .unassigned ∧ decode 0x01000001#32 = .reservedBit := by decide

theorem witness_StepRunsTheCommandInFlight :
    let s := busyWith base 0x5
    s.busy = true ∧ decode s.cmd = .command .perm ∧ s.schedule = [] ∧
    (events s [.engine, .read 4]).schedule = .engine :: [.read 4] ∧ (events s [.engine, .read 4]).busy = true := by decide

theorem witness_StepPerformsTheNextEvent :
    (events base [.read 4]).schedule = .read 4 :: [] ∧ (events base [.write 8 1 15]).schedule = .write 8 1 15 :: [] ∧
    (events base [.powerOn]).schedule = .powerOn :: [] ∧ (events base [.engine]).schedule = .engine :: [] ∧
    (events base [.engine]).busy = false ∧ base.busy = false ∧ base.schedule = [] := by decide

theorem witness_IllegalWordChangesStatusAlone :
    let s := busyWith base 0x06
    let u := busyWith base 0x3FF
    s.busy = true ∧ u.busy = true ∧ (busyWith base 0x01000001).busy = true ∧ decode s.cmd = .unassigned ∧
    decode u.cmd = .unassigned ∧ decode (busyWith base 0x01000001).cmd = .reservedBit := by decide

/-! ## Witnesses: the invariant -/

/-- A busy state with bytes listed, an accumulator and a clamped key meets the invariant, and steps. -/
theorem witness_EveryStepKeepsTheInvariant :
    let s := busyWith { put polyKeyed 0xFFFF [7] with ph := #v[0xFFFFFFFA, 0xFFFFFFFF, 0xFFFFFFFF, 0xFFFFFFFF, 3] } 0xF21
    s.Inv ∧ ∃ t, step s = .next t := by
  refine ⟨⟨by decide +kernel, by decide +kernel, by decide +kernel, by decide +kernel, by decide +kernel, ?_, ?_⟩, _, rfl⟩
  · intro _
    exact ⟨rfl, rfl, rfl⟩
  · intro h
    exact absurd h (by decide +kernel)

theorem witness_AcceptedCommandCompletes :
    let s := events (busyWith base 0x5) [.read 4, .write 0x080 1 15, .write 0x008 1 15, .engine]
    s.busy = true ∧ ∀ e ∈ s.schedule, isReset e = false := by decide

/-! ## Witnesses: the permutation, the keystream, the MAC -/

theorem witness_QuarterRoundOfDistinctAndOfEqualIndices :
    let (a, b, c, d) := ((0 : Fin 16), (1 : Fin 16), (14 : Fin 16), (15 : Fin 16))
    (a ≠ b ∧ a ≠ c ∧ a ≠ d ∧ b ≠ c ∧ b ≠ d ∧ c ≠ d) ∧ (7 : Fin 16) ≠ a ∧ (7 : Fin 16) ≠ b ∧ (7 : Fin 16) ≠ c ∧
    (7 : Fin 16) ≠ d := by decide

theorem witness_DisjointQuarterRoundsCommute :
    ∀ x ∈ ([0, 4, 8, 12] : List (Fin 16)), ∀ y ∈ ([3, 3, 15, 15] : List (Fin 16)), x ≠ y := by decide

theorem witness_PermIsTenDoubleRounds : base.s = Vector.replicate 16 0 := by decide

theorem witness_PermutationCommandsReadAndWriteSAlone :
    let s := { base with s := sUp }
    ((∃ a b c d, Instr.qr 0 0 15 15 = .qr a b c d) ∨ Instr.qr 0 0 15 15 = .colrnd) ∧ { keyed with s := sUp }.s = s.s ∧
    { keyed with s := sUp }.key ≠ s.key := ⟨.inl ⟨_, _, _, _, rfl⟩, rfl, by decide +kernel⟩

theorem witness_KsblkGeneratesTheBlock : keyed.ctrexh = false ∧ { keyed with ctr := 0xFFFFFFFF }.ctrexh = false := by decide

/-- Below the end, at the end, and past it. -/
theorem witness_KsblkAdvancesOrExhaustsTheCounter :
    ({ base with ctr := 0xFFFFFFFE }.ctrexh = false ∧ { base with ctr := 0xFFFFFFFE }.ctr.toNat < 2 ^ 32 - 1) ∧
    ({ base with ctr := 0xFFFFFFFF }.ctrexh = false ∧ ¬{ base with ctr := 0xFFFFFFFF }.ctr.toNat < 2 ^ 32 - 1) ∧
    { base with ctrexh := true }.ctrexh = true := by decide

theorem witness_PverComparesTheTags :
    (∀ k : Fin 4, base.tag[k] = base.ptag[k]) ∧
    (∃ k : Fin 4, { base with tag := #v[0, 0, 0, 0x80000000] }.tag[k] ≠ base.ptag[k]) :=
  ⟨by decide, 3, by decide⟩

/-- No last block, and a last block of 15 bytes. -/
theorem witness_PrimitiveCommandsComputePoly1305 :
    (upFrom 0 32).length = 32 ∧ (∀ b ∈ [upFrom 1 16, upFrom 9 16], b.length = 16) ∧ ([] : List Byte).length < 16 ∧
    (upFrom 0 15).length < 16 := by decide

/-! ## Witnesses: AEAD -/

/-- Where source and destination coincide or are disjoint, they do not partly overlap. -/
theorem not_partlyOverlap (s : State) (n : Nat)
    (h : s.srcPtr = s.dstPtr ∨ disjoint s.srcPtr.toNat s.srcLen.toNat s.dstPtr.toNat n = true) : ¬PartlyOverlap s n := by
  rintro ⟨hne, hex⟩
  rcases h with h | h
  · exact hne h
  · exact (disjoint_iff _ _ _ _).mp h hex

/-- Buffers that fit, in a form decide reads. -/
theorem buffersFit (s : State) (n : Nat)
    (h : s.aadPtr.toNat + s.aadLen.toNat ≤ s.dmemBytes ∧ s.srcPtr.toNat + s.srcLen.toNat ≤ s.dmemBytes ∧
      s.dstPtr.toNat + n ≤ s.dmemBytes) : BuffersFit s n := h

/-- An outcome that is a next state, said decidably. -/
def isNext : Host.Outcome State Fault Refusal → Bool
  | .next _ => true
  | .fault _ => false
  | .refused _ => false

theorem eq_next_after (o : Host.Outcome State Fault Refusal) (h : isNext o = true) : o = .next (after o) := by
  cases o <;> simp_all [isNext, after]

theorem encArguments_encReady : EncArguments encReady :=
  ⟨buffersFit _ _ (by decide +kernel), not_partlyOverlap _ _ (.inr (by decide +kernel))⟩

/-- One byte past the end (T44.7), one shared byte (T44.8), adjacent (T44.10), and up to DMEM's end (T44.6). -/
theorem witness_AeadEncRejectsBadArguments :
    ¬BuffersFit { encReady with dstPtr := 0xFFEE } ({ encReady with dstPtr := 0xFFEE }.srcLen.toNat + 16) ∧
    (BuffersFit { encReady with dstPtr := 0x12 } ({ encReady with dstPtr := 0x12 }.srcLen.toNat + 16) ∧
      PartlyOverlap { encReady with dstPtr := 0x12 } ({ encReady with dstPtr := 0x12 }.srcLen.toNat + 16)) ∧
    EncArguments { encReady with dstPtr := 0x13 } ∧ EncArguments { encReady with dstPtr := 0xFFED } := by
  refine ⟨?_, ⟨buffersFit _ _ (by decide +kernel), by decide +kernel, 0x12, by decide +kernel⟩,
    ⟨buffersFit _ _ (by decide +kernel), not_partlyOverlap _ _ (.inr (by decide +kernel))⟩,
    buffersFit _ _ (by decide +kernel), not_partlyOverlap _ _ (.inr (by decide +kernel))⟩
  rintro ⟨_, _, h⟩
  exact absurd h (by decide +kernel)

/-- SRC_LEN 15 and 16, a source one byte too long (T44.14), an overlap (T44.16), and a good one. -/
theorem witness_AeadDecRejectsBadArguments :
    { base with srcLen := 15 }.srcLen.toNat < 16 ∧
    (16 ≤ { base with srcPtr := 0xFFF0, srcLen := 17 }.srcLen.toNat ∧
      ¬BuffersFit { base with srcPtr := 0xFFF0, srcLen := 17 } ({ base with srcPtr := 0xFFF0, srcLen := 17 }.srcLen.toNat - 16)) ∧
    (16 ≤ { decReady with dstPtr := 0x42 }.srcLen.toNat ∧
      BuffersFit { decReady with dstPtr := 0x42 } ({ decReady with dstPtr := 0x42 }.srcLen.toNat - 16) ∧
      PartlyOverlap { decReady with dstPtr := 0x42 } ({ decReady with dstPtr := 0x42 }.srcLen.toNat - 16)) ∧
    DecArguments { base with srcPtr := 0xFFF0, srcLen := 16, dstPtr := 0x10000 } := by
  refine ⟨by decide, ⟨by decide, ?_⟩, ⟨by decide +kernel, buffersFit _ _ (by decide +kernel), by decide +kernel, 0x42,
    by decide +kernel⟩, by decide, buffersFit _ _ (by decide +kernel), not_partlyOverlap _ _ (.inr (by decide +kernel))⟩
  rintro ⟨_, h, _⟩
  exact absurd h (by decide +kernel)

theorem witness_AeadEncWritesCiphertextAndTag : encReady.dmem.wf ∧ EncArguments encReady :=
  ⟨by decide +kernel, encArguments_encReady⟩

theorem decArguments_decReady : DecArguments decReady :=
  ⟨by decide +kernel, buffersFit _ _ (by decide +kernel), not_partlyOverlap _ _ (.inr (by decide +kernel))⟩

theorem witness_AeadDecReleasesThePlaintextOnAMatch :
    decReady.dmem.wf ∧ DecArguments decReady ∧
    expectedTag decReady (decCiphertext decReady) = decProvidedTag decReady :=
  ⟨by decide +kernel, decArguments_decReady, by rw [expectedTag_eq]; decide +kernel⟩

theorem witness_AeadDecReleasesNothingOnAMismatch :
    DecArguments decBad ∧ expectedTag decBad (decCiphertext decBad) ≠ decProvidedTag decBad :=
  ⟨⟨by decide +kernel, buffersFit _ _ (by decide +kernel), not_partlyOverlap _ _ (.inr (by decide +kernel))⟩,
    by rw [expectedTag_eq]; decide +kernel⟩

theorem witness_AeadDecryptsWhatItEncrypted :
    let s := encReady
    let t := after (exec .aeadEnc s)
    let u := decReady
    s.dmem.wf ∧ EncArguments s ∧ exec .aeadEnc s = .next t ∧ u.dmem.wf ∧ u.key = s.key ∧ u.nonce = s.nonce ∧
    aad u = aad s ∧ u.srcPtr = s.dstPtr ∧ u.srcLen.toNat = s.srcLen.toNat + 16 ∧
    src u = t.dmem.readBytes s.dstPtr.toNat (s.srcLen.toNat + 16) ∧ DecArguments u :=
  ⟨by decide +kernel, encArguments_encReady, eq_next_after _ (by decide +kernel), by decide +kernel, by decide +kernel,
    by decide +kernel, by decide +kernel, by decide +kernel, by decide +kernel, by decide +kernel, decArguments_decReady⟩

/-- Two states that agree on the inputs and on nothing else of note. -/
theorem witness_AeadDependsOnItsInputsAlone :
    let s := decReady
    let u := { put decReady 0x1000 [9] with s := sUp, ctr := 7, ovr := true }
    s.dmem.wf ∧ u.dmem.wf ∧ SameAeadInputs s u ∧ encChecks s = none ∧ (after (exec .aeadDec s)).report = .ok := by
  refine ⟨by decide +kernel, by decide +kernel, ⟨rfl, rfl, rfl, rfl, rfl, rfl, rfl, rfl, ?_, ?_⟩, by decide +kernel,
    by decide +kernel⟩
  all_goals
    rintro a ⟨_, h2⟩
    have h3 : a < 0x1000 := Nat.lt_trans h2 (by decide +kernel)
    show ((put decReady 0x1000 [9]).dmem).read a = _
    simp only [put, State.setDmem_dmem, Memory.writeBytes]
    rw [Memory.read_write _ (by decide +kernel), if_neg (by omega)]

/-- The same bytes at other places. -/
theorem witness_EqualInputsEncryptEqually :
    let s := encReady
    let u := { put (put keyed 0x101 (hex 2 0x6164)) 0x203 (hex 3 0x686921) with
      aadPtr := 0x101, aadLen := 2, srcPtr := 0x203, srcLen := 3, dstPtr := 0x203 }
    s.dmem.wf ∧ u.dmem.wf ∧ EncArguments s ∧ EncArguments u ∧ u.key = s.key ∧ u.nonce = s.nonce ∧ aad u = aad s ∧
    src u = src s :=
  ⟨by decide +kernel, by decide +kernel, encArguments_encReady,
    ⟨buffersFit _ _ (by decide +kernel), not_partlyOverlap _ _ (.inl (by decide +kernel))⟩, by decide +kernel,
    by decide +kernel, by decide +kernel, by decide +kernel⟩

/-! ## Witnesses: codes, flags, the whole machine -/

/-- A failure of each kind FailuresArePrecise tells apart: an argument check, PVER, an exhausted counter, a mismatch. -/
theorem witness_FailuresArePrecise :
    (exec .aeadEnc { encReady with dstPtr := 0x12 } = .next (after (exec .aeadEnc { encReady with dstPtr := 0x12 })) ∧
      (after (exec .aeadEnc { encReady with dstPtr := 0x12 })).report ≠ .ok) ∧
    (∃ t, exec .pver { base with ptag := #v[1, 0, 0, 0] } = .next t ∧ t.report ≠ .ok) ∧
    (∃ t, exec (.ksblk false false false) { base with ctrexh := true } = .next t ∧ t.report ≠ .ok) ∧
    (exec .aeadDec decBad = .next (after (exec .aeadDec decBad)) ∧ (after (exec .aeadDec decBad)).report ≠ .ok) :=
  ⟨⟨eq_next_after _ (by decide +kernel), by decide +kernel⟩, ⟨_, rfl, by decide⟩,
    ⟨_, rfl, by decide⟩, ⟨eq_next_after _ (by decide +kernel), by decide +kernel⟩⟩

/-- NOP has the premises of every clause of EachRegisterHasItsWriters; KSBLK without INC those of the counter's, PFIN those of
every register but TAG. -/
theorem witness_EachRegisterHasItsWriters :
    (∃ t, exec .nop base = .next t) ∧ (∀ n : RegName, n ∉ registersWritten .nop) ∧
    (Instr.nop ≠ .pver ∧ Instr.nop ≠ .aeadDec ∧ Instr.nop ≠ .aeadEnc ∧ Instr.nop ≠ .zeroize true) ∧
    (∃ t, exec (.ksblk false false false) base = .next t) ∧ .ctr ∉ registersWritten (.ksblk false false false) ∧
    (∃ t, exec .pfin base = .next t) ∧ .ph ∉ registersWritten .pfin ∧ .tag ∈ registersWritten .pfin :=
  ⟨⟨_, rfl⟩, fun n => by cases n <;> decide, by decide, ⟨_, rfl⟩, by decide, ⟨_, rfl⟩, by decide, by decide⟩

theorem witness_AuthokRisesOnlyByAMatch :
    let s := busyWith base 0x23
    s.authok = false ∧ step s = .next (after (step s)) ∧ (after (step s)).authok = true :=
  ⟨by decide, eq_next_after _ (by decide +kernel), by decide +kernel⟩

theorem witness_InterruptFollowsCompletion :
    let s := busyWith { base with ie := true } 0x0
    s.busy = true ∧ (0x2#32).getLsbD 1 = true := by decide

/-! ## Witnesses: host accesses -/

/-- Misaligned offsets at both ends; partial strobes at a register, past the registers, and past DMEM; reserved offsets at the
ends of each gap of the map. -/
theorem witness_BadAndReservedAccessesHaveNoEffect :
    ((0x001#32).toNat % 4 ≠ 0 ∧ (0xFFFFFFFF#32).toNat % 4 ≠ 0) ∧
    ((0x1A4#32).toNat % 4 = 0 ∧ ¬DmemOffset base (0x1A4#32).toNat ∧ ¬DmemOffset base (0xFFFC#32).toNat ∧
      ¬DmemOffset base (0x20000#32).toNat ∧ 0b0111#4 ≠ 0b1111#4) ∧
    (¬RegisterOffset (0x014#32).toNat ∧ ¬RegisterOffset (0x01C#32).toNat ∧ ¬RegisterOffset (0x05C#32).toNat ∧
      ¬RegisterOffset (0x154#32).toNat ∧ ¬RegisterOffset (0x15C#32).toNat ∧ ¬RegisterOffset (0x1A8#32).toNat ∧
      ¬RegisterOffset (0xFFFFFFFC#32).toNat ∧ ¬DmemOffset base (0xFFFFFFFC#32).toNat) := by
  simp only [DmemOffset, RegisterOffset]
  refine ⟨?_, ?_, ?_, ?_, ?_, ?_, ?_, ?_, ?_, ?_⟩ <;> decide +kernel

theorem witness_CmdWriteIsAcceptedWhenIdle : base.busy = false := rfl

theorem witness_BusyRisesOnlyByACmdWrite :
    let s := events base [.write 0x000 0xFF 0b1111]
    s.busy = false ∧ step s = .next (after (step s)) ∧ (after (step s)).busy = true :=
  ⟨by decide, eq_next_after _ (by decide +kernel), by decide +kernel⟩

/-- CMD, the registers at the ends of the map, the first and the last DMEM word, the reserved offsets at the ends of a gap and
past DMEM, and a CTRL write without SRST. -/
theorem witness_WritesWhileBusyAreDropped :
    (busyWith base 5).busy = true ∧
    (RegisterOffset (0x000#32).toNat ∧ RegisterOffset (0x00C#32).toNat ∧ RegisterOffset (0x1A4#32).toNat ∧
      0x1A4#32 ≠ 0x004#32 ∧ 0x1A4#32 ≠ 0x008#32 ∧ (0x1A4#32).toNat % 4 = 0) ∧
    (DmemOffset (busyWith base 5) (0x10000#32).toNat ∧ DmemOffset (busyWith base 5) (0x1FFFC#32).toNat) ∧
    (¬RegisterOffset (0x014#32).toNat ∧ ¬RegisterOffset (0x1A8#32).toNat ∧ ¬RegisterOffset (0x20000#32).toNat) ∧
    (¬DmemOffset (busyWith base 5) (0xFFFC#32).toNat ∧ ¬DmemOffset (busyWith base 5) (0x20000#32).toNat) ∧
    (0x1#32).getLsbD 1 = false := by
  simp only [DmemOffset, RegisterOffset]
  refine ⟨?_, ?_, ?_, ?_, ?_, ?_⟩ <;> decide +kernel

/-- OVR rises by a dropped write, and falls by STATUS bit 2 and by a soft reset. -/
theorem witness_OvrMarksADroppedWrite :
    (let s := events (busyWith base 5) [.write 0x1FFFC 1 0b0000]
     step s = .next (after (step s)) ∧ s.ovr = false ∧ (after (step s)).ovr = true) ∧
    (let s := events { base with ovr := true } [.write 0x004 4 0b1111]
     step s = .next (after (step s)) ∧ s.ovr = true ∧ (after (step s)).ovr = false) ∧
    (let s := events { base with ovr := true } [.write 0x008 2 0b1111]
     step s = .next (after (step s)) ∧ s.ovr = true ∧ (after (step s)).ovr = false) :=
  ⟨⟨eq_next_after _ (by decide +kernel), by decide, by decide +kernel⟩,
    ⟨eq_next_after _ (by decide +kernel), by decide, by decide +kernel⟩,
    ⟨eq_next_after _ (by decide +kernel), by decide, by decide +kernel⟩⟩

/-- CTREXH falls by a CTR write, by ZEROIZE and by a reset. -/
theorem witness_ExhaustionEndsOnlyByCtrZeroizeOrReset :
    (let s := events { base with ctrexh := true } [.write 0x058 5 0b1111]
     s.ctrexh = true ∧ step s = .next (after (step s)) ∧ (after (step s)).ctrexh = false) ∧
    (let s := busyWith { base with ctrexh := true } 0x3F
     s.ctrexh = true ∧ step s = .next (after (step s)) ∧ (after (step s)).ctrexh = false) ∧
    (let s := events { base with ctrexh := true } [.powerOn]
     s.ctrexh = true ∧ step s = .next (after (step s)) ∧ (after (step s)).ctrexh = false) :=
  ⟨⟨by decide, eq_next_after _ (by decide +kernel), by decide +kernel⟩,
    ⟨by decide, eq_next_after _ (by decide +kernel), by decide +kernel⟩,
    ⟨by decide, eq_next_after _ (by decide +kernel), by decide +kernel⟩⟩

/-- KEY's ends, the ends of the data registers, and DMEM's ends. -/
theorem witness_ReadsWhileBusyAreDraws :
    (busyWith base 5).busy = true ∧
    ((0x020#32).toNat % 4 = 0 ∧ 0x20 ≤ (0x020#32).toNat ∧ (0x03C#32).toNat < 0x40) ∧
    (RegisterOffset (0x040#32).toNat ∧ 0x40 ≤ (0x040#32).toNat ∧ RegisterOffset (0x1A4#32).toNat) ∧
    (DmemOffset (busyWith base 5) (0x10000#32).toNat ∧ DmemOffset (busyWith base 5) (0x1FFFC#32).toNat) := by
  simp only [DmemOffset, RegisterOffset]
  decide +kernel

theorem witness_ReadsHaveNoSideEffect : base.busy = false := rfl

/-- The ends of the RW registers, and CTR. -/
theorem witness_RwRegistersReadBackTheWrite :
    base.busy = false ∧ (RwOffset (0x040#32).toNat ∧ RwOffset (0x1A0#32).toNat ∧ (0x1A0#32).toNat % 4 = 0) ∧
    (RwOffset (0x058#32).toNat ∧ 0x05C#32 ≠ 0x058#32 ∧ 0x05C#32 ≠ 0x004#32) := by
  simp only [RwOffset]
  decide

theorem witness_RoAndConstRegistersIgnoreWrites :
    base.busy = false ∧ RoOffset (0x00C#32).toNat ∧ RoOffset (0x010#32).toNat ∧ RoOffset (0x150#32).toNat ∧
    RoOffset (0x1A4#32).toNat ∧ (0x1A4#32).toNat % 4 = 0 := by
  simp only [RoOffset]
  decide

theorem witness_KeyIsWriteOnly : keyed.busy = false := rfl

/-- The first and the last DMEM word. -/
theorem witness_DmemWindowIsLittleEndianBytes :
    common.busy = false ∧ common.dmem.wf ∧
    ((0x10000#32).toNat = 0x10000 + 0 ∧ 0 % 4 = 0 ∧ 0 < common.dmemBytes) ∧
    ((0x1FFFC#32).toNat = 0x10000 + 0xFFFC ∧ 0xFFFC % 4 = 0 ∧ 0xFFFC < common.dmemBytes) := by decide +kernel

theorem witness_ResetSetsEveryRegister : (0x2#32).getLsbD 1 = true ∧ (0xFFFFFFFF#32).getLsbD 1 = true := by decide

theorem witness_ResetKeepsOrDrawsDmem : common.busy = false := rfl

/-- An abort of AEAD_ENC (T70.15) and of `zeroize dmem`. -/
theorem witness_AbortLeavesEachByteOldOrNew :
    ((busyWith encReady 0x30).busy = true ∧ (busyWith encReady 0x30).dmem.wf ∧ (0x2#32).getLsbD 1 = true) ∧
    ((busyWith common 0x13F).busy = true ∧ (busyWith common 0x13F).dmem.wf) := by decide +kernel

end Sys2Proof.Tests
end

section
/-!
PROOFS. What each command may change, how a command ends, and one lemma per operation that says once what the engine's
turn, a soft reset and a write of a register can do (10_state.md, 70_reset_and_hazards.md).
-/

namespace Sys2Proof.Machine

open Sys2Proof.Claims

/-! ## What each command may change (10_state.md R27 to R41, R46) -/

/-- `t` keeps what no command writes, every register outside `registersWritten i`, AUTHOK unless `i` compares tags, and DMEM,
as data, unless `i` writes memory. -/
structure WritesOnly (i : Instr) (s t : State) : Prop where
  hostSide : KeepsHostSide s t
  key : .key ∉ registersWritten i → t.key = s.key
  nonce : .nonce ∉ registersWritten i → t.nonce = s.nonce
  counter : .ctr ∉ registersWritten i → KeepsCounter s t
  subkey : .subkey ∉ registersWritten i → t.subkey = s.subkey
  sWords : .s ∉ registersWritten i → t.s = s.s
  ks : .ks ∉ registersWritten i → t.ks = s.ks
  pkey : .pkey ∉ registersWritten i → t.pkey = s.pkey
  pr : .pr ∉ registersWritten i → t.pr = s.pr
  ps : .ps ∉ registersWritten i → t.ps = s.ps
  ph : .ph ∉ registersWritten i → t.ph = s.ph
  pblk : .pblk ∉ registersWritten i → t.pblk = s.pblk
  tag : .tag ∉ registersWritten i → t.tag = s.tag
  ptag : .ptag ∉ registersWritten i → t.ptag = s.ptag
  outLen : .outLen ∉ registersWritten i → t.outLen = s.outLen
  authok : i ≠ .pver → i ≠ .aeadDec → t.authok = s.authok
  dmem : i ≠ .zeroize true → i ≠ .aeadEnc → i ≠ .aeadDec → t.dmem = s.dmem

/-- A completion by itself writes only STATUS, which every command may do. -/
theorem writesOnly_finish (i : Instr) (s : State) (c : Completion) : WritesOnly i s (s.finish c) := by
  constructor <;> simp [KeepsHostSide, KeepsCounter]

/-- The commands on S alone, in one form (40_permutation.md R127). -/
theorem writesOnly_setS {i : Instr} (hi : .s ∈ registersWritten i) (s : State) (v : Vector Word 16) :
    WritesOnly i s ((s.setS v).finish .ok) := by
  constructor <;> simp [KeepsHostSide, KeepsCounter, hi]

theorem exec_pver (s : State) :
    exec .pver s = .next ((s.setAuthok (decide (s.tag = s.ptag))).finish
      (if decide (s.tag = s.ptag) = true then .ok else .authenticationFailure)) := rfl

theorem writesOnly_ksblk {ksel nsel inc : Bool} {s t : State} (h : exec (.ksblk ksel nsel inc) s = .next t) :
    WritesOnly (.ksblk ksel nsel inc) s t := by
  rw [exec_ksblk] at h
  split at h
  · cases h
    exact writesOnly_finish _ s _
  · cases h
    cases inc
    · constructor <;> simp [KeepsHostSide, KeepsCounter, registersWritten]
    · constructor <;> simp [KeepsHostSide, registersWritten, advanceCounter_eq]

theorem writesOnly_aeadEnc {s t : State} (h : exec .aeadEnc s = .next t) : WritesOnly .aeadEnc s t := by
  obtain ⟨c, -, hc⟩ | ⟨-, out, -, hc⟩ := execAeadEnc_cases s <;> cases hc.symm.trans h
  · exact writesOnly_finish _ s c
  · constructor <;> simp [KeepsHostSide, KeepsCounter, registersWritten]

theorem writesOnly_aeadDec {s t : State} (h : exec .aeadDec s = .next t) : WritesOnly .aeadDec s t := by
  obtain ⟨c, -, hc⟩ | ⟨-, -, hc⟩ | ⟨-, p, -, -, hc⟩ := execAeadDec_cases s <;> cases hc.symm.trans h
  · exact writesOnly_finish _ s c
  · constructor <;> simp [KeepsHostSide, KeepsCounter, registersWritten]
  · constructor <;> simp [KeepsHostSide, KeepsCounter, registersWritten]

theorem exec_writesOnly {i : Instr} {s t : State} (h : exec i s = .next t) : WritesOnly i s t := by
  cases i with
  | nop => cases h; exact writesOnly_finish _ s _
  | qr a b c d => cases h; exact writesOnly_setS List.mem_cons_self s _
  | colrnd => cases h; exact writesOnly_setS List.mem_cons_self s _
  | diagrnd => cases h; exact writesOnly_setS List.mem_cons_self s _
  | dblrnd => cases h; exact writesOnly_setS List.mem_cons_self s _
  | perm => cases h; exact writesOnly_setS List.mem_cons_self s _
  | hchacha => cases h; constructor <;> simp [KeepsHostSide, KeepsCounter, registersWritten]
  | ksblk ksel nsel inc => exact writesOnly_ksblk h
  | pinit p => cases h; constructor <;> simp [KeepsHostSide, KeepsCounter, registersWritten]
  | pblk n => cases h; constructor <;> simp [KeepsHostSide, KeepsCounter, registersWritten]
  | pfin => cases h; constructor <;> simp [KeepsHostSide, KeepsCounter, registersWritten]
  | pver => cases h; constructor <;> simp [KeepsHostSide, KeepsCounter]
  | aeadEnc => exact writesOnly_aeadEnc h
  | aeadDec => exact writesOnly_aeadDec h
  | zeroize dm => cases dm <;> cases h <;> constructor <;> simp [KeepsHostSide, registersWritten]

/-- Settles O42, by the effect of each command on each field. -/
theorem eachRegisterHasItsWriters : Obligations.EachRegisterHasItsWriters := by
  intro i s t h
  have hw := exec_writesOnly h
  exact ⟨hw.hostSide, hw.key, hw.nonce, hw.counter, hw.subkey, hw.sWords, hw.ks, hw.pkey, hw.pr, hw.ps, hw.ph, hw.pblk,
    hw.tag, hw.ptag, hw.outLen, hw.authok, fun h1 h2 h3 a => by rw [hw.dmem h1 h2 h3]⟩

/-! ## How a command ends (70_reset_and_hazards.md R276) -/

theorem exec_busy {i : Instr} {s t : State} (h : exec i s = .next t) : t.busy = false := by
  cases i with
  | ksblk ksel nsel inc =>
    rw [exec_ksblk] at h
    split at h <;> cases h <;> rfl
  | aeadEnc =>
    obtain ⟨c, -, hc⟩ | ⟨-, out, -, hc⟩ := execAeadEnc_cases s <;> cases hc.symm.trans h <;> rfl
  | aeadDec =>
    obtain ⟨c, -, hc⟩ | ⟨-, -, hc⟩ | ⟨-, p, -, -, hc⟩ := execAeadDec_cases s <;> cases hc.symm.trans h <;> rfl
  | zeroize dm => cases dm <;> cases h <;> rfl
  | _ => cases h; rfl

/-- A command raises AUTHOK only by a match, and then it ends OK (10_state.md R23). -/
theorem exec_raises_authok {i : Instr} {s t : State} (h : exec i s = .next t) (hs : s.authok = false)
    (ht : t.authok = true) : t.report = .ok ∧ ((i = .pver ∧ s.tag = s.ptag) ∨ i = .aeadDec) := by
  by_cases hp : i = .pver
  · subst hp
    cases (exec_pver s).symm.trans h
    have heq : s.tag = s.ptag := by simpa using ht
    simp [heq]
  · by_cases hd : i = .aeadDec
    · subst hd
      obtain ⟨c, -, hc⟩ | ⟨-, -, hc⟩ | ⟨-, p, -, -, hc⟩ := execAeadDec_cases s <;> cases hc.symm.trans h
      · simp [hs] at ht
      · simp [hs] at ht
      · simp
    · have hkeep := (exec_writesOnly h).authok hp hd
      simp [hkeep, hs] at ht

/-- The engine's turn leaves an idle state alone, completes an illegal word, or runs the command in flight. -/
theorem engineStep_next {s t : State} (h : engineStep s = .next t) :
    (s.busy = false ∧ t = s) ∨ (s.busy = true ∧ ∃ c, t = s.finish c) ∨
    (s.busy = true ∧ ∃ i, decode s.cmd = .command i ∧ exec i s = .next t) := by
  obtain ⟨hb, he⟩ | ⟨hb, -, he⟩ | ⟨hb, -, he⟩ | ⟨hb, i, hi, he⟩ := engineStep_cases s <;> rw [he] at h
  · exact .inl ⟨hb, (Host.Outcome.next.inj h).symm⟩
  · exact .inr (.inl ⟨hb, _, (Host.Outcome.next.inj h).symm⟩)
  · exact .inr (.inl ⟨hb, _, (Host.Outcome.next.inj h).symm⟩)
  · exact .inr (.inr ⟨hb, i, hi, h⟩)

theorem engineStep_keepsHostSide {s t : State} (h : engineStep s = .next t) : KeepsHostSide s t := by
  obtain ⟨-, rfl⟩ | ⟨-, c, rfl⟩ | ⟨-, i, -, he⟩ := engineStep_next h
  · simp [KeepsHostSide]
  · simp [KeepsHostSide]
  · exact (exec_writesOnly he).hostSide

theorem engineStep_busy {s t : State} (h : engineStep s = .next t) : t.busy = false := by
  obtain ⟨hb, rfl⟩ | ⟨-, c, rfl⟩ | ⟨-, i, -, he⟩ := engineStep_next h
  · exact hb
  · rfl
  · exact exec_busy he

/-- The engine raises AUTHOK only at the end of a command in flight whose tags match (10_state.md R23). -/
theorem engineStep_raises_authok {s t : State} (h : engineStep s = .next t) (hs : s.authok = false)
    (ht : t.authok = true) : s.busy = true ∧ t.report = .ok ∧
      ((decode s.cmd = .command .pver ∧ s.tag = s.ptag) ∨ decode s.cmd = .command .aeadDec) := by
  obtain ⟨-, rfl⟩ | ⟨-, c, rfl⟩ | ⟨hb, i, hi, he⟩ := engineStep_next h
  · simp [hs] at ht
  · simp [hs] at ht
  · obtain ⟨hr, ⟨rfl, heq⟩ | rfl⟩ := exec_raises_authok he hs ht
    · exact ⟨hb, hr, .inl ⟨hi, heq⟩⟩
    · exact ⟨hb, hr, .inr hi⟩

/-! ## The reset operations (70_reset_and_hazards.md R271 to R273) -/

/-- A soft reset: the registers alone, or DMEM also as an abort leaves it. -/
theorem softReset_cases (s : State) :
    (s.busy = false ∧ softReset s = s.resetRegisters) ∨
    (s.busy = true ∧ softReset s = ((s.resetRegisters).setDmem (abortedDmem s)).takeDraw) := by
  cases hb : s.busy <;> simp [softReset, hb]

@[simp] theorem softReset_busy (s : State) : (softReset s).busy = false := by
  obtain ⟨-, h⟩ | ⟨-, h⟩ := softReset_cases s <;> rw [h] <;> rfl

@[simp] theorem softReset_authok (s : State) : (softReset s).authok = false := by
  obtain ⟨-, h⟩ | ⟨-, h⟩ := softReset_cases s <;> rw [h] <;> rfl

@[simp] theorem softReset_ovr (s : State) : (softReset s).ovr = false := by
  obtain ⟨-, h⟩ | ⟨-, h⟩ := softReset_cases s <;> rw [h] <;> rfl

/-! ## Writes of registers (70_reset_and_hazards.md R275, R277) -/

/-- A register without a write operation of its own: dropped while BUSY, else written. -/
theorem registerWrite_data (s : State) {n : RegName} (i : Nat) (v : Word) (hst : n ≠ .status) (hct : n ≠ .ctrl)
    (hcm : n ≠ .cmd) : registerWrite s n i v = if s.busy then s.setOvr true else writeReg s n i v := by
  cases n <;> try rfl
  all_goals contradiction

/-- What a write of a register can do. -/
theorem registerWrite_cases (s : State) (n : RegName) (i : Nat) (v : Word) :
    (n = .status ∧ registerWrite s n i v = statusWrite s v) ∨
    (n = .ctrl ∧ v.getLsbD 1 = true ∧ registerWrite s n i v = softReset s) ∨
    (n = .ctrl ∧ v.getLsbD 1 = false ∧ registerWrite s n i v = s.setIe (v.getLsbD 0)) ∨
    (n ≠ .status ∧ n ≠ .ctrl ∧ s.busy = true ∧ registerWrite s n i v = s.setOvr true) ∨
    (n = .cmd ∧ s.busy = false ∧ registerWrite s n i v = s.accept v) ∨
    (n ≠ .status ∧ n ≠ .ctrl ∧ n ≠ .cmd ∧ s.busy = false ∧ registerWrite s n i v = writeReg s n i v) := by
  by_cases hst : n = .status
  · subst hst
    exact .inl ⟨rfl, rfl⟩
  by_cases hct : n = .ctrl
  · subst hct
    cases hv : v.getLsbD 1 with
    | true => exact .inr (.inl ⟨rfl, rfl, if_pos hv⟩)
    | false => exact .inr (.inr (.inl ⟨rfl, rfl, if_neg (by rw [hv]; decide)⟩))
  by_cases hcm : n = .cmd
  · subst hcm
    cases hb : s.busy <;> simp [registerWrite, hb]
  · rw [registerWrite_data s i v hst hct hcm]
    cases hb : s.busy <;> simp [hst, hct, hcm]

end Sys2Proof.Machine
end

section
/-!
PROOFS. AUTHOK and the invariant: each event of a step keeps the half about DMEM and the MAC registers and the half about
STATUS (10_state.md R23, R34, R36, 20_memory.md R60).
-/

namespace Sys2Proof.Machine

open Sys2Proof.Claims

/-! ## What a host access leaves -/

@[simp] theorem writeReg_cmd (s : State) (n : RegName) (i : Nat) (v : Word) : (writeReg s n i v).cmd = s.cmd := by
  cases n <;> rfl
@[simp] theorem writeReg_busy (s : State) (n : RegName) (i : Nat) (v : Word) : (writeReg s n i v).busy = s.busy := by
  cases n <;> rfl
@[simp] theorem writeReg_done (s : State) (n : RegName) (i : Nat) (v : Word) : (writeReg s n i v).done = s.done := by
  cases n <;> rfl
@[simp] theorem writeReg_ovr (s : State) (n : RegName) (i : Nat) (v : Word) : (writeReg s n i v).ovr = s.ovr := by
  cases n <;> rfl
@[simp] theorem writeReg_authok (s : State) (n : RegName) (i : Nat) (v : Word) :
    (writeReg s n i v).authok = s.authok := by
  cases n <;> rfl
@[simp] theorem writeReg_report (s : State) (n : RegName) (i : Nat) (v : Word) :
    (writeReg s n i v).report = s.report := by
  cases n <;> rfl
@[simp] theorem writeReg_dmemsz (s : State) (n : RegName) (i : Nat) (v : Word) :
    (writeReg s n i v).dmemsz = s.dmemsz := by
  cases n <;> rfl
@[simp] theorem writeReg_pr (s : State) (n : RegName) (i : Nat) (v : Word) : (writeReg s n i v).pr = s.pr := by
  cases n <;> rfl
@[simp] theorem writeReg_ph (s : State) (n : RegName) (i : Nat) (v : Word) : (writeReg s n i v).ph = s.ph := by
  cases n <;> rfl
@[simp] theorem writeReg_dmem (s : State) (n : RegName) (i : Nat) (v : Word) : (writeReg s n i v).dmem = s.dmem := by
  cases n <;> rfl
@[simp] theorem writeReg_draws (s : State) (n : RegName) (i : Nat) (v : Word) :
    (writeReg s n i v).draws = s.draws := by
  cases n <;> rfl

/-- A host write of the DMEM window: dropped, or the lanes written. -/
theorem dmemWrite_cases (s : State) (a : Nat) (v : Word) (strb : BitVec 4) :
    (s.busy = true ∧ dmemWrite s a v strb = s.setOvr true) ∨
    (s.busy = false ∧ dmemWrite s a v strb = s.setDmem (writeLanes s.dmem a v strb)) := by
  cases hb : s.busy <;> simp [dmemWrite, hb]

/-! ## AUTHOK (10_state.md R23, R46) -/

/-- No host write raises AUTHOK. -/
theorem hostWrite_authok_clear {s : State} {off v : Word} {strb : BitVec 4} (hs : s.authok = false) :
    (hostWrite s off v strb).authok = false := by
  obtain h | h | ⟨a, -, -, -, h⟩ | ⟨r, i, -, -, -, h⟩ := hostWrite_cases s off v strb <;> rw [h]
  · exact hs
  · exact hs
  · obtain ⟨-, h⟩ | ⟨-, h⟩ := dmemWrite_cases s a v strb <;> rw [h] <;> exact hs
  · obtain ⟨-, h⟩ | ⟨-, -, h⟩ | ⟨-, -, h⟩ | ⟨-, -, -, h⟩ | ⟨-, -, h⟩ | ⟨-, -, -, -, h⟩ :=
      registerWrite_cases s r.name i v <;> simp [h, statusWrite, hs]

/-- No host read changes AUTHOK. -/
theorem hostRead_authok (s : State) (off : Word) : (hostRead s off).authok = s.authok := by
  obtain ⟨r, h⟩ | ⟨-, h⟩ := hostRead_cases s off <;> rw [h] <;> rfl

/-- Settles O44: only the engine's turn can raise AUTHOK, and there only a command whose tags match does. -/
theorem authokRisesOnlyByAMatch : Obligations.AuthokRisesOnlyByAMatch := by
  intro s t hs h ht
  obtain (⟨-, he⟩ | ⟨es, -, he⟩) | ⟨off, es, -, he⟩ | ⟨off, v, strb, es, -, he⟩ | ⟨es, -, he⟩ := step_cases s <;>
    rw [he] at h
  · exact engineStep_raises_authok h hs ht
  · exact engineStep_raises_authok (s := s.setSchedule es) h hs ht
  · cases h
    simp [hostRead_authok, hs] at ht
  · cases h
    simp [hostWrite_authok_clear (s := s.setSchedule es) hs] at ht
  · cases h
    simp [powerOnReset] at ht

/-! ## The invariant, in its two halves -/

/-- The clauses of the invariant about DMEM and the MAC registers. -/
structure State.DataInv (s : State) : Prop where
  sizeLegal : Config.legalDmemBytes s.dmemBytes = true
  dmemWf : s.dmem.wf
  dmemWithin : s.dmem.within s.dmemBytes
  phReduced : numOf s.ph.toList < polyP
  prClamped : numOf s.pr.toList &&& clampMask = numOf s.pr.toList

/-- The clauses of the invariant about STATUS. -/
structure State.FlagInv (s : State) : Prop where
  busyQuiet : s.busy = true → s.done = false ∧ s.authok = false ∧ s.report = .ok
  authokMeans : s.authok = true →
    s.report = .ok ∧ (decode s.cmd = .command .pver ∨ decode s.cmd = .command .aeadDec)

theorem State.inv_iff (s : State) : s.Inv ↔ s.DataInv ∧ s.FlagInv :=
  ⟨fun ⟨h1, h2, h3, h4, h5, h6, h7⟩ => ⟨⟨h1, h2, h3, h4, h5⟩, ⟨h6, h7⟩⟩,
    fun ⟨⟨h1, h2, h3, h4, h5⟩, ⟨h6, h7⟩⟩ => ⟨h1, h2, h3, h4, h5, h6, h7⟩⟩

/-! ### The data half -/

variable {s t : State}

theorem State.DataInv.of_eq (h : s.DataInv) (hsize : t.dmemsz = s.dmemsz) (hdmem : t.dmem = s.dmem)
    (hph : t.ph = s.ph) (hpr : t.pr = s.pr) : t.DataInv := by
  have hbytes : t.dmemBytes = s.dmemBytes := by rw [State.dmemBytes, hsize, State.dmemBytes]
  obtain ⟨h1, h2, h3, h4, h5⟩ := h
  constructor
  · rwa [hbytes]
  · rwa [hdmem]
  · rwa [hdmem, hbytes]
  · rwa [hph]
  · rwa [hpr]

theorem State.DataInv.setDmem (h : s.DataInv) {m : Memory} (hwf : m.wf) (hin : m.within s.dmemBytes) :
    (s.setDmem m).DataInv :=
  ⟨h.sizeLegal, hwf, hin, h.phReduced, h.prClamped⟩

theorem State.DataInv.writeBytes (h : s.DataInv) {a : Nat} {b : List Byte} (hfit : a + b.length ≤ s.dmemBytes) :
    (s.setDmem (s.dmem.writeBytes a b)).DataInv :=
  h.setDmem (Memory.writeBytes_wf b _ h.dmemWf a) (Memory.writeBytes_within b _ _ a h.dmemWithin hfit)

theorem State.DataInv.setPh (h : s.DataInv) {x : Nat} (hx : x < polyP) : (s.setPh (limbs 5 x)).DataInv := by
  refine ⟨h.sizeLegal, h.dmemWf, h.dmemWithin, ?_, h.prClamped⟩
  have hle : numOf (limbs 5 x).toList ≤ x := by
    rw [numOf_limbs]
    exact Nat.mod_le _ _
  exact Nat.lt_of_le_of_lt hle hx

/-- `r` is clamped by construction, and fits its four words (43_poly1305.md R171). -/
theorem numOf_limbs_polyR (k : List Byte) : numOf (limbs 4 (polyR k)).toList = polyR k := by
  rw [numOf_limbs]
  exact Nat.mod_eq_of_lt (Nat.lt_of_le_of_lt Nat.and_le_right (by decide))

theorem State.DataInv.setPolyKey (h : s.DataInv) (k : List Byte) (p : Vector Word 4) :
    (s.setPolyKey (limbs 4 (polyR k)) p).DataInv := by
  refine ⟨h.sizeLegal, h.dmemWf, h.dmemWithin, h.phReduced, ?_⟩
  rw [State.setPolyKey_pr, numOf_limbs_polyR, polyR, Nat.and_assoc, Nat.and_self]

/-- PH and PR cleared, as resets and zeroisations leave them. -/
theorem State.DataInv.zeroPoly (h : s.DataInv) :
    ({ s with ph := Vector.replicate 5 0, pr := Vector.replicate 4 0 } : State).DataInv := by
  have hph : numOf (Vector.replicate 5 (0 : Word)).toList < polyP := by decide
  have hpr : numOf (Vector.replicate 4 (0 : Word)).toList = 0 := by decide
  exact ⟨h.sizeLegal, h.dmemWf, h.dmemWithin, hph, by rw [hpr, Nat.zero_and]⟩

/-- What AEAD_ENC writes lies in DMEM once its checks pass (44_aead.md R202). -/
theorem encOutput_fits {out : List Byte} (hc : encChecks s = none) (ho : encOutput s = .ok out) :
    s.dstPtr.toNat + out.length ≤ s.dmemBytes := by
  obtain ⟨⟨-, -, hdst⟩, -⟩ := (encChecks_none_iff s).mp hc
  cases (encOutput_ok s hc).symm.trans ho
  simp only [length_xenc, Memory.length_readBytes]
  omega

/-- What AEAD_DEC writes lies in DMEM once its checks pass (44_aead.md R204). -/
theorem decOutput_fits {p : List Byte} (hc : decChecks s = none) (ho : decOutput s = .ok (some p)) :
    s.dstPtr.toNat + p.length ≤ s.dmemBytes := by
  obtain ⟨-, ⟨-, -, hdst⟩, -⟩ := (decChecks_none_iff s).mp hc
  have hx := Except.ok.inj ((decOutput_ok s hc).symm.trans ho)
  have hlen := length_xdec _ _ _ _ _ hx
  rw [Memory.length_readBytes] at hlen
  omega

/-- An abort writes only where the completed command would have, which its checks keep inside DMEM
(70_reset_and_hazards.md R273). -/
theorem State.DataInv.abortedDmem (h : s.DataInv) :
    (abortedDmem s).wf ∧ (abortedDmem s).within s.dmemBytes := by
  have hkeep := And.intro h.dmemWf h.dmemWithin
  have habort (out : List Byte) (hfit : s.dstPtr.toNat + out.length ≤ s.dmemBytes) :=
    And.intro (Memory.abortWrite_wf _ h.dmemWf s.draws s.dstPtr.toNat out)
      (Memory.abortWrite_within _ _ h.dmemWithin s.draws s.dstPtr.toNat out hfit)
  unfold Machine.abortedDmem
  split
  · split
    next out hc ho => exact habort out (encOutput_fits hc ho)
    next => exact hkeep
  · split
    next p hc ho => exact habort p (decOutput_fits hc ho)
    next => exact hkeep
  · exact ⟨Memory.abortZero_wf _ h.dmemWf _, Memory.abortZero_within _ _ _ h.dmemWithin⟩
  · exact hkeep

theorem State.DataInv.softReset (h : s.DataInv) : (softReset s).DataInv := by
  have hreg : s.resetRegisters.DataInv := h.zeroPoly.of_eq rfl rfl rfl rfl
  obtain ⟨-, hs⟩ | ⟨-, hs⟩ := softReset_cases s <;> rw [hs]
  · exact hreg
  · exact (hreg.setDmem h.abortedDmem.1 h.abortedDmem.2).of_eq rfl rfl rfl rfl

theorem State.DataInv.powerOnReset (h : s.DataInv) : (powerOnReset s).DataInv :=
  (h.zeroPoly.setDmem (m := ⟨.powerOn s.draws, []⟩) ⟨List.Pairwise.nil, by simp⟩ (by simp)).of_eq rfl rfl rfl rfl

/-- The commands that write PH, PR or DMEM keep the data half; every other command leaves what it speaks of. -/
theorem exec_dataInv {i : Instr} (h : s.DataInv) (he : exec i s = .next t) : t.DataInv := by
  have hw := exec_writesOnly he
  obtain ⟨-, -, -, -, hsize, -⟩ := hw.hostSide
  cases i with
  | pinit p =>
    cases he
    exact ((h.setPolyKey (pinitKey s p) (limbs 4 (polyS (pinitKey s p)))).setPh (by decide)).of_eq rfl rfl rfl rfl
  | pblk n =>
    cases he
    exact (h.setPh (Nat.mod_lt _ (by decide))).of_eq rfl rfl rfl rfl
  | aeadEnc =>
    obtain ⟨c, -, hc⟩ | ⟨hok, out, rfl, hc⟩ := execAeadEnc_cases s <;> cases hc.symm.trans he
    · exact h.of_eq rfl rfl rfl rfl
    · have hfit := encOutput_fits hok (encOutput_ok s hok)
      exact (h.writeBytes hfit).zeroPoly.of_eq rfl rfl rfl rfl
  | aeadDec =>
    obtain ⟨c, -, hc⟩ | ⟨-, -, hc⟩ | ⟨hok, p, hx, -, hc⟩ := execAeadDec_cases s <;> cases hc.symm.trans he
    · exact h.of_eq rfl rfl rfl rfl
    · exact h.zeroPoly.of_eq rfl rfl rfl rfl
    · have hfit := decOutput_fits hok (hx ▸ decOutput_ok s hok)
      exact (h.writeBytes hfit).zeroPoly.of_eq rfl rfl rfl rfl
  | zeroize dm =>
    cases dm <;> cases he
    · exact h.zeroPoly.of_eq rfl rfl rfl rfl
    · exact (h.zeroPoly.setDmem (m := Memory.zeroed) ⟨List.Pairwise.nil, by simp [Memory.zeroed]⟩
        (by simp [Memory.zeroed])).of_eq rfl rfl rfl rfl
  | ksblk ksel nsel inc =>
    have hout : .ph ∉ registersWritten (.ksblk ksel nsel inc) ∧ .pr ∉ registersWritten (.ksblk ksel nsel inc) := by
      cases inc <;> exact ⟨by simp [registersWritten], by simp [registersWritten]⟩
    exact h.of_eq hsize (hw.dmem nofun nofun nofun) (hw.ph hout.1) (hw.pr hout.2)
  | _ =>
    exact h.of_eq hsize (hw.dmem nofun nofun nofun) (hw.ph (by simp [registersWritten]))
      (hw.pr (by simp [registersWritten]))

theorem engineStep_dataInv (h : s.DataInv) (he : engineStep s = .next t) : t.DataInv := by
  obtain ⟨-, rfl⟩ | ⟨-, c, rfl⟩ | ⟨-, i, -, he⟩ := engineStep_next he
  · exact h
  · exact h.of_eq rfl rfl rfl rfl
  · exact exec_dataInv h he

theorem registerWrite_dataInv (h : s.DataInv) (n : RegName) (i : Nat) (v : Word) :
    (registerWrite s n i v).DataInv := by
  obtain ⟨-, hc⟩ | ⟨-, -, hc⟩ | ⟨-, -, hc⟩ | ⟨-, -, -, hc⟩ | ⟨-, -, hc⟩ | ⟨-, -, -, -, hc⟩ :=
    registerWrite_cases s n i v <;> rw [hc]
  · exact h.of_eq rfl rfl rfl rfl
  · exact h.softReset
  · exact h.of_eq rfl rfl rfl rfl
  · exact h.of_eq rfl rfl rfl rfl
  · exact h.of_eq rfl rfl rfl rfl
  · exact h.of_eq (by simp) (by simp) (by simp) (by simp)

/-- A DMEM word the host writes lies in DMEM whole, since DMEM_BYTES is a multiple of 4 (00_scope.md R7). -/
theorem dmemWrite_dataInv (h : s.DataInv) {a : Nat} (ha : a < s.dmemBytes) (h4 : a % 4 = 0) (v : Word)
    (strb : BitVec 4) : (dmemWrite s a v strb).DataInv := by
  have hword : a + 3 < s.dmemBytes := by
    have hsize := h.sizeLegal
    simp only [Config.legalDmemBytes, Bool.and_eq_true, decide_eq_true_eq] at hsize
    omega
  obtain ⟨-, hc⟩ | ⟨-, hc⟩ := dmemWrite_cases s a v strb <;> rw [hc]
  · exact h.of_eq rfl rfl rfl rfl
  · exact h.setDmem (writeLanes_wf _ h.dmemWf a v strb) (writeLanes_within _ _ h.dmemWithin a hword v strb)

theorem hostWrite_dataInv (h : s.DataInv) (off v : Word) (strb : BitVec 4) : (hostWrite s off v strb).DataInv := by
  obtain hc | hc | ⟨a, hoff, ha, h4, hc⟩ | ⟨r, i, -, -, -, hc⟩ := hostWrite_cases s off v strb <;> rw [hc]
  · exact h.of_eq rfl rfl rfl rfl
  · exact h.of_eq rfl rfl rfl rfl
  · have ha4 : a % 4 = 0 := by
      simp only [dmemBase] at hoff
      omega
    exact (dmemWrite_dataInv h ha ha4 v strb).of_eq rfl rfl rfl rfl
  · exact (registerWrite_dataInv h r.name i v).of_eq rfl rfl rfl rfl

theorem hostRead_dataInv (h : s.DataInv) (off : Word) : (hostRead s off).DataInv := by
  obtain ⟨r, hc⟩ | ⟨-, hc⟩ := hostRead_cases s off <;> rw [hc] <;> exact h.of_eq rfl rfl rfl rfl

/-! ### The STATUS half -/

theorem State.FlagInv.of_eq (h : s.FlagInv) (hcmd : t.cmd = s.cmd) (hbusy : t.busy = s.busy) (hdone : t.done = s.done)
    (hauthok : t.authok = s.authok) (hreport : t.report = s.report) : t.FlagInv := by
  constructor
  · rw [hbusy, hdone, hauthok, hreport]
    exact h.busyQuiet
  · rw [hauthok, hreport, hcmd]
    exact h.authokMeans

theorem State.FlagInv.of_idle (hbusy : t.busy = false) (hauthok : t.authok = false) : t.FlagInv :=
  ⟨by simp [hbusy], by simp [hauthok]⟩

theorem State.FlagInv.accept (s : State) (w : Word) : (s.accept w).FlagInv := ⟨by simp, by simp⟩

theorem State.FlagInv.statusWrite (h : s.FlagInv) (v : Word) : (statusWrite s v).FlagInv := by
  refine ⟨fun hb => ?_, h.authokMeans⟩
  obtain ⟨hdone, hquiet⟩ := h.busyQuiet hb
  exact ⟨by simp [Machine.statusWrite, hdone], hquiet⟩

theorem engineStep_flagInv (h : s.FlagInv) (he : engineStep s = .next t) : t.FlagInv := by
  obtain ⟨-, rfl⟩ | hb : (s.busy = false ∧ t = s) ∨ s.busy = true :=
    (engineStep_next he).imp_right (·.elim And.left And.left)
  · exact h
  · obtain ⟨-, hquiet, -⟩ := h.busyQuiet hb
    obtain ⟨hcmd, -⟩ := engineStep_keepsHostSide he
    refine ⟨by simp [engineStep_busy he], fun ht => ?_⟩
    obtain ⟨-, hreport, ⟨hpver, -⟩ | hdec⟩ := engineStep_raises_authok he hquiet ht
    · exact ⟨hreport, .inl (hcmd ▸ hpver)⟩
    · exact ⟨hreport, .inr (hcmd ▸ hdec)⟩

theorem registerWrite_flagInv (h : s.FlagInv) (n : RegName) (i : Nat) (v : Word) :
    (registerWrite s n i v).FlagInv := by
  obtain ⟨-, hc⟩ | ⟨-, -, hc⟩ | ⟨-, -, hc⟩ | ⟨-, -, -, hc⟩ | ⟨-, -, hc⟩ | ⟨-, -, -, -, hc⟩ :=
    registerWrite_cases s n i v <;> rw [hc]
  · exact h.statusWrite v
  · exact .of_idle (by simp) (by simp)
  · exact h.of_eq rfl rfl rfl rfl rfl
  · exact h.of_eq rfl rfl rfl rfl rfl
  · exact .accept s v
  · exact h.of_eq (by simp) (by simp) (by simp) (by simp) (by simp)

theorem hostWrite_flagInv (h : s.FlagInv) (off v : Word) (strb : BitVec 4) : (hostWrite s off v strb).FlagInv := by
  obtain hc | hc | ⟨a, -, -, -, hc⟩ | ⟨r, i, -, -, -, hc⟩ := hostWrite_cases s off v strb <;> rw [hc]
  · exact h.of_eq rfl rfl rfl rfl rfl
  · exact h.of_eq rfl rfl rfl rfl rfl
  · obtain ⟨-, hc⟩ | ⟨-, hc⟩ := dmemWrite_cases s a v strb <;> rw [hc] <;> exact h.of_eq rfl rfl rfl rfl rfl
  · exact (registerWrite_flagInv h r.name i v).of_eq rfl rfl rfl rfl rfl

theorem hostRead_flagInv (h : s.FlagInv) (off : Word) : (hostRead s off).FlagInv := by
  obtain ⟨r, hc⟩ | ⟨-, hc⟩ := hostRead_cases s off <;> rw [hc] <;> exact h.of_eq rfl rfl rfl rfl rfl

/-! ### The whole invariant -/

theorem State.Inv.setSchedule (h : s.Inv) (es : List Event) : (s.setSchedule es).Inv :=
  ⟨h.sizeLegal, h.dmemWf, h.dmemWithin, h.phReduced, h.prClamped, h.busyQuiet, h.authokMeans⟩

theorem engineStep_inv (h : s.Inv) (he : engineStep s = .next t) : t.Inv := by
  obtain ⟨hdata, hflag⟩ := s.inv_iff.mp h
  exact t.inv_iff.mpr ⟨engineStep_dataInv hdata he, engineStep_flagInv hflag he⟩

theorem hostRead_inv (h : s.Inv) (off : Word) : (hostRead s off).Inv := by
  obtain ⟨hdata, hflag⟩ := s.inv_iff.mp h
  exact (State.inv_iff _).mpr ⟨hostRead_dataInv hdata off, hostRead_flagInv hflag off⟩

theorem hostWrite_inv (h : s.Inv) (off v : Word) (strb : BitVec 4) : (hostWrite s off v strb).Inv := by
  obtain ⟨hdata, hflag⟩ := s.inv_iff.mp h
  exact (State.inv_iff _).mpr ⟨hostWrite_dataInv hdata off v strb, hostWrite_flagInv hflag off v strb⟩

theorem powerOnReset_inv (h : s.Inv) : (powerOnReset s).Inv := by
  obtain ⟨hdata, -⟩ := s.inv_iff.mp h
  exact (State.inv_iff _).mpr ⟨hdata.powerOnReset, .of_idle rfl rfl⟩

/-- Settles O10, event by event: each keeps the data half and the STATUS half. -/
theorem everyStepKeepsTheInvariant : Obligations.EveryStepKeepsTheInvariant := by
  intro s t h hstep
  obtain (⟨-, he⟩ | ⟨es, -, he⟩) | ⟨off, es, -, he⟩ | ⟨off, v, strb, es, -, he⟩ | ⟨es, -, he⟩ := step_cases s <;>
    rw [he] at hstep
  · exact engineStep_inv h hstep
  · exact engineStep_inv (h.setSchedule es) hstep
  · cases hstep
    exact hostRead_inv (h.setSchedule es) off
  · cases hstep
    exact hostWrite_inv (h.setSchedule es) off v strb
  · cases hstep
    exact powerOnReset_inv (h.setSchedule es)

end Sys2Proof.Machine
end

section
/-!
PROOFS. The register map as the host reads and writes it: the word at each offset, RW, RO and CONST registers, KEY, OVR and
the STATUS word (10_state.md R21 to R47).
-/

namespace Sys2Proof.Machine

open Sys2Proof.Claims

/-! ## The register map, word by word (10_state.md R21) -/

/-- Each word of each row is found at its own offset: no two rows of the map overlap. -/
theorem find?_regMap : ∀ r ∈ regMap, ∀ i < r.words,
    regMap.find? (fun q => q.offset ≤ r.offset + 4 * i && r.offset + 4 * i < q.offset + 4 * q.words) = some r := by
  decide

/-- Every register word lies below the DMEM window, at a multiple of 4. -/
theorem regMap_offsets : ∀ r ∈ regMap, r.offset % 4 = 0 ∧ r.offset + 4 * r.words ≤ 0x1A8 := by decide

theorem regMap_name_injective : ∀ q ∈ regMap, ∀ r ∈ regMap, q.name = r.name → q = r := by decide

/-- Word `i` of row `r` is at window offset `off`. -/
structure RegWordAt (r : RegRow) (i off : Nat) : Prop where
  mem : r ∈ regMap
  index : i < r.words
  offset : off = r.offset + 4 * i

theorem RegWordAt.target {r : RegRow} {i off : Nat} (h : RegWordAt r i off) (s : State) :
    targetOf s off = .reg r i := by
  obtain ⟨hr, hi, rfl⟩ := h
  obtain ⟨-, hend⟩ := regMap_offsets r hr
  have hlow : ¬(dmemBase ≤ r.offset + 4 * i ∧ r.offset + 4 * i < dmemBase + s.dmemBytes) := by
    simp only [dmemBase]
    omega
  have hidx : (r.offset + 4 * i - r.offset) / 4 = i := by omega
  rw [targetOf, if_neg hlow, find?_regMap r hr i hi]
  exact congrArg (Target.reg r) hidx

theorem RegWordAt.aligned {r : RegRow} {i off : Nat} (h : RegWordAt r i off) : off % 4 = 0 := by
  obtain ⟨hr, -, rfl⟩ := h
  obtain ⟨h4, -⟩ := regMap_offsets r hr
  omega

/-- Conversely, an aligned access to a register addresses a word of the map. -/
theorem regWordAt_of_target {s : State} {off i : Nat} {r : RegRow} (h4 : off % 4 = 0)
    (ht : targetOf s off = .reg r i) : RegWordAt r i off := by
  obtain ⟨-, -, hc⟩ | ⟨-, q, hq, hlo, hhi, hc⟩ | ⟨-, -, hc⟩ := targetOf_cases s off
  · simp [hc] at ht
  · obtain ⟨rfl, rfl⟩ : q = r ∧ (off - q.offset) / 4 = i := by simpa [hc] using ht
    obtain ⟨hq4, -⟩ := regMap_offsets q hq
    exact ⟨hq, by omega, by omega⟩
  · simp [hc] at ht

theorem RegWordAt.unique {q r : RegRow} {i j off : Nat} (hq : RegWordAt q i off) (hr : RegWordAt r j off) :
    q = r ∧ i = j := by
  simpa using (hq.target State.reset).symm.trans (hr.target State.reset)

/-- The name of a register and the index of a word determine the offset. -/
theorem RegWordAt.offset_eq {q r : RegRow} {i j x y : Nat} (hq : RegWordAt q i x) (hr : RegWordAt r j y)
    (hn : q.name = r.name) (hij : i = j) : x = y := by
  obtain rfl := regMap_name_injective q hq.mem r hr.mem hn
  rw [hq.offset, hr.offset, hij]

/-! ### The access types as offset ranges (10_state.md R21, R47) -/

/-- An aligned offset inside a row is one of its words. -/
theorem regWordAt_of_row {off : Nat} {r : RegRow} (h4 : off % 4 = 0) (hr : r ∈ regMap)
    (hlo : r.offset ≤ off) (hhi : off < r.offset + 4 * r.words) : RegWordAt r ((off - r.offset) / 4) off := by
  obtain ⟨hr4, -⟩ := regMap_offsets r hr
  exact ⟨hr, by omega, by omega⟩

theorem registerOffset_iff (off : Nat) :
    RegisterOffset off ↔ ∃ r ∈ regMap, r.offset ≤ off ∧ off < r.offset + 4 * r.words := by
  simp only [RegisterOffset, regMap, List.mem_cons, List.not_mem_nil, or_false, exists_eq_or_imp, existsAndEq, true_and]
  omega

theorem RegWordAt.registerOffset {x : Nat} {r : RegRow} {i : Nat} (h : RegWordAt r i x) : RegisterOffset x := by
  obtain ⟨hr, hi, rfl⟩ := h
  exact (registerOffset_iff _).mpr ⟨r, hr, by omega, by omega⟩

theorem rwOffset_iff (off : Nat) :
    RwOffset off ↔ ∃ r ∈ regMap, r.access = .rw ∧ r.offset ≤ off ∧ off < r.offset + 4 * r.words := by
  simp only [RwOffset, regMap, List.mem_cons, List.not_mem_nil, or_false, exists_eq_or_imp, reduceCtorEq, false_and,
    true_and, false_or, and_false, existsAndEq]
  omega

theorem roOffset_iff (off : Nat) :
    RoOffset off ↔
      ∃ r ∈ regMap, (r.access = .ro ∨ r.access = .const) ∧ r.offset ≤ off ∧ off < r.offset + 4 * r.words := by
  simp only [RoOffset, regMap, List.mem_cons, List.not_mem_nil, or_false, exists_eq_or_imp, reduceCtorEq, false_and,
    true_and, false_or, or_true, existsAndEq]
  omega

/-! ### Reads and writes of a register word -/

variable {s t : State} {off v : Word} {r : RegRow} {i : Nat}

/-- A register reads as itself while idle, and also while BUSY where 70_reset_and_hazards.md R278 says so. -/
theorem readData_reg (h : RegWordAt r i off.toNat) (hb : s.busy = false ∨ readsWhileBusy r.name = true) :
    readData s off = some (.read .okay (readReg s r.name i)) := by
  have hreads : ¬(s.busy && !readsWhileBusy r.name) = true := by
    obtain hb | hb := hb <;> simp [hb]
  have h4 : ¬off.toNat % 4 ≠ 0 := not_not.mpr h.aligned
  simp only [readData, hostRead, if_neg h4, h.target s, if_neg hreads, State.setReply_reply]

theorem reads_word (hb : s.busy = false ∨ readsWhileBusy r.name = true) (hr : r ∈ regMap) (hi : i < r.words) {w : Word}
    (hw : readReg s r.name i = w) : Reads s (r.offset + 4 * i) w := by
  obtain ⟨-, hend⟩ := regMap_offsets r hr
  have hoff : (BitVec.ofNat 32 (r.offset + 4 * i)).toNat = r.offset + 4 * i := by
    rw [BitVec.toNat_ofNat, Nat.mod_eq_of_lt (by omega)]
  rw [Reads, readData_reg ⟨hr, hi, hoff⟩ hb, hw]

/-- Two states that agree on DMEM, on the phase and on the register word addressed answer a read alike. -/
theorem readData_congr (hbusy : t.busy = s.busy) (hdraws : t.draws = s.draws) (hsize : t.dmemsz = s.dmemsz)
    (hdmem : t.dmem = s.dmem) (hreg : ∀ r i, RegWordAt r i off.toNat → readReg t r.name i = readReg s r.name i) :
    readData t off = readData s off := by
  have htarget : targetOf t off.toNat = targetOf s off.toNat := by
    unfold targetOf State.dmemBytes
    rw [hsize]
  by_cases h4 : off.toNat % 4 ≠ 0
  · simp only [readData, hostRead, if_pos h4, State.setReply_reply]
  · cases ht : targetOf s off.toNat with
    | dmem a =>
      simp only [readData, hostRead, if_neg h4, htarget, ht, hbusy, hdmem, drawnReply, hdraws]
      split <;> rfl
    | reg r i =>
      have hr := hreg r i (regWordAt_of_target (not_not.mp h4) ht)
      simp only [readData, hostRead, if_neg h4, htarget, ht, hbusy, hr, drawnReply, hdraws]
      split <;> rfl
    | reserved => simp only [readData, hostRead, if_neg h4, htarget, ht, State.setReply_reply]

theorem hostWrite_reg (h : RegWordAt r i off.toNat) (s : State) (v : Word) :
    hostWrite s off v 0b1111#4 = (registerWrite s r.name i v).setReply (.write .okay) := by
  simp [hostWrite, h.aligned, h.target s]

/-- CMD, STATUS and CTRL are the registers with write operations of their own. -/
theorem regMap_name_of_access : ∀ r ∈ regMap, r.access ≠ .fields → r.access ≠ .rwCmd →
    r.name ≠ .status ∧ r.name ≠ .ctrl ∧ r.name ≠ .cmd := by decide

/-- While idle, a write of a register of any other access type is the write of that register. -/
theorem hostWrite_reg_idle (h : RegWordAt r i off.toNat) (hb : s.busy = false) (hf : r.access ≠ .fields)
    (hc : r.access ≠ .rwCmd) (v : Word) :
    hostWrite s off v 0b1111#4 = (writeReg s r.name i v).setReply (.write .okay) := by
  obtain ⟨hst, hct, hcm⟩ := regMap_name_of_access r h.mem hf hc
  rw [hostWrite_reg h, registerWrite_data s i v hst hct hcm, hb, if_neg Bool.false_ne_true]

theorem writeReg_readOnly (s : State) (i : Nat) (v : Word) :
    ∀ r ∈ regMap, r.access = .ro ∨ r.access = .const → writeReg s r.name i v = s := by
  simp [regMap, writeReg]

theorem readReg_writeReg_same (s : State) (v : Word) (hr : r ∈ regMap) (hrw : r.access = .rw) (hi : i < r.words) :
    readReg (writeReg s r.name i v) r.name i = v := by
  obtain ⟨o, n, w, a⟩ := r
  cases n <;> simp_all [regMap, readReg, writeReg]

theorem readReg_writeReg_index_ne (s : State) (v : Word) {j : Nat} (hr : r ∈ regMap) (hi : i < r.words)
    (hj : j < r.words) (hij : i ≠ j) : readReg (writeReg s r.name i v) r.name j = readReg s r.name j := by
  obtain ⟨o, n, w, a⟩ := r
  cases n <;> simp_all [regMap, readReg, writeReg]

theorem readReg_writeReg_name_ne (s : State) {m n : RegName} (i j : Nat) (v : Word) (hmn : m ≠ n)
    (hctr : n = .ctr → m ≠ .status) : readReg (writeReg s n i v) m j = readReg s m j := by
  cases n <;> cases m <;> try rfl
  all_goals simp at hmn hctr

@[simp] theorem readReg_setReply (s : State) (a : Reply) (n : RegName) (i : Nat) :
    readReg (s.setReply a) n i = readReg s n i := by
  cases n <;> rfl

/-! ### STATUS, CTRL and CTR by their offsets -/

/-- A register of one word is addressed exactly by its own offset. -/
theorem RegWordAt.name_eq_iff {x : Nat} {q : RegRow} (h : RegWordAt r i x) (hq : q ∈ regMap) (hone : q.words = 1) :
    r.name = q.name ↔ x = q.offset := by
  constructor
  · intro hn
    obtain rfl := regMap_name_injective r h.mem q hq hn
    have hi := h.index
    rw [h.offset]
    omega
  · rintro rfl
    have hself : RegWordAt q 0 q.offset := ⟨hq, by omega, by omega⟩
    rw [(h.unique hself).1]

theorem RegWordAt.status_iff (h : RegWordAt r i off.toNat) : r.name = .status ↔ off = 0x004#32 := by
  rw [h.name_eq_iff (q := ⟨0x004, .status, 1, .fields⟩) (by decide) rfl, ← BitVec.toNat_inj]
  rfl

theorem RegWordAt.ctrl_iff (h : RegWordAt r i off.toNat) : r.name = .ctrl ↔ off = 0x008#32 := by
  rw [h.name_eq_iff (q := ⟨0x008, .ctrl, 1, .fields⟩) (by decide) rfl, ← BitVec.toNat_inj]
  rfl

theorem RegWordAt.ctr_iff (h : RegWordAt r i off.toNat) : r.name = .ctr ↔ off = 0x058#32 := by
  rw [h.name_eq_iff (q := ⟨0x058, .ctr, 1, .rw⟩) (by decide) rfl, ← BitVec.toNat_inj]
  rfl

/-! ### Registers as the host sees them -/

theorem rwRegistersRead (hb : s.busy = false) : RwRegistersRead s := by
  refine ⟨fun i => ?_, ?_, fun i => ⟨?_, ?_⟩, fun i => ?_, fun i => ⟨?_, ?_⟩, ?_, ?_, ?_, ?_, ?_⟩
  · exact reads_word (r := ⟨0x040, .nonce, 6, .rw⟩) (.inl hb) (by decide) i.isLt (by simp [readReg])
  · exact reads_word (r := ⟨0x058, .ctr, 1, .rw⟩) (i := 0) (.inl hb) (by decide) (by decide) rfl
  · exact reads_word (r := ⟨0x060, .subkey, 8, .rw⟩) (.inl hb) (by decide) i.isLt (by simp [readReg])
  · exact reads_word (r := ⟨0x100, .pkey, 8, .rw⟩) (.inl hb) (by decide) i.isLt (by simp [readReg])
  · exact reads_word (r := ⟨0x080, .s, 16, .rw⟩) (.inl hb) (by decide) i.isLt (by simp [readReg])
  · exact reads_word (r := ⟨0x160, .pblk, 4, .rw⟩) (.inl hb) (by decide) i.isLt (by simp [readReg])
  · exact reads_word (r := ⟨0x180, .ptag, 4, .rw⟩) (.inl hb) (by decide) i.isLt (by simp [readReg])
  · exact reads_word (r := ⟨0x190, .aadPtr, 1, .rw⟩) (i := 0) (.inl hb) (by decide) (by decide) rfl
  · exact reads_word (r := ⟨0x194, .aadLen, 1, .rw⟩) (i := 0) (.inl hb) (by decide) (by decide) rfl
  · exact reads_word (r := ⟨0x198, .srcPtr, 1, .rw⟩) (i := 0) (.inl hb) (by decide) (by decide) rfl
  · exact reads_word (r := ⟨0x19C, .srcLen, 1, .rw⟩) (i := 0) (.inl hb) (by decide) (by decide) rfl
  · exact reads_word (r := ⟨0x1A0, .dstPtr, 1, .rw⟩) (i := 0) (.inl hb) (by decide) (by decide) rfl

theorem roRegistersRead (hb : s.busy = false) : RoRegistersRead s := by
  refine ⟨?_, ?_, ?_, ?_, ?_, fun i => ?_, fun i => ⟨?_, ?_, ?_⟩, fun i => ?_, ?_⟩
  · exact reads_word (r := ⟨0x000, .cmd, 1, .rwCmd⟩) (i := 0) (.inl hb) (by decide) (by decide) rfl
  · exact reads_word (r := ⟨0x004, .status, 1, .fields⟩) (i := 0) (.inl hb) (by decide) (by decide) rfl
  · exact reads_word (r := ⟨0x008, .ctrl, 1, .fields⟩) (i := 0) (.inl hb) (by decide) (by decide) rfl
  · exact reads_word (r := ⟨0x00C, .id, 1, .const⟩) (i := 0) (.inl hb) (by decide) (by decide) rfl
  · exact reads_word (r := ⟨0x010, .dmemsz, 1, .const⟩) (i := 0) (.inl hb) (by decide) (by decide) rfl
  · exact reads_word (r := ⟨0x0C0, .ks, 16, .ro⟩) (.inl hb) (by decide) i.isLt (by simp [readReg])
  · exact reads_word (r := ⟨0x120, .pr, 4, .ro⟩) (.inl hb) (by decide) i.isLt (by simp [readReg])
  · exact reads_word (r := ⟨0x130, .ps, 4, .ro⟩) (.inl hb) (by decide) i.isLt (by simp [readReg])
  · exact reads_word (r := ⟨0x170, .tag, 4, .ro⟩) (.inl hb) (by decide) i.isLt (by simp [readReg])
  · exact reads_word (r := ⟨0x140, .ph, 5, .ro⟩) (.inl hb) (by decide) i.isLt (by simp [readReg])
  · exact reads_word (r := ⟨0x1A4, .outLen, 1, .ro⟩) (i := 0) (.inl hb) (by decide) (by decide) rfl

/-- A write of one register word leaves every other word as the host reads it; only a CTR write shows in STATUS (R29). -/
theorem readReg_writeReg_other {x y : Nat} {q : RegRow} {j : Nat} (h : RegWordAt r i x) (hq : RegWordAt q j y)
    (hxy : y ≠ x) (hctr : r.name = .ctr → q.name ≠ .status) (s : State) (v : Word) :
    readReg (writeReg s r.name i v) q.name j = readReg s q.name j := by
  by_cases hn : q.name = r.name
  · obtain rfl := regMap_name_injective q hq.mem r h.mem hn
    have hij : i ≠ j := fun hij => hxy (hq.offset_eq h rfl hij.symm)
    exact readReg_writeReg_index_ne s v h.mem h.index hq.index hij
  · exact readReg_writeReg_name_ne s i j v hn hctr

/-- Settles O54, by the word of the map that an RW offset addresses. -/
theorem rwRegistersReadBackTheWrite : Obligations.RwRegistersReadBackTheWrite := by
  intro s hb
  refine ⟨rwRegistersRead hb, fun off v h4 hoff => ?_⟩
  obtain ⟨r, hr, hrw, hlo, hhi⟩ := (rwOffset_iff _).mp hoff
  have h := regWordAt_of_row h4 hr hlo hhi
  rw [hostWrite_reg_idle h hb (by simp [hrw]) (by simp [hrw])]
  refine ⟨?_, fun other hne hstatus => ?_, fun hctr => ?_⟩
  · rw [readData_reg h (.inl (by simp [hb])), readReg_setReply, readReg_writeReg_same s v hr hrw h.index]
  · refine readData_congr (by simp) (by simp) (by simp) (by simp) fun q j hq => ?_
    rw [readReg_setReply]
    refine readReg_writeReg_other h hq (fun heq => hne (BitVec.eq_of_toNat_eq heq)) (fun hn hq4 => ?_) s v
    exact hstatus (h.ctr_iff.mp hn) (hq.status_iff.mp hq4)
  · rw [h.ctr_iff.mpr hctr]
    rfl

/-- Settles O55, by the word of the map that an RO or CONST offset addresses. -/
theorem roAndConstRegistersIgnoreWrites : Obligations.RoAndConstRegistersIgnoreWrites := by
  intro s hb
  refine ⟨roRegistersRead hb, fun off v h4 hoff => ?_⟩
  obtain ⟨r, hr, hro, hlo, hhi⟩ := (roOffset_iff _).mp hoff
  have h := regWordAt_of_row h4 hr hlo hhi
  have hacc : r.access ≠ .fields ∧ r.access ≠ .rwCmd := by
    obtain hro | hro := hro <;> simp [hro]
  rw [hostWrite_reg_idle h hb hacc.1 hacc.2, writeReg_readOnly s _ v r hr hro]
  rfl

/-! ### KEY (10_state.md R27) -/

theorem readReg_key_irrelevant (s : State) (k : Vector Word 8) (n : RegName) (i : Nat) :
    readReg { s with key := k } n i = readReg s n i := by
  cases n <;> rfl

/-- Settles O56: KEY reads as 0, and no other register shows it. -/
theorem keyIsWriteOnly : Obligations.KeyIsWriteOnly := by
  refine ⟨fun s i v hb => ?_, fun s i => ?_, fun s k off => ?_⟩
  · have hi := i.isLt
    have h : RegWordAt ⟨0x020, .key, 8, .wo⟩ i (BitVec.ofNat 32 (0x20 + 4 * i.val)).toNat :=
      ⟨by decide, hi, by rw [BitVec.toNat_ofNat, Nat.mod_eq_of_lt (by omega)]⟩
    rw [hostWrite_reg_idle h hb (by decide) (by decide)]
    have hset : s.key.setIfInBounds i v = s.key.set i v := by
      ext j hj
      simp [Vector.getElem_setIfInBounds, Vector.getElem_set]
    simp only [writeReg, hset]
    rfl
  · exact reads_word (r := ⟨0x020, .key, 8, .wo⟩) (.inr rfl) (by decide) i.isLt rfl
  · exact readData_congr rfl rfl rfl rfl fun r i _ => readReg_key_irrelevant s k r.name i

/-! ## OVR (10_state.md R23, R46, 70_reset_and_hazards.md R277) -/

theorem hostRead_ovr (s : State) (off : Word) : (hostRead s off).ovr = s.ovr := by
  obtain ⟨r, h⟩ | ⟨-, h⟩ := hostRead_cases s off <;> rw [h] <;> rfl

theorem hostWrite_raises_ovr {strb : BitVec 4} (hs : s.ovr = false) (ht : (hostWrite s off v strb).ovr = true) :
    s.busy = true ∧ off ≠ 0x004#32 ∧ off ≠ 0x008#32 ∧ (RegisterOffset off.toNat ∨ DmemOffset s off.toNat) := by
  obtain hc | hc | ⟨a, hoff, ha, -, hc⟩ | ⟨r, i, htarget, h4, -, hc⟩ := hostWrite_cases s off v strb <;> rw [hc] at ht
  · simp [hs] at ht
  · simp [hs] at ht
  · obtain ⟨hb, -⟩ | ⟨-, hc⟩ := dmemWrite_cases s a v strb
    · have hin : DmemOffset s off.toNat := by
        simp only [DmemOffset, hoff, dmemBase]
        omega
      have hne (c : Word) (hc : c.toNat < dmemBase) : off ≠ c := by
        rintro rfl
        omega
      exact ⟨hb, hne _ (by decide), hne _ (by decide), .inr hin⟩
    · simp [hc, hs] at ht
  · have h := regWordAt_of_target h4 htarget
    obtain ⟨-, hc⟩ | ⟨-, -, hc⟩ | ⟨-, -, hc⟩ | ⟨hst, hct, hb, -⟩ | ⟨-, -, hc⟩ | ⟨-, -, -, -, hc⟩ :=
      registerWrite_cases s r.name i v
    · simp [hc, statusWrite, hs] at ht
    · simp [hc] at ht
    · simp [hc, hs] at ht
    · exact ⟨hb, mt h.status_iff.mpr hst, mt h.ctrl_iff.mpr hct, .inl h.registerOffset⟩
    · simp [hc, hs] at ht
    · simp [hc, hs] at ht

theorem hostWrite_clears_ovr {strb : BitVec 4} (hs : s.ovr = true) (ht : (hostWrite s off v strb).ovr = false) :
    isReset (.write off v strb) = true ∨ (off = 0x004#32 ∧ strb = 0b1111#4 ∧ v.getLsbD 2 = true) := by
  obtain hc | hc | ⟨a, -, -, -, hc⟩ | ⟨r, i, htarget, h4, hstrb, hc⟩ := hostWrite_cases s off v strb <;> rw [hc] at ht
  · simp [hs] at ht
  · simp [hs] at ht
  · obtain ⟨-, hc⟩ | ⟨-, hc⟩ := dmemWrite_cases s a v strb <;> simp [hc, hs] at ht
  · have h := regWordAt_of_target h4 htarget
    obtain ⟨hst, hc⟩ | ⟨hct, hv, -⟩ | ⟨-, -, hc⟩ | ⟨-, -, -, hc⟩ | ⟨-, -, hc⟩ | ⟨-, -, -, -, hc⟩ :=
      registerWrite_cases s r.name i v
    · refine .inr ⟨h.status_iff.mp hst, hstrb, ?_⟩
      simpa [hc, statusWrite, hs] using ht
    · refine .inl ?_
      simp [isReset, h.ctrl_iff.mp hct, hv, hstrb]
    · simp [hc, hs] at ht
    · simp [hc] at ht
    · simp [hc, hs] at ht
    · simp [hc, hs] at ht

/-- Settles O50: the engine and reads keep OVR, and a write changes it as the two lemmas above say. -/
theorem ovrMarksADroppedWrite : Obligations.OvrMarksADroppedWrite := by
  intro s t h
  obtain (⟨-, he⟩ | ⟨es, -, he⟩) | ⟨off, es, -, he⟩ | ⟨off, v, strb, es, hsch, he⟩ | ⟨es, hsch, he⟩ := step_cases s <;>
    rw [he] at h
  · obtain ⟨-, hovr, -⟩ := engineStep_keepsHostSide h
    exact ⟨fun hs ht => by simp [hovr, hs] at ht, fun hs ht => by simp [hovr, hs] at ht⟩
  · obtain ⟨-, hovr, -⟩ := engineStep_keepsHostSide h
    exact ⟨fun hs ht => by simp [hovr, hs] at ht, fun hs ht => by simp [hovr, hs] at ht⟩
  · cases h
    exact ⟨fun hs ht => by simp [hostRead_ovr, hs] at ht, fun hs ht => by simp [hostRead_ovr, hs] at ht⟩
  · cases h
    refine ⟨fun hs ht => ?_, fun hs ht => ?_⟩
    · obtain ⟨hb, h4, h8, hoff⟩ := hostWrite_raises_ovr (s := s.setSchedule es) hs ht
      exact ⟨hb, off, v, strb, es, hsch, h4, h8, hoff⟩
    · refine ⟨_, es, hsch, ?_⟩
      obtain hr | ⟨rfl, rfl, hv⟩ := hostWrite_clears_ovr (s := s.setSchedule es) hs ht
      · exact .inl hr
      · exact .inr ⟨v, rfl, hv⟩
  · cases h
    exact ⟨fun _ ht => by simp [powerOnReset] at ht, fun _ _ => ⟨_, es, hsch, .inl rfl⟩⟩

/-! ## STATUS as a word (10_state.md R23) -/

/-! Each field is reached by dropping the fields below it; the width of the appended word is kept as the sum it is. -/

theorem statusWord_err (s : State) : (statusWord s).extractLsb' 8 4 = s.report.err := by
  simp (disch := decide) only [statusWord, BitVec.extractLsb'_append_eq_of_le, BitVec.extractLsb'_append_eq_right,
    Nat.reduceSub, -Nat.reduceAdd]

theorem statusWord_cause (s : State) : (statusWord s).extractLsb' 12 4 = s.report.cause := by
  simp (disch := decide) only [statusWord, BitVec.extractLsb'_append_eq_of_le, BitVec.extractLsb'_append_eq_right,
    Nat.reduceSub, -Nat.reduceAdd]

theorem statusWord_gap (s : State) : (statusWord s).extractLsb' 5 3 = 0 := by
  simp (disch := decide) only [statusWord, BitVec.extractLsb'_append_eq_of_le, BitVec.extractLsb'_append_eq_right,
    Nat.reduceSub, -Nat.reduceAdd]
  rfl

theorem statusWord_high (s : State) : (statusWord s).extractLsb' 16 16 = 0 := by
  simp (disch := decide) only [statusWord, BitVec.extractLsb'_append_eq_of_le, Nat.reduceSub, -Nat.reduceAdd]
  rfl

/-- The table of 60_exceptions.md R241. -/
theorem Completion.pair_mem (c : Completion) : (c.err, c.cause) ∈
    ([(0, 0), (1, 1), (1, 2), (1, 3), (2, 0), (3, 1), (3, 2), (4, 1), (4, 2)] : List (BitVec 4 × BitVec 4)) := by
  cases c <;> decide

/-- Settles O43, field by field. -/
theorem statusWordHasTheFieldsOfTheMap : Obligations.StatusWordHasTheFieldsOfTheMap := by
  intro s
  refine ⟨?busy, ?done, ?ovr, ?ctrexh, ?authok, ?gap, ?high, ?pair⟩
  case gap => exact statusWord_gap s
  case high => exact statusWord_high s
  case pair =>
    rw [statusWord_err, statusWord_cause]
    exact s.report.pair_mem
  all_goals simp only [statusWord, BitVec.getLsbD_append, BitVec.getLsbD_ofBool]; simp

end Sys2Proof.Machine
end

section
/-!
PROOFS. The host window: the events of a step, the accesses that have no effect, reads, and the DMEM window byte by byte
(20_memory.md R61 to R71).
-/

namespace Sys2Proof.Machine

open Sys2Proof.Claims

variable {s : State} {off v : Word} {strb : BitVec 4}

/-! ## The events of a step (20_memory.md R67, R71) -/

theorem engineStep_idle (hb : s.busy = false) : engineStep s = .next s := by
  simp only [engineStep, State.inFlight, hb, Bool.false_eq_true, if_false]

/-- Settles O7, by the form of the schedule. -/
theorem stepPerformsTheNextEvent : Obligations.StepPerformsTheNextEvent := by
  intro s es
  refine ⟨fun off h => ?read, fun off v strb h => ?write, fun h => ?powerOn, fun h => ?engine, fun h => ?empty,
    engineStep_idle⟩
  all_goals simp only [step, h, State.setSchedule]

/-! ## The decode of an offset (20_memory.md R61) -/

theorem targetOf_dmem {a : Nat} (ha : a < s.dmemBytes) : targetOf s (0x10000 + a) = .dmem a := by
  rw [targetOf, dmemBase, if_pos (by omega), Nat.add_sub_cancel_left]

theorem targetOf_ne_dmem {x : Nat} (hd : ¬DmemOffset s x) (a : Nat) : targetOf s x ≠ .dmem a := by
  obtain ⟨hlo, hhi, -⟩ | ⟨-, r, -, -, -, ht⟩ | ⟨-, -, ht⟩ := targetOf_cases s x
  · exact absurd ⟨hlo, hhi⟩ hd
  · simp [ht]
  · simp [ht]

theorem targetOf_reserved {x : Nat} (hd : ¬DmemOffset s x) (hr : ¬RegisterOffset x) : targetOf s x = .reserved := by
  obtain ⟨hlo, hhi, -⟩ | ⟨-, r, hmem, hlo, hhi, -⟩ | ⟨-, -, ht⟩ := targetOf_cases s x
  · exact absurd ⟨hlo, hhi⟩ hd
  · exact absurd ((registerOffset_iff x).mpr ⟨r, hmem, hlo, hhi⟩) hr
  · exact ht

/-! ## Accesses without effect (20_memory.md R62, 10_state.md R47) -/

theorem hostRead_misaligned (h4 : off.toNat % 4 ≠ 0) : hostRead s off = s.setReply (.read .slverr 0) := by
  rw [hostRead, if_pos h4]

theorem hostWrite_misaligned (h4 : off.toNat % 4 ≠ 0) : hostWrite s off v strb = s.setReply (.write .slverr) := by
  rw [hostWrite, if_pos h4]

theorem hostWrite_partial (hd : ¬DmemOffset s off.toNat) (hs : strb ≠ 0b1111#4) :
    hostWrite s off v strb = s.setReply (.write .slverr) := by
  by_cases h4 : off.toNat % 4 ≠ 0
  · exact hostWrite_misaligned h4
  · cases ht : targetOf s off.toNat with
    | dmem a => exact absurd ht (targetOf_ne_dmem hd a)
    | reg r i => simp only [hostWrite, if_neg h4, ht, if_neg hs]
    | reserved => simp only [hostWrite, if_neg h4, ht, if_neg hs]

theorem hostRead_reserved (h4 : off.toNat % 4 = 0) (ht : targetOf s off.toNat = .reserved) :
    hostRead s off = s.setReply (.read .okay 0) := by
  simp only [hostRead, if_neg (not_not.mpr h4), ht]

theorem hostWrite_reserved (h4 : off.toNat % 4 = 0) (ht : targetOf s off.toNat = .reserved) :
    hostWrite s off v 0b1111#4 = s.setReply (.write .okay) := by
  simp only [hostWrite, if_neg (not_not.mpr h4), ht, if_true]

/-- Settles O46, by the kind of access. -/
theorem badAndReservedAccessesHaveNoEffect : Obligations.BadAndReservedAccessesHaveNoEffect := by
  intro s off v strb
  refine ⟨fun h4 => ⟨hostRead_misaligned h4, hostWrite_misaligned h4⟩, fun _ hd hs => hostWrite_partial hd hs,
    fun h4 hd hr => ?_⟩
  have ht := targetOf_reserved hd hr
  exact ⟨hostRead_reserved h4 ht, hostWrite_reserved h4 ht⟩

/-! ## Reads (20_memory.md R66) -/

/-- Settles O53: a read answers with a value, or while BUSY with a draw. -/
theorem readsHaveNoSideEffect : Obligations.ReadsHaveNoSideEffect := by
  intro s off
  obtain ⟨r, h⟩ | ⟨hb, h⟩ := hostRead_cases s off
  · exact ⟨r, s.draws, h, fun _ => rfl⟩
  · exact ⟨_, s.draws + 1, h, fun hidle => by simp [hb] at hidle⟩

/-! ## Words as bytes (00_scope.md R10) -/

/-- `le32(le_bytes(w, 4)) = w` (00_scope.md R10). -/
theorem le32_leBytes (w : Word) : le32 (leBytes w.toNat 4) = w := by
  rw [le32, leInt_leBytes]
  exact BitVec.eq_of_toNat_eq (by simp [w.isLt])

/-- Byte i of `le_bytes(v, n)` is v / 2^(8*i) mod 256 (00_scope.md R10). -/
theorem leBytes_eq_map (v n : Nat) : leBytes v n = (List.range n).map (fun i => BitVec.ofNat 8 (v / 2 ^ (8 * i))) := by
  induction n generalizing v with
  | zero => rfl
  | succ n ih =>
    have hdiv (i : Nat) : v / 256 / 2 ^ (8 * i) = v / 2 ^ (8 * (i + 1)) := by
      rw [Nat.div_div_eq_div_mul, Nat.mul_add, Nat.pow_add, Nat.mul_comm]
    rw [leBytes, ih, List.range_succ_eq_map, List.map_cons, List.map_map]
    simp [Function.comp_def, hdiv]

/-! ## The DMEM window (20_memory.md R62, R63) -/

/-- One lane of `writeLanes`: byte lane `k` of a word written where the strobe enables it. -/
def writeLane (a : Nat) (v : Word) (strb : BitVec 4) (m : Memory) (k : Nat) : Memory :=
  if strb.getLsbD k then m.write (a + k) (BitVec.ofNat 8 (v.toNat / 2 ^ (8 * k))) else m

theorem writeLanes_eq_foldl (m : Memory) (a : Nat) (v : Word) (strb : BitVec 4) :
    writeLanes m a v strb = (List.range 4).foldl (writeLane a v strb) m := rfl

theorem writeLane_wf {m : Memory} (hm : m.wf) (a : Nat) (v : Word) (strb : BitVec 4) (k : Nat) :
    (writeLane a v strb m k).wf := by
  unfold writeLane
  split
  · exact m.write_wf hm _ _
  · exact hm

theorem foldl_writeLane_wf {m : Memory} (hm : m.wf) (a : Nat) (v : Word) (strb : BitVec 4) (ks : List Nat) :
    (ks.foldl (writeLane a v strb) m).wf := by
  induction ks generalizing m with
  | nil => exact hm
  | cons k ks ih => exact ih (writeLane_wf hm a v strb k)

/-- Byte k of a word, as the lane writes and as `le_bytes` spell it. -/
theorem ofNat_div_eq_extractLsb' (v : Word) (k : Nat) :
    BitVec.ofNat 8 (v.toNat / 2 ^ (8 * k)) = v.extractLsb' (8 * k) 8 := by
  rw [BitVec.extractLsb', Nat.shiftRight_eq_div_pow]

theorem read_writeLane {m : Memory} (hm : m.wf) (a : Nat) (v : Word) (strb : BitVec 4) (k x : Nat) :
    (writeLane a v strb m k).read x =
      if x = a + k ∧ strb.getLsbD k = true then v.extractLsb' (8 * k) 8 else m.read x := by
  unfold writeLane
  by_cases hs : strb.getLsbD k = true
  · simp only [hs, if_true, and_true, m.read_write hm, ofNat_div_eq_extractLsb', eq_comm]
  · simp only [hs, and_false, Bool.false_eq_true, if_false]

/-- After the first `n` lanes, a byte under an enabled one of them is that byte of the word, and every other is old. -/
theorem read_foldl_writeLane {m : Memory} (hm : m.wf) (a : Nat) (v : Word) (strb : BitVec 4) (n x : Nat) :
    ((List.range n).foldl (writeLane a v strb) m).read x =
      if (a ≤ x ∧ x < a + n) ∧ strb.getLsbD (x - a) = true then v.extractLsb' (8 * (x - a)) 8 else m.read x := by
  induction n with
  | zero => rw [if_neg (by omega)]; rfl
  | succ n ih =>
    rw [List.range_succ, List.foldl_append, List.foldl_cons, List.foldl_nil,
      read_writeLane (foldl_writeLane_wf hm a v strb _), ih]
    by_cases hx : x = a + n
    · subst hx
      simp
    · have hrange : (a ≤ x ∧ x < a + (n + 1)) ↔ (a ≤ x ∧ x < a + n) := by omega
      simp only [hx, false_and, if_false, hrange]

theorem read_writeLanes {m : Memory} (hm : m.wf) (a : Nat) (v : Word) (strb : BitVec 4) (x : Nat) :
    (writeLanes m a v strb).read x =
      if (a ≤ x ∧ x < a + 4) ∧ strb.getLsbD (x - a) = true then v.extractLsb' (8 * (x - a)) 8 else m.read x := by
  rw [writeLanes_eq_foldl, read_foldl_writeLane hm]

theorem read_writeLanes_lane {m : Memory} (hm : m.wf) (a : Nat) (v : Word) (strb : BitVec 4) {k : Nat} (hk : k < 4) :
    (writeLanes m a v strb).read (a + k) =
      if strb.getLsbD k = true then v.extractLsb' (8 * k) 8 else m.read (a + k) := by
  have hrange : a ≤ a + k ∧ a + k < a + 4 := by omega
  simp only [read_writeLanes hm, hrange, Nat.add_sub_cancel_left, true_and, and_self]

theorem read_writeLanes_outside {m : Memory} (hm : m.wf) (a : Nat) (v : Word) (strb : BitVec 4) {x : Nat}
    (hx : x < a ∨ a + 4 ≤ x) : (writeLanes m a v strb).read x = m.read x := by
  rw [read_writeLanes hm, if_neg (by omega)]

theorem readBytes_four (m : Memory) (a : Nat) :
    m.readBytes a 4 = [m.read a, m.read (a + 1), m.read (a + 2), m.read (a + 3)] := rfl

theorem readBytes_writeLanes {m : Memory} (hm : m.wf) (a : Nat) (v : Word) :
    (writeLanes m a v 0b1111#4).readBytes a 4 = leBytes v.toNat 4 := by
  rw [Memory.readBytes, leBytes_eq_map]
  refine List.map_congr_left fun k hk => ?_
  have hk4 : k < 4 := List.mem_range.mp hk
  have hon : (0b1111#4).getLsbD k = true := BitVec.getLsbD_allOnes.trans (decide_eq_true hk4)
  rw [read_writeLanes_lane hm a v _ hk4, if_pos hon, ofNat_div_eq_extractLsb']

theorem hostWrite_dmem_idle {a : Nat} (hb : s.busy = false) (hoff : off.toNat = 0x10000 + a) (ha4 : a % 4 = 0)
    (ha : a < s.dmemBytes) :
    hostWrite s off v strb = (s.setDmem (writeLanes s.dmem a v strb)).setReply (.write .okay) := by
  have h4 : ¬(0x10000 + a) % 4 ≠ 0 := by omega
  simp only [hostWrite, hoff, if_neg h4, targetOf_dmem ha, dmemWrite, hb, Bool.false_eq_true, if_false]

theorem readData_dmem_idle {a : Nat} (hb : s.busy = false) (hoff : off.toNat = 0x10000 + a) (ha4 : a % 4 = 0)
    (ha : a < s.dmemBytes) : readData s off = some (.read .okay (le32 (s.dmem.readBytes a 4))) := by
  have h4 : ¬(0x10000 + a) % 4 ≠ 0 := by omega
  simp only [readData, hostRead, hoff, if_neg h4, targetOf_dmem ha, hb, Bool.false_eq_true, if_false,
    State.setReply_reply]

/-- Settles O57, by the memory that the lane writes leave. -/
theorem dmemWindowIsLittleEndianBytes : Obligations.DmemWindowIsLittleEndianBytes := by
  intro s a off v strb hb hwf hoff ha4 ha
  have hw := hostWrite_dmem_idle (v := v) (strb := strb) hb hoff ha4 ha
  refine ⟨writeLanes s.dmem a v strb, hw, fun k hk => read_writeLanes_lane hwf a v strb hk,
    fun x hx => read_writeLanes_outside hwf a v strb hx, ?_, ?_⟩
  · rw [readData_dmem_idle hb hoff ha4 ha, readBytes_four]
  · rintro rfl
    rw [hw, readData_dmem_idle (by exact hb) hoff ha4 (by exact ha)]
    simp only [State.setReply_dmem, State.setDmem_dmem, readBytes_writeLanes hwf, le32_leBytes]

end Sys2Proof.Machine
end

section
/-!
PROOFS. The decoder and the encoder of command words: the opcode map by word and mask, the words decode accepts and those it
rejects, and the two round trips (30_encoding.md R90 to R102).
-/

namespace Sys2Proof

open Sys2Proof.Claims

/-! ## The rows of the opcode map (30_encoding.md R98) -/

/-- `match` of a row (30_encoding.md R98). -/
def OpcodeRow.word (r : OpcodeRow) : Word := BitVec.ofNat 32 r.opc

/-- The mnemonic of a row, that of every command it reads. -/
def OpcodeRow.name (r : OpcodeRow) : String := mnemonic (r.read 0)

theorem opcodeRows_eq_map : opcodeRows = opcodeMap.map (fun r => (r.word, r.mask, r.name)) := rfl

theorem opcodeMap_opc_inj : ∀ r ∈ opcodeMap, ∀ r' ∈ opcodeMap, r.opc = r'.opc → r = r' :=
  fun _ h _ h' => List.inj_on_of_nodup_map (by decide) h h'

theorem opcodeMap_name_inj : ∀ r ∈ opcodeMap, ∀ r' ∈ opcodeMap, r.name = r'.name → r = r' :=
  fun _ h _ h' => List.inj_on_of_nodup_map (by decide) h h'

theorem opcodeMap_opc_lt : ∀ r ∈ opcodeMap, r.opc < 256 := by decide

/-- The mask of a row fixes all of OPC, and its `match` has no bit above OPC. -/
theorem opcodeMap_mask : ∀ r ∈ opcodeMap, r.mask &&& 0xFF#32 = 0xFF#32 ∧ r.word &&& 0xFF#32 = r.word := by decide

theorem mnemonic_read (w : Word) : ∀ r ∈ opcodeMap, mnemonic (r.read w) = r.name := by
  simp [opcodeMap, OpcodeRow.name, mnemonic]

theorem wellFormed_read (w : Word) : ∀ r ∈ opcodeMap, (r.read w).wellFormed = true := by
  have hlen : (nibbleOf w 8).val + 1 ≤ 16 := (nibbleOf w 8).isLt
  simp [opcodeMap, Instr.wellFormed, hlen]

/-! ## OPC and the mask of a row (30_encoding.md R91, R98) -/

theorem toNat_and_opc (w : Word) : (w &&& 0xFF#32).toNat = opcOf w :=
  (BitVec.toNat_and ..).trans (Nat.and_two_pow_sub_one_eq_mod w.toNat 8)

/-- A word has the opcode of a row when its low byte is the row's `match`. -/
theorem opc_eq_opcOf_iff {r : OpcodeRow} (hr : r ∈ opcodeMap) (w : Word) :
    r.opc = opcOf w ↔ w &&& 0xFF#32 = r.word := by
  have hword : r.word.toNat = r.opc := Nat.mod_eq_of_lt (Nat.lt_trans (opcodeMap_opc_lt r hr) (by decide))
  rw [← BitVec.toNat_inj, toNat_and_opc, hword, eq_comm]

/-- "`w & mask == match`" (30_encoding.md R98) as the decoder asks it: the opcode, then the bits above it. -/
theorem masked_eq_word_iff {r : OpcodeRow} (hr : r ∈ opcodeMap) (w : Word) :
    w &&& r.mask = r.word ↔ r.opc = opcOf w ∧ w &&& r.mask &&& 0xFFFFFF00#32 = 0 := by
  obtain ⟨hmask, hword⟩ := opcodeMap_mask r hr
  have hlow : w &&& r.mask &&& 0xFF#32 = w &&& 0xFF#32 := by rw [BitVec.and_assoc, hmask]
  rw [opc_eq_opcOf_iff hr]
  constructor
  · intro h
    refine ⟨by rw [← hlow, h, hword], ?_⟩
    have hdisj : 0xFF#32 &&& 0xFFFFFF00#32 = 0#32 := by decide
    rw [h, ← hword, BitVec.and_assoc, hdisj, BitVec.and_zero]
    rfl
  · rintro ⟨hopc, hrest⟩
    have hall : BitVec.allOnes 32 = 0xFF#32 ||| 0xFFFFFF00#32 := by decide
    calc w &&& r.mask
      _ = (w &&& r.mask) &&& (0xFF#32 ||| 0xFFFFFF00#32) := by rw [← hall, BitVec.and_allOnes]
      _ = r.word ||| 0#32 := by rw [BitVec.and_or_distrib_left, hlow, hopc, hrest]; rfl
      _ = r.word := BitVec.or_zero

/-! ## What decode answers (30_encoding.md R99) -/

theorem find?_opcodeMap_of_mem {w : Word} {r : OpcodeRow} (hr : r ∈ opcodeMap) (hopc : r.opc = opcOf w) :
    opcodeMap.find? (fun r => r.opc == opcOf w) = some r := by
  cases hf : opcodeMap.find? (fun r => r.opc == opcOf w) with
  | none => exact absurd (beq_iff_eq.mpr hopc) (List.find?_eq_none.mp hf r hr)
  | some r' =>
    have hopc' : r'.opc = opcOf w := by simpa using List.find?_some hf
    rw [opcodeMap_opc_inj r' (List.mem_of_find?_eq_some hf) r hr (hopc'.trans hopc.symm)]

/-- Once its row is known, a word is decoded by the bits its mask fixes above OPC. -/
theorem decode_of_mem {w : Word} {r : OpcodeRow} (hr : r ∈ opcodeMap) (hopc : r.opc = opcOf w) :
    decode w = if w &&& r.mask &&& 0xFFFFFF00#32 ≠ 0 then .reservedBit else .command (r.read w) := by
  simp only [decode, find?_opcodeMap_of_mem hr hopc]

theorem decode_of_not_mem {w : Word} (h : ∀ r ∈ opcodeMap, r.opc ≠ opcOf w) : decode w = .unassigned := by
  have hf : opcodeMap.find? (fun r => r.opc == opcOf w) = none := List.find?_eq_none.mpr (by simpa using h)
  simp only [decode, hf]

/-- The opcode of a word has no row, or one. -/
theorem opcOf_cases (w : Word) : (∀ r ∈ opcodeMap, r.opc ≠ opcOf w) ∨ ∃ r ∈ opcodeMap, r.opc = opcOf w := by
  by_cases h : ∃ r ∈ opcodeMap, r.opc = opcOf w
  · exact .inr h
  · exact .inl fun r hr hopc => h ⟨r, hr, hopc⟩

theorem decode_eq_command_iff {w : Word} {i : Instr} :
    decode w = .command i ↔ ∃ r ∈ opcodeMap, w &&& r.mask = r.word ∧ r.read w = i := by
  constructor
  · intro h
    obtain hno | ⟨r, hr, hopc⟩ := opcOf_cases w
    · simp [decode_of_not_mem hno] at h
    · rw [decode_of_mem hr hopc] at h
      split at h
      · cases h
      · next hbits =>
        cases h
        exact ⟨r, hr, (masked_eq_word_iff hr w).mpr ⟨hopc, not_not.mp hbits⟩, rfl⟩
  · rintro ⟨r, hr, hw, rfl⟩
    obtain ⟨hopc, hbits⟩ := (masked_eq_word_iff hr w).mp hw
    rw [decode_of_mem hr hopc, if_neg (not_not.mpr hbits)]

theorem decode_eq_unassigned_iff {w : Word} : decode w = .unassigned ↔ ∀ r ∈ opcodeMap, r.opc ≠ opcOf w := by
  refine ⟨fun h r hr hopc => ?_, decode_of_not_mem⟩
  rw [decode_of_mem hr hopc] at h
  split at h <;> cases h

theorem decode_eq_reservedBit_iff {w : Word} :
    decode w = .reservedBit ↔ ∃ r ∈ opcodeMap, r.opc = opcOf w ∧ w &&& r.mask &&& 0xFFFFFF00#32 ≠ 0 := by
  constructor
  · intro h
    obtain hno | ⟨r, hr, hopc⟩ := opcOf_cases w
    · simp [decode_of_not_mem hno] at h
    · rw [decode_of_mem hr hopc] at h
      split at h
      · next hbits => exact ⟨r, hr, hopc, hbits⟩
      · cases h
  · rintro ⟨r, hr, hopc, hbits⟩
    rw [decode_of_mem hr hopc, if_pos hbits]

/-! ## A field read back from its place (30_encoding.md R92 to R97, R102) -/

theorem val_nibbleOf (w : Word) (lo : Nat) : (nibbleOf w lo).val = (w.extractLsb' lo 4).toNat := by
  rw [BitVec.extractLsb'_toNat, Nat.shiftRight_eq_div_pow]
  rfl

theorem nibbleOf_eq_iff {w : Word} {lo : Nat} {a : Fin 16} :
    nibbleOf w lo = a ↔ w.extractLsb' lo 4 = BitVec.ofFin a := by
  rw [← BitVec.toNat_inj, ← val_nibbleOf, Fin.ext_iff]
  rfl

theorem testBit_nibbleOf (w : Word) (lo j : Nat) :
    (nibbleOf w lo).val.testBit j = (decide (j < 4) && w.getLsbD (lo + j)) := by
  rw [val_nibbleOf, BitVec.testBit_toNat, BitVec.getLsbD_extractLsb']

theorem getLsbD_nibbleAt (n lo j : Nat) :
    (nibbleAt n lo).getLsbD j = (decide (j < 32 ∧ lo ≤ j ∧ j < lo + 4) && n.testBit (j - lo)) := by
  have h : n % 16 = n % 2 ^ 4 := rfl
  rw [nibbleAt, h, BitVec.getLsbD_shiftLeft, BitVec.getLsbD_ofNat, Nat.testBit_mod_two_pow]
  grind

theorem getLsbD_flagAt (b : Bool) (i j : Nat) : (flagAt b i).getLsbD j = (decide (j < 32 ∧ i = j) && b) := by
  cases b
  · simp [flagAt]
  · rw [flagAt, BitVec.getLsbD_shiftLeft]
    grind

theorem extractLsb'_nibbleAt (a : Fin 16) {lo : Nat} (h : lo ≤ 28) :
    (nibbleAt a.val lo).extractLsb' lo 4 = BitVec.ofFin a := by
  refine BitVec.eq_of_getLsbD_eq fun j hj => ?_
  have hin : lo + j < 32 ∧ lo ≤ lo + j ∧ lo + j < lo + 4 := by omega
  rw [BitVec.getLsbD_extractLsb', getLsbD_nibbleAt, decide_eq_true hj, decide_eq_true hin, Nat.add_sub_cancel_left]
  rfl

theorem extractLsb'_nibbleAt_disjoint (n : Nat) {lo lo' : Nat} (h : lo + 4 ≤ lo' ∨ lo' + 4 ≤ lo) :
    (nibbleAt n lo).extractLsb' lo' 4 = 0 := by
  refine BitVec.eq_of_getLsbD_eq fun j hj => ?_
  have hout : ¬(lo' + j < 32 ∧ lo ≤ lo' + j ∧ lo' + j < lo + 4) := by omega
  simp only [BitVec.getLsbD_extractLsb', getLsbD_nibbleAt, hout, decide_false, Bool.false_and, Bool.and_false]
  exact BitVec.getLsbD_zero.symm

theorem nibbleAt_nibbleOf (w : Word) (lo : Nat) : nibbleAt (nibbleOf w lo).val lo = w &&& (0xF#32 <<< lo) := by
  have hones : 0xF#32 <<< lo = nibbleAt (2 ^ 4 - 1) lo := rfl
  refine BitVec.eq_of_getLsbD_eq fun j hj => ?_
  rw [hones, BitVec.getLsbD_and, getLsbD_nibbleAt, getLsbD_nibbleAt, testBit_nibbleOf, Nat.testBit_two_pow_sub_one]
  by_cases hin : j < 32 ∧ lo ≤ j ∧ j < lo + 4
  · have hj : lo + (j - lo) = j := by omega
    rw [hj, Bool.and_comm (w.getLsbD j), Bool.and_assoc]
  · simp only [hin, decide_false, Bool.false_and, Bool.and_false]

theorem flagAt_flagOf (w : Word) (i : Nat) : flagAt (flagOf w i) i = w &&& (1#32 <<< i) := by
  have hone : 1#32 <<< i = flagAt true i := rfl
  refine BitVec.eq_of_getLsbD_eq fun j hj => ?_
  rw [hone, BitVec.getLsbD_and, getLsbD_flagAt, getLsbD_flagAt, flagOf]
  by_cases hi : i = j
  · simp [hi, hj]
  · simp [hi]

theorem read_qr_encode (a b c d : Fin 16) : opcodeMap[1].read (encode (.qr a b c d)) = .qr a b c d := by
  simp [opcodeMap, encode, nibbleOf_eq_iff, BitVec.extractLsb'_or, extractLsb'_nibbleAt, extractLsb'_nibbleAt_disjoint]

theorem read_pblk_encode {n : Nat} (hn : (Instr.pblk n).wellFormed = true) :
    opcodeMap[9].read (encode (.pblk n)) = .pblk n := by
  obtain ⟨h1, h16⟩ : 1 ≤ n ∧ n ≤ 16 := by simpa [Instr.wellFormed] using hn
  have hfield := extractLsb'_nibbleAt ⟨n - 1, by omega⟩ (show 8 ≤ 28 by decide)
  have hlen : nibbleOf (encode (.pblk n)) 8 = ⟨n - 1, by omega⟩ := by
    rw [nibbleOf_eq_iff, encode, BitVec.extractLsb'_or, hfield]
    exact BitVec.zero_or
  simp [opcodeMap, hlen, h1]

theorem read_ksblk_encode (ksel nsel inc : Bool) :
    opcodeMap[7].read (encode (.ksblk ksel nsel inc)) = .ksblk ksel nsel inc := by
  simp [opcodeMap, encode, flagOf, getLsbD_flagAt, -BitVec.getLsbD_eq_getElem]

theorem read_pinit_encode (pksrc : Bool) : opcodeMap[8].read (encode (.pinit pksrc)) = .pinit pksrc := by
  simp [opcodeMap, encode, flagOf, getLsbD_flagAt, -BitVec.getLsbD_eq_getElem]

theorem read_zeroize_encode (dm : Bool) : opcodeMap[14].read (encode (.zeroize dm)) = .zeroize dm := by
  simp [opcodeMap, encode, flagOf, getLsbD_flagAt, -BitVec.getLsbD_eq_getElem]

/-- The encoded word of a command matches the command's row, and the row reads the command back from it. -/
theorem exists_row_of_encode (i : Instr) (hi : i.wellFormed = true) :
    ∃ r ∈ opcodeMap, encode i &&& r.mask = r.word ∧ r.read (encode i) = i := by
  cases i with
  | nop => exact ⟨opcodeMap[0], List.getElem_mem _, Laws.MatchesOpcodeMap.nop, rfl⟩
  | qr a b c d => exact ⟨opcodeMap[1], List.getElem_mem _, Laws.MatchesOpcodeMap.qr a b c d, read_qr_encode a b c d⟩
  | colrnd => exact ⟨opcodeMap[2], List.getElem_mem _, Laws.MatchesOpcodeMap.colrnd, rfl⟩
  | diagrnd => exact ⟨opcodeMap[3], List.getElem_mem _, Laws.MatchesOpcodeMap.diagrnd, rfl⟩
  | dblrnd => exact ⟨opcodeMap[4], List.getElem_mem _, Laws.MatchesOpcodeMap.dblrnd, rfl⟩
  | perm => exact ⟨opcodeMap[5], List.getElem_mem _, Laws.MatchesOpcodeMap.perm, rfl⟩
  | hchacha => exact ⟨opcodeMap[6], List.getElem_mem _, Laws.MatchesOpcodeMap.hchacha, rfl⟩
  | ksblk k n c => exact ⟨opcodeMap[7], List.getElem_mem _, Laws.MatchesOpcodeMap.ksblk k n c, read_ksblk_encode k n c⟩
  | pinit p => exact ⟨opcodeMap[8], List.getElem_mem _, Laws.MatchesOpcodeMap.pinit p, read_pinit_encode p⟩
  | pblk n => exact ⟨opcodeMap[9], List.getElem_mem _, Laws.MatchesOpcodeMap.pblk n, read_pblk_encode hi⟩
  | pfin => exact ⟨opcodeMap[10], List.getElem_mem _, Laws.MatchesOpcodeMap.pfin, rfl⟩
  | pver => exact ⟨opcodeMap[11], List.getElem_mem _, Laws.MatchesOpcodeMap.pver, rfl⟩
  | aeadEnc => exact ⟨opcodeMap[12], List.getElem_mem _, Laws.MatchesOpcodeMap.aeadEnc, rfl⟩
  | aeadDec => exact ⟨opcodeMap[13], List.getElem_mem _, Laws.MatchesOpcodeMap.aeadDec, rfl⟩
  | zeroize dm => exact ⟨opcodeMap[14], List.getElem_mem _, Laws.MatchesOpcodeMap.zeroize dm, read_zeroize_encode dm⟩

/-- A row's command encodes to the row's `match` with the word's own bits in the fields. -/
theorem encode_read (w : Word) : ∀ r ∈ opcodeMap, encode (r.read w) = r.word ||| (w &&& ~~~r.mask) := by
  simp [opcodeMap, encode, OpcodeRow.word, nibbleAt_nibbleOf, flagAt_flagOf, BitVec.or_assoc,
    ← BitVec.and_or_distrib_left]

/-- The mask and its complement split a word into its row's `match` and its fields. -/
theorem encode_read_of_masked_eq {w : Word} {r : OpcodeRow} (hr : r ∈ opcodeMap) (hw : w &&& r.mask = r.word) :
    encode (r.read w) = w := by
  rw [encode_read w r hr, ← hw, ← BitVec.and_or_distrib_left, BitVec.or_not_self]
  exact BitVec.and_allOnes

/-! ## The obligations (30_encoding.md) -/

/-- Settles O1: the row of the command reads it back from its word. -/
theorem decodeOfEncodeIsTheCommand : Obligations.DecodeOfEncodeIsTheCommand := by
  intro i hi
  exact decode_eq_command_iff.mpr (exists_row_of_encode i hi)

/-- Settles O2: the row that reads the command fixes every bit of the word outside its fields. -/
theorem encodeOfDecodeIsTheWord : Obligations.EncodeOfDecodeIsTheWord := by
  intro w i h
  obtain ⟨r, hr, hw, rfl⟩ := decode_eq_command_iff.mp h
  exact ⟨wellFormed_read w r hr, encode_read_of_masked_eq hr hw⟩

/-- Settles O3: a mnemonic names one row of the map. -/
theorem wordIsTheCommandOfItsRow : Obligations.WordIsTheCommandOfItsRow := by
  unfold Obligations.WordIsTheCommandOfItsRow
  rw [opcodeRows_eq_map, List.forall_mem_map]
  intro r hr w
  constructor
  · intro hw
    exact ⟨r.read w, decode_eq_command_iff.mpr ⟨r, hr, hw, rfl⟩, mnemonic_read w r hr⟩
  · rintro ⟨i, hi, hname⟩
    obtain ⟨r', hr', hw, rfl⟩ := decode_eq_command_iff.mp hi
    have hrow : r' = r := opcodeMap_name_inj r' hr' r hr ((mnemonic_read w r' hr').symm.trans hname)
    exact hrow ▸ hw

/-- Settles O4: the opcode of a word is looked up first, then the bits its row's mask fixes. -/
theorem rejectedWordsAreThoseOfTheMap : Obligations.RejectedWordsAreThoseOfTheMap := by
  intro w
  rw [decode_eq_unassigned_iff, decode_eq_reservedBit_iff, opcodeRows_eq_map, List.forall_mem_map]
  refine ⟨forall₂_congr fun r hr => not_congr (opc_eq_opcOf_iff hr w), ?_⟩
  simp only [List.mem_map, exists_exists_and_eq_and]
  exact exists_congr fun r => and_congr_right fun hr => and_congr_left' (opc_eq_opcOf_iff hr w)

/-- Settles O5, by running the decoder on each word. -/
theorem sampleWordsDecode : Obligations.SampleWordsDecode := by
  unfold Obligations.SampleWordsDecode
  decide

end Sys2Proof
end

section
/-!
PROOFS. The permutation commands: a quarter-round as the eight steps on an array given by its words, a round as four lanes that
share no word, and the commands as functions of S alone (40_permutation.md).
-/

namespace Sys2Proof.Machine

open Sys2Proof.Claims

/-! ## The eight steps on an array given by its words (40_permutation.md R120) -/

/-- The words of an array of the model, as the functions of an index that the steps of the rule are written for. -/
def wordsOf (v : Vector Word 16) : Fin 16 → Word := fun k => v[k]

theorem wordsOf_inj {v w : Vector Word 16} (h : wordsOf v = wordsOf w) : v = w :=
  Vector.ext fun i hi => congrFun h ⟨i, hi⟩

theorem wordsOf_addInto (v : Vector Word 16) (x y : Fin 16) : wordsOf (addInto v x y) = addStep (wordsOf v) x y :=
  funext fun k => getElem_addInto v x y k

theorem wordsOf_xorRotInto (v : Vector Word 16) (x y : Fin 16) {n : Nat} (hn : n < 32) :
    wordsOf (xorRotInto v x y n) = rotStep (wordsOf v) x y n :=
  funext fun k => getElem_xorRotInto v x y k n hn

theorem wordsOf_qrf (v : Vector Word 16) (a b c d : Fin 16) :
    wordsOf (qrf v a b c d) = eightSteps (wordsOf v) a b c d := by
  simp (disch := decide) only [qrf, eightSteps, wordsOf_addInto, wordsOf_xorRotInto]

theorem addStep_of_ne (f : Fin 16 → Word) {x k : Fin 16} (h : k ≠ x) (y : Fin 16) : addStep f x y k = f k := if_neg h

theorem rotStep_of_ne (f : Fin 16 → Word) {x k : Fin 16} (h : k ≠ x) (y : Fin 16) (n : Nat) :
    rotStep f x y n k = f k := if_neg h

theorem addStep_same (f : Fin 16 → Word) (x y : Fin 16) : addStep f x y x = f x + f y := if_pos rfl

theorem rotStep_same (f : Fin 16 → Word) (x y : Fin 16) (n : Nat) : rotStep f x y n x = (f x ^^^ f y).rotateLeft n :=
  if_pos rfl

theorem eightSteps_of_notMem (f : Fin 16 → Word) {a b c d k : Fin 16} (h : k ∉ [a, b, c, d]) :
    eightSteps f a b c d k = f k := by
  obtain ⟨ha, hb, hc, hd⟩ : k ≠ a ∧ k ≠ b ∧ k ≠ c ∧ k ≠ d := by simpa using h
  simp only [eightSteps, addStep_of_ne _ ha, addStep_of_ne _ hc, rotStep_of_ne _ hb, rotStep_of_ne _ hd]

/-- On four different words the eight steps are the quarter-round of their values. -/
theorem eightSteps_of_nodup (f : Fin 16 → Word) {a b c d : Fin 16} (h : [a, b, c, d].Nodup) :
    (eightSteps f a b c d a, eightSteps f a b c d b, eightSteps f a b c d c, eightSteps f a b c d d) =
      quarter (f a) (f b) (f c) (f d) := by
  obtain ⟨⟨hab, hac, had⟩, ⟨hbc, hbd⟩, hcd⟩ :
      (a ≠ b ∧ a ≠ c ∧ a ≠ d) ∧ (b ≠ c ∧ b ≠ d) ∧ c ≠ d := by simpa using h
  simp only [eightSteps, quarter, addStep_same, rotStep_same, addStep_of_ne _ hac,
    addStep_of_ne _ hab.symm, addStep_of_ne _ had.symm, addStep_of_ne _ hbc, addStep_of_ne _ hac.symm,
    addStep_of_ne _ hcd.symm, rotStep_of_ne _ hab, rotStep_of_ne _ had, rotStep_of_ne _ hbd, rotStep_of_ne _ hbc.symm,
    rotStep_of_ne _ hbd.symm, rotStep_of_ne _ hcd]

/-- Four times the same index: the first rotation is of a word with itself, and what it leaves is 0 for good. -/
theorem eightSteps_same (f : Fin 16 → Word) (i : Fin 16) : eightSteps f i i i i i = 0 := by
  rw [eightSteps, rotStep_same, BitVec.xor_self]
  decide

section Agree

variable {f g : Fin 16 → Word} {ks : Set (Fin 16)} {x y : Fin 16}

theorem eqOn_addStep (hx : x ∈ ks) (hy : y ∈ ks) (h : Set.EqOn f g ks) :
    Set.EqOn (addStep f x y) (addStep g x y) ks := by
  intro k hk
  simp only [addStep, h hx, h hy, h hk]

theorem eqOn_rotStep (hx : x ∈ ks) (hy : y ∈ ks) (n : Nat) (h : Set.EqOn f g ks) :
    Set.EqOn (rotStep f x y n) (rotStep g x y n) ks := by
  intro k hk
  simp only [rotStep, h hx, h hy, h hk]

/-- What the eight steps leave in a set of words that holds the four they name depends on that set alone. -/
theorem eqOn_eightSteps {a b c d : Fin 16} (ha : a ∈ ks) (hb : b ∈ ks) (hc : c ∈ ks) (hd : d ∈ ks)
    (h : Set.EqOn f g ks) : Set.EqOn (eightSteps f a b c d) (eightSteps g a b c d) ks :=
  have half {f g : Fin 16 → Word} (m n : Nat) (h : Set.EqOn f g ks) :
      Set.EqOn (rotStep (addStep (rotStep (addStep f a b) d a m) c d) b c n)
        (rotStep (addStep (rotStep (addStep g a b) d a m) c d) b c n) ks :=
    eqOn_rotStep hb hc n (eqOn_addStep hc hd (eqOn_rotStep hd ha m (eqOn_addStep ha hb h)))
  half 8 7 (half 16 12 h)

end Agree

/-! ## The quarter-round on the array (40_permutation.md R120, R126) -/

theorem getElem_qrf (v : Vector Word 16) (a b c d k : Fin 16) :
    (qrf v a b c d)[k] = eightSteps (fun j => v[j]) a b c d k :=
  congrFun (wordsOf_qrf v a b c d) k

theorem getElem_qrf_of_notMem (v : Vector Word 16) {a b c d k : Fin 16} (h : k ∉ [a, b, c, d]) :
    (qrf v a b c d)[k] = v[k] := by
  rw [getElem_qrf, eightSteps_of_notMem _ h]

theorem getElem_qrf_congr {v w : Vector Word 16} {a b c d k : Fin 16} (hk : k ∈ [a, b, c, d])
    (h : ∀ j ∈ [a, b, c, d], v[j] = w[j]) : (qrf v a b c d)[k] = (qrf w a b c d)[k] := by
  rw [getElem_qrf, getElem_qrf]
  exact eqOn_eightSteps (ks := {j | j ∈ [a, b, c, d]}) (by simp) (by simp) (by simp) (by simp) h hk

theorem quarter_qrf_of_nodup (v : Vector Word 16) {a b c d : Fin 16} (h : [a, b, c, d].Nodup) :
    ((qrf v a b c d)[a], (qrf v a b c d)[b], (qrf v a b c d)[c], (qrf v a b c d)[d]) = quarter v[a] v[b] v[c] v[d] := by
  simp only [getElem_qrf]
  exact eightSteps_of_nodup _ h

/-- A word that one of two quarter-rounds changes is what that one makes of the old array, in either order. -/
theorem qrf_comm_of_disjoint (v : Vector Word 16) {a b c d e f g h : Fin 16}
    (hd : ∀ x ∈ [a, b, c, d], ∀ y ∈ [e, f, g, h], x ≠ y) :
    qrf (qrf v a b c d) e f g h = qrf (qrf v e f g h) a b c d := by
  have hright (x) (hx : x ∈ [a, b, c, d]) : x ∉ [e, f, g, h] := fun hy => hd x hx x hy rfl
  have hleft (y) (hy : y ∈ [e, f, g, h]) : y ∉ [a, b, c, d] := fun hx => hd y hx y hy rfl
  refine wordsOf_inj (funext fun k => ?_)
  simp only [wordsOf]
  by_cases h1 : k ∈ [a, b, c, d]
  · rw [getElem_qrf_of_notMem _ (hright k h1)]
    exact getElem_qrf_congr h1 fun j hj => (getElem_qrf_of_notMem v (hright j hj)).symm
  · rw [getElem_qrf_of_notMem (qrf v e f g h) h1]
    by_cases h2 : k ∈ [e, f, g, h]
    · exact getElem_qrf_congr h2 fun j hj => getElem_qrf_of_notMem v (hleft j hj)
    · rw [getElem_qrf_of_notMem _ h2, getElem_qrf_of_notMem _ h1, getElem_qrf_of_notMem _ h2]

/-! ## A round as lanes (40_permutation.md R122, R123, R126) -/

/-- The four indices of a quarter-round. -/
structure Lane where
  a : Fin 16
  b : Fin 16
  c : Fin 16
  d : Fin 16

namespace Lane

/-- The indices of a lane, in the order of its operands. -/
abbrev indices (l : Lane) : List (Fin 16) := [l.a, l.b, l.c, l.d]

/-- Two lanes share no word (40_permutation.md R126). -/
abbrev Disjoint (l m : Lane) : Prop := ∀ x ∈ l.indices, ∀ y ∈ m.indices, x ≠ y

/-- The quarter-round of a lane. -/
def run (v : Vector Word 16) (l : Lane) : Vector Word 16 := qrf v l.a l.b l.c l.d

/-- The four words of a lane. -/
def words (l : Lane) (v : Vector Word 16) : Word × Word × Word × Word := (v[l.a], v[l.b], v[l.c], v[l.d])

/-- The quarter-round of the values of a lane. -/
def quarter (l : Lane) (v : Vector Word 16) : Word × Word × Word × Word := Claims.quarter v[l.a] v[l.b] v[l.c] v[l.d]

theorem getElem_run_of_disjoint (v : Vector Word 16) {l m : Lane} (h : l.Disjoint m) {k : Fin 16} (hk : k ∈ m.indices) :
    (run v l)[k] = v[k] :=
  getElem_qrf_of_notMem v fun hl => h k hl k hk rfl

theorem words_run (v : Vector Word 16) {l : Lane} (h : l.indices.Nodup) : l.words (run v l) = l.quarter v :=
  quarter_qrf_of_nodup v h

theorem words_run_of_disjoint (v : Vector Word 16) {l m : Lane} (h : l.Disjoint m) : m.words (run v l) = m.words v := by
  simp only [words, getElem_run_of_disjoint v h, List.mem_cons, true_or, or_true]

theorem quarter_run_of_disjoint (v : Vector Word 16) {l m : Lane} (h : l.Disjoint m) :
    m.quarter (run v l) = m.quarter v := by
  simp only [quarter, getElem_run_of_disjoint v h, List.mem_cons, true_or, or_true]

theorem words_foldl_run_of_disjoint {ls : List Lane} {m : Lane} (h : ∀ l ∈ ls, m.Disjoint l) (v : Vector Word 16) :
    m.words (ls.foldl run v) = m.words v := by
  induction ls generalizing v with
  | nil => rfl
  | cons l ls ih =>
    obtain ⟨hl, hls⟩ := List.forall_mem_cons.mp h
    rw [List.foldl_cons, ih hls, words_run_of_disjoint v fun x hx y hy => (hl y hy x hx).symm]

/-- Lanes that share no word, run one after another, are independent: each is the quarter-round of the old values. -/
theorem words_foldl_run {ls : List Lane} (hd : ls.Pairwise Disjoint) (hn : ∀ l ∈ ls, l.indices.Nodup)
    (v : Vector Word 16) : ∀ l ∈ ls, l.words (ls.foldl run v) = l.quarter v := by
  induction ls generalizing v with
  | nil => exact List.forall_mem_nil _
  | cons m ms ih =>
    obtain ⟨hm, hms⟩ := List.pairwise_cons.mp hd
    obtain ⟨hnm, hnms⟩ := List.forall_mem_cons.mp hn
    refine List.forall_mem_cons.mpr ⟨?_, fun l hl => ?_⟩
    · rw [List.foldl_cons, words_foldl_run_of_disjoint hm, words_run v hnm]
    · rw [List.foldl_cons, ih hms hnms _ l hl, quarter_run_of_disjoint v (hm l hl)]

/-- Column j: words j, 4+j, 8+j, 12+j (40_permutation.md R122). -/
def column (j : Fin 4) : Lane :=
  ⟨⟨j, by omega⟩, ⟨4 + j, by omega⟩, ⟨8 + j, by omega⟩, ⟨12 + j, by omega⟩⟩

/-- Diagonal j: words j, 4+(j+1 mod 4), 8+(j+2 mod 4), 12+(j+3 mod 4) (40_permutation.md R123). -/
def diagonal (j : Fin 4) : Lane :=
  ⟨⟨j, by omega⟩, ⟨4 + (j + 1) % 4, by omega⟩, ⟨8 + (j + 2) % 4, by omega⟩, ⟨12 + (j + 3) % 4, by omega⟩⟩

end Lane

theorem columnRound_eq_foldl (v : Vector Word 16) : columnRound v = (List.ofFn Lane.column).foldl Lane.run v := rfl

theorem diagonalRound_eq_foldl (v : Vector Word 16) : diagonalRound v = (List.ofFn Lane.diagonal).foldl Lane.run v := rfl

theorem words_columnRound (v : Vector Word 16) (j : Fin 4) :
    (Lane.column j).words (columnRound v) = (Lane.column j).quarter v := by
  rw [columnRound_eq_foldl]
  exact Lane.words_foldl_run (by decide) (by decide) v _ (List.mem_ofFn.mpr ⟨j, rfl⟩)

theorem words_diagonalRound (v : Vector Word 16) (j : Fin 4) :
    (Lane.diagonal j).words (diagonalRound v) = (Lane.diagonal j).quarter v := by
  rw [diagonalRound_eq_foldl]
  exact Lane.words_foldl_run (by decide) (by decide) v _ (List.mem_ofFn.mpr ⟨j, rfl⟩)

/-! ## The permutation as an iteration, and its fixed point (40_permutation.md R125) -/

theorem doubleRounds_eq_iterate (n : Nat) (v : Vector Word 16) : doubleRounds n v = doubleRound^[n] v := by
  induction n generalizing v with
  | zero => rfl
  | succ n ih => exact ih (doubleRound v)

theorem eightSteps_zero (a b c d : Fin 16) : eightSteps (fun _ => 0) a b c d = fun _ => 0 := by
  have hadd (x y : Fin 16) : addStep (fun _ => 0) x y = fun _ => 0 := funext fun _ => by simp [addStep]
  have hrot (x y : Fin 16) (n : Nat) : rotStep (fun _ => 0) x y n = fun _ => 0 :=
    funext fun _ => by simp [rotStep, BitVec.rotateLeft_def]
  simp only [eightSteps, hadd, hrot]

theorem qrf_zero (a b c d : Fin 16) : qrf (Vector.replicate 16 0) a b c d = Vector.replicate 16 0 := by
  have hzero : wordsOf (Vector.replicate 16 0) = fun _ => 0 := funext fun k => by simp [wordsOf]
  apply wordsOf_inj
  rw [wordsOf_qrf, hzero, eightSteps_zero]

theorem permF_zero : permF (Vector.replicate 16 0) = Vector.replicate 16 0 := by
  have hfix : doubleRound (Vector.replicate 16 0) = Vector.replicate 16 0 := by
    simp only [doubleRound, columnRound, diagonalRound, qrf_zero]
  rw [permF, doubleRounds_eq_iterate, Function.iterate_fixed hfix]

/-! ## The commands as functions of S (40_permutation.md R127) -/

/-- A command that puts a function of S into S, and completes. -/
def ActsOnS (i : Instr) (g : Vector Word 16 → Vector Word 16) : Prop :=
  ∀ s : State, exec i s = .next ((s.setS (g s.s)).finish .ok)

theorem exists_actsOnS {i : Instr}
    (hi : (∃ a b c d, i = .qr a b c d) ∨ i = .colrnd ∨ i = .diagrnd ∨ i = .dblrnd ∨ i = .perm) : ∃ g, ActsOnS i g := by
  obtain ⟨a, b, c, d, rfl⟩ | rfl | rfl | rfl | rfl := hi
  · exact ⟨fun v => qrf v a b c d, exec_qr a b c d⟩
  · exact ⟨_, exec_colrnd⟩
  · exact ⟨_, exec_diagrnd⟩
  · exact ⟨_, exec_dblrnd⟩
  · exact ⟨_, exec_perm⟩

theorem ActsOnS.andThen {i j : Instr} {g h : Vector Word 16 → Vector Word 16} (hi : ActsOnS i g) (hj : ActsOnS j h)
    (s : State) : andThen (exec i s) (exec j) = .next ((s.setS (h (g s.s))).finish .ok) := by
  rw [hi s]
  exact hj _

theorem ActsOnS.repeated {i : Instr} {g : Vector Word 16 → Vector Word 16} (hi : ActsOnS i g) (n : Nat) (s : State) :
    repeated i (n + 1) s = .next ((s.setS (g^[n + 1] s.s)).finish .ok) := by
  induction n generalizing s with
  | zero => rw [Claims.repeated, hi s]; rfl
  | succ n ih => rw [Claims.repeated, hi s]; exact ih _

theorem ended_finish (s : State) (c : Completion) : Ended (s.finish c) c := ⟨rfl, rfl, rfl⟩

theorem keepsAllButS_setS_finish (s : State) (v : Vector Word 16) : KeepsAllButS s ((s.setS v).finish .ok) := by
  simp [KeepsAllButS, KeepsHostSide, KeepsInputs, KeepsCounter, KeepsPoly, KeepsResults, KeepsDmem]

/-! ## The obligations (40_permutation.md) -/

/-- Settles O15: the array of the model, word by word, is that of the rule. -/
theorem quarterRoundIsTheEightSteps : Obligations.QuarterRoundIsTheEightSteps := by
  intro a b c d s
  exact ⟨_, exec_qr a b c d s, ended_finish _ _, getElem_qrf s.s a b c d, keepsAllButS_setS_finish s _⟩

/-- Settles O16, by the eight steps on four different indices and on four equal ones. -/
theorem quarterRoundOfDistinctAndOfEqualIndices : Obligations.QuarterRoundOfDistinctAndOfEqualIndices := by
  constructor
  · intro a b c d s hab hac had hbc hbd hcd
    have hn : [a, b, c, d].Nodup := by simp [hab, hac, had, hbc, hbd, hcd]
    exact ⟨_, exec_qr a b c d s, quarter_qrf_of_nodup s.s hn,
      fun k ha hb hc hd => getElem_qrf_of_notMem s.s (by simp [ha, hb, hc, hd])⟩
  · intro i s
    exact ⟨_, exec_qr i i i i s, (getElem_qrf s.s i i i i i).trans (eightSteps_same _ i),
      fun k hk => getElem_qrf_of_notMem s.s (by simp [hk])⟩

/-- Settles O17: the columns share no word. -/
theorem columnRoundIsFourLanes : Obligations.ColumnRoundIsFourLanes := by
  intro s
  exact ⟨_, exec_colrnd s, ended_finish _ _, fun j h => words_columnRound s.s ⟨j, h⟩, keepsAllButS_setS_finish s _⟩

/-- Settles O18: the diagonals share no word. -/
theorem diagonalRoundIsFourLanes : Obligations.DiagonalRoundIsFourLanes := by
  intro s
  exact ⟨_, exec_diagrnd s, ended_finish _ _, fun j h => words_diagonalRound s.s ⟨j, h⟩, keepsAllButS_setS_finish s _⟩

/-- Settles O19, by the arrays the two orders leave. -/
theorem disjointQuarterRoundsCommute : Obligations.DisjointQuarterRoundsCommute := by
  intro a b c d e f g h s hd
  have hfirst : ActsOnS (.qr a b c d) fun v => qrf v a b c d := exec_qr a b c d
  have hsecond : ActsOnS (.qr e f g h) fun v => qrf v e f g h := exec_qr e f g h
  refine ⟨_, hfirst.andThen hsecond s, ?_⟩
  rw [hsecond.andThen hfirst s, qrf_comm_of_disjoint s.s hd]

/-- Settles O20: the second command finds in S what the first left there. -/
theorem doubleRoundIsColumnThenDiagonal : Obligations.DoubleRoundIsColumnThenDiagonal := by
  intro s
  have hcol : ActsOnS .colrnd columnRound := exec_colrnd
  exact ⟨_, exec_dblrnd s, ended_finish _ _, hcol.andThen exec_diagrnd s, keepsAllButS_setS_finish s _⟩

/-- Settles O21: the permutation is the double round iterated ten times, and 0 is a fixed point of the double round. -/
theorem permIsTenDoubleRounds : Obligations.PermIsTenDoubleRounds := by
  intro s
  have hdbl : ActsOnS .dblrnd doubleRound := exec_dblrnd
  refine ⟨_, exec_perm s, ended_finish _ _, ?_, keepsAllButS_setS_finish s _, fun hs => ?_⟩
  · rw [hdbl.repeated 9 s, permF, doubleRounds_eq_iterate]
  · rw [State.finish_s, State.setS_s, hs, permF_zero]

/-- Settles O22: each of the commands puts a function of S into S. -/
theorem permutationCommandsReadAndWriteSAlone : Obligations.PermutationCommandsReadAndWriteSAlone := by
  intro i s hi
  obtain ⟨g, hg⟩ := exists_actsOnS hi
  refine ⟨_, hg s, ended_finish _ _, keepsAllButS_setS_finish s _, fun u hu => ⟨_, hg u, ?_, rfl⟩⟩
  rw [State.finish_s, State.finish_s, State.setS_s, State.setS_s, hu]

end Sys2Proof.Machine
end

section
/-!
PROOFS. HChaCha20 and the keystream block of the same start: both permute one array, and the block alone adds it back
(41_hchacha.md).
-/

namespace Sys2Proof.Machine

open Sys2Proof.Claims

/-- The model's start is the array of the claims, with its last four words one by one (41_hchacha.md R140, R141). -/
theorem chachaStart_eq_startArray (k : Vector Word 8) (n : Vector Word 4) :
    chachaStart k n = startArray k n[0] n[1] n[2] n[3] := rfl

/-- HCHACHA20 is the permutation of its start, with nothing added back (41_hchacha.md R141). -/
theorem hchachaState_eq_permF (k : Vector Word 8) (n : Vector Word 4) :
    hchachaState k n = permF (startArray k n[0] n[1] n[2] n[3]) := by
  rw [hchachaState, chachaStart_eq_startArray]

/-- The block is HCHACHA20's state of the same start plus, word by word, that start (41_hchacha.md R143, 42_keystream.md
R150). -/
theorem getElem_chachaBlock (k : Vector Word 8) (c : Word) (n : Vector Word 3) (i : Nat) (hi : i < 16) :
    (chachaBlock k c n)[i] = (hchachaState k #v[c, n[0], n[1], n[2]])[i] + (startArray k c n[0] n[1] n[2])[i] :=
  Vector.getElem_zipWith hi

/-- Settles O26: the words of the start are the constants in 0 to 3, and the counter and the nonce in 12 to 15. -/
theorem hchachaAndKeystreamDifferByTheFeedForward : Obligations.HchachaAndKeystreamDifferByTheFeedForward := by
  intro k c n1 n2 n3
  have hword := getElem_chachaBlock k c #v[n1, n2, n3]
  exact ⟨_, _, rfl, rfl, hword 0 (by decide), hword 1 (by decide), hword 2 (by decide), hword 3 (by decide),
    hword 12 (by decide), hword 13 (by decide), hword 14 (by decide), hword 15 (by decide)⟩

/-- Settles O23: HCHACHA leaves in S what PERM makes of the start, and writes no register but S and SUBKEY. -/
theorem hchachaPermutesAndSelects : Obligations.HchachaPermutesAndSelects := by
  intro s
  have hexec := exec_hchacha s
  have hw := exec_writesOnly hexec
  have hstate : hchachaState s.key (noncePrefix s.nonce) =
      permF (startArray s.key s.nonce[0] s.nonce[1] s.nonce[2] s.nonce[3]) := hchachaState_eq_permF _ _
  refine ⟨_, _, hexec, ended_finish _ _, exec_perm _, ?_, ?_, hw.hostSide,
    ⟨hw.key (by decide), hw.nonce (by decide), hw.ptag (by decide)⟩, hw.counter (by decide), hw.ks (by decide),
    ⟨hw.pkey (by decide), hw.pr (by decide), hw.ps (by decide), hw.ph (by decide), hw.pblk (by decide)⟩,
    ⟨hw.tag (by decide), hw.outLen (by decide)⟩, fun a => ?_, hw.authok nofun nofun⟩
  · simp only [State.finish_s, State.setSubkey_s, State.setS_s, hstate]
  · simp only [State.finish_subkey, State.setSubkey_subkey, State.finish_s, State.setS_s, hchachaSubkey, hstate]
  · rw [hw.dmem nofun nofun nofun]

end Sys2Proof.Machine
end

section
/-!
PROOFS. The keystream command and its counter: the block with its feed-forward, the counter advance, the exhausted counter,
and what ends the exhaustion (42_keystream.md R150 to R152).
-/

namespace Sys2Proof.Machine

open Sys2Proof.Claims

variable {s t : State}

/-! ## The whole effect of KSBLK (42_keystream.md R151, R152) -/

theorem exec_ksblk_exhausted (ksel nsel inc : Bool) (h : s.ctrexh = true) :
    exec (.ksblk ksel nsel inc) s = .next (s.finish .counterExhausted) := by
  rw [exec_ksblk, if_pos h]

/-- The block KSBLK generates. -/
def ksblkBlock (s : State) (ksel nsel : Bool) : Vector Word 16 :=
  chachaBlock (ksblkKey s ksel) s.ctr (ksblkNonce s nsel)

/-- With the counter not exhausted, all forms of KSBLK in one: without INC the counter is written back as it was. -/
theorem exec_ksblk_block (ksel nsel inc : Bool) (h : s.ctrexh = false) :
    exec (.ksblk ksel nsel inc) s =
      .next ((((s.setS (ksblkBlock s ksel nsel)).setKs (ksblkBlock s ksel nsel)).setCounter
        (if inc then s.ctr + 1 else s.ctr) (inc && s.ctr == 0xFFFFFFFF#32)).finish .ok) := by
  rw [exec_ksblk, if_neg (by simp [h])]
  cases inc with
  | true =>
    rw [if_pos rfl, advanceCounter_eq, State.setKs_ctrexh, State.setS_ctrexh, h]
    rfl
  | false =>
    simp only [Bool.false_and, Bool.false_eq_true, if_false]
    rw [← h]
    rfl

/-! ## The block (42_keystream.md R150, R151) -/

/-- The array the block starts from, with the key and the nonce words chosen by the selectors (30_encoding.md R94). -/
theorem startArray_ksblk (s : State) (ksel nsel : Bool) :
    startArray (ksblkKey s ksel) s.ctr (ksblkNonce s nsel)[0] (ksblkNonce s nsel)[1] (ksblkNonce s nsel)[2] =
      startArray (if ksel then s.subkey else s.key) s.ctr (if nsel then 0 else s.nonce[0])
        (if nsel then s.nonce[4] else s.nonce[1]) (if nsel then s.nonce[5] else s.nonce[2]) := by
  cases nsel <;> rfl

/-- Feed-forward: each word of the block is that of the permuted start plus that of the start. -/
theorem getElem_ksblkBlock (s : State) (ksel nsel : Bool) {x : Vector Word 16}
    (hx : startArray (ksblkKey s ksel) s.ctr (ksblkNonce s nsel)[0] (ksblkNonce s nsel)[1] (ksblkNonce s nsel)[2] = x)
    (k : Fin 16) : (ksblkBlock s ksel nsel)[k] = (permF x)[k] + x[k] := by
  subst hx
  exact getElem_chachaBlock _ _ _ k k.isLt

/-- Settles O24: KSBLK leaves the block in S and KS, and writes no other register but, with INC, the counter. -/
theorem ksblkGeneratesTheBlock : Obligations.KsblkGeneratesTheBlock := by
  intro ksel nsel inc s h
  have hexec := exec_ksblk_block ksel nsel inc h
  have hside := (exec_writesOnly hexec).hostSide
  refine ⟨_, _, _, rfl, hexec, ended_finish _ _, exec_perm _, getElem_ksblkBlock s ksel nsel (startArray_ksblk s ksel nsel),
    rfl, fun hinc => ?_, hside, ⟨rfl, rfl, rfl⟩, rfl, ⟨rfl, rfl, rfl, rfl, rfl⟩, ⟨rfl, rfl⟩, fun _ => rfl, rfl⟩
  subst hinc
  exact ⟨rfl, h.symm⟩

/-! ## The counter (42_keystream.md R152) -/

/-- 0xFFFFFFFF is the largest counter. -/
theorem ctr_eq_last_iff (c : Word) : c = 0xFFFFFFFF#32 ↔ ¬c.toNat < 2 ^ 32 - 1 := by
  bv_omega

theorem keepsAllButStatus_finish (s : State) (c : Completion) : KeepsAllButStatus s (s.finish c) := by
  simp [KeepsAllButStatus, KeepsHostSide, KeepsInputs, KeepsCounter, KeepsPoly, KeepsResults, KeepsDmem]

/-- Settles O25: the counter below its end, at its end, and past it. -/
theorem ksblkAdvancesOrExhaustsTheCounter : Obligations.KsblkAdvancesOrExhaustsTheCounter := by
  intro ksel nsel s
  refine ⟨fun h => ⟨_, exec_ksblk_block ksel nsel true h, rfl, ?_⟩, fun inc h => ?_⟩
  · simp only [State.finish_ctr, State.finish_ctrexh, State.setCounter_ctr, State.setCounter_ctrexh, if_true,
      Bool.true_and]
    split
    next hlt =>
      have hne : s.ctr ≠ 0xFFFFFFFF#32 := fun he => (ctr_eq_last_iff _).mp he hlt
      exact ⟨by bv_omega, beq_eq_false_iff_ne.mpr hne⟩
    next hlast =>
      rw [(ctr_eq_last_iff _).mpr hlast]
      decide
  · exact ⟨_, exec_ksblk_exhausted ksel nsel inc h, ended_finish _ _, rfl, keepsAllButStatus_finish s _⟩

/-! ## What ends the exhaustion (42_keystream.md R152, 10_state.md R29) -/

/-- CTR is written by the KSBLK forms with INC and by ZEROIZE. -/
theorem ctr_mem_registersWritten {i : Instr} (h : .ctr ∈ registersWritten i) :
    (∃ ksel nsel, i = .ksblk ksel nsel true) ∨ ∃ dm, i = .zeroize dm := by
  cases i with
  | ksblk ksel nsel inc =>
    cases inc with
    | true => exact .inl ⟨ksel, nsel, rfl⟩
    | false => simp [registersWritten] at h
  | zeroize dm => exact .inr ⟨dm, rfl⟩
  | _ => simp [registersWritten] at h

/-- The one other command that writes the counter, KSBLK with INC, fails while it is exhausted. -/
theorem exec_clears_ctrexh {i : Instr} (h : exec i s = .next t) (hs : s.ctrexh = true) (ht : t.ctrexh = false) :
    ∃ dm, i = .zeroize dm := by
  by_cases hctr : .ctr ∈ registersWritten i
  · obtain ⟨ksel, nsel, rfl⟩ | hz := ctr_mem_registersWritten hctr
    · cases (exec_ksblk_exhausted ksel nsel true hs).symm.trans h
      simp [hs] at ht
    · exact hz
  · obtain ⟨-, hkeep⟩ := (exec_writesOnly h).counter hctr
    simp [hkeep, hs] at ht

theorem engineStep_clears_ctrexh (h : engineStep s = .next t) (hs : s.ctrexh = true) (ht : t.ctrexh = false) :
    s.busy = true ∧ ∃ dm, decode s.cmd = .command (.zeroize dm) := by
  obtain ⟨-, rfl⟩ | ⟨-, c, rfl⟩ | ⟨hb, i, hi, he⟩ := engineStep_next h
  · simp [hs] at ht
  · simp [hs] at ht
  · obtain ⟨dm, rfl⟩ := exec_clears_ctrexh he hs ht
    exact ⟨hb, dm, hi⟩

theorem hostRead_ctrexh (s : State) (off : Word) : (hostRead s off).ctrexh = s.ctrexh := by
  obtain ⟨r, h⟩ | ⟨-, h⟩ := hostRead_cases s off <;> rw [h] <;> rfl

theorem writeReg_ctrexh_of_ne (s : State) {n : RegName} (hn : n ≠ .ctr) (i : Nat) (v : Word) :
    (writeReg s n i v).ctrexh = s.ctrexh := by
  cases n with
  | ctr => contradiction
  | _ => rfl

theorem registerWrite_clears_ctrexh {n : RegName} {i : Nat} {v : Word} (hs : s.ctrexh = true)
    (ht : (registerWrite s n i v).ctrexh = false) :
    (n = .ctrl ∧ v.getLsbD 1 = true) ∨ (n = .ctr ∧ s.busy = false) := by
  obtain ⟨-, hc⟩ | ⟨hn, hv, -⟩ | ⟨-, -, hc⟩ | ⟨-, -, -, hc⟩ | ⟨-, -, hc⟩ | ⟨-, -, -, hb, hc⟩ :=
    registerWrite_cases s n i v
  · simp [hc, statusWrite, hs] at ht
  · exact .inl ⟨hn, hv⟩
  · simp [hc, hs] at ht
  · simp [hc, hs] at ht
  · simp [hc, hs] at ht
  · refine .inr ⟨?_, hb⟩
    by_contra hn
    simp [hc, writeReg_ctrexh_of_ne s hn, hs] at ht

theorem hostWrite_clears_ctrexh {off v : Word} {strb : BitVec 4} (hs : s.ctrexh = true)
    (ht : (hostWrite s off v strb).ctrexh = false) :
    isReset (.write off v strb) = true ∨ (s.busy = false ∧ off = 0x058#32 ∧ strb = 0b1111#4) := by
  obtain hc | hc | ⟨a, -, -, -, hc⟩ | ⟨r, i, htarget, h4, hstrb, hc⟩ := hostWrite_cases s off v strb <;> rw [hc] at ht
  · simp [hs] at ht
  · simp [hs] at ht
  · obtain ⟨-, hc⟩ | ⟨-, hc⟩ := dmemWrite_cases s a v strb <;> simp [hc, hs] at ht
  · have h := regWordAt_of_target h4 htarget
    obtain ⟨hn, hv⟩ | ⟨hn, hb⟩ := registerWrite_clears_ctrexh hs ht
    · refine .inl ?_
      simp [isReset, h.ctrl_iff.mp hn, hv, hstrb]
    · exact .inr ⟨hb, h.ctr_iff.mp hn, hstrb⟩

/-- While idle, a full-strobe write of CTR puts its data there (10_state.md R29). -/
theorem hostWrite_ctr (hb : s.busy = false) (v : Word) : (hostWrite s 0x058#32 v 0b1111#4).ctr = v := by
  have h : RegWordAt ⟨0x058, .ctr, 1, .rw⟩ 0 (0x058#32).toNat := ⟨by decide, by decide, rfl⟩
  rw [hostWrite_reg_idle h hb (by decide) (by decide)]
  rfl

/-- Settles O51, event by event: the engine clears CTREXH only by ZEROIZE, a host write only of CTR or as a reset. -/
theorem exhaustionEndsOnlyByCtrZeroizeOrReset : Obligations.ExhaustionEndsOnlyByCtrZeroizeOrReset := by
  intro s t hs h ht
  obtain (⟨-, he⟩ | ⟨es, -, he⟩) | ⟨off, es, -, he⟩ | ⟨off, v, strb, es, hsch, he⟩ | ⟨es, hsch, he⟩ := step_cases s <;>
    rw [he] at h
  · exact .inr (.inl (engineStep_clears_ctrexh h hs ht))
  · exact .inr (.inl (engineStep_clears_ctrexh (s := s.setSchedule es) h hs ht))
  · cases h
    simp [hostRead_ctrexh, hs] at ht
  · cases h
    obtain hr | ⟨hb, rfl, rfl⟩ := hostWrite_clears_ctrexh (s := s.setSchedule es) hs ht
    · exact .inr (.inr ⟨_, es, hsch, hr⟩)
    · exact .inl ⟨v, es, hb, hsch, hostWrite_ctr hb v⟩
  · exact .inr (.inr ⟨_, es, hsch, rfl⟩)

end Sys2Proof.Machine
end

section
/-!
PROOFS. The Poly1305 commands: the key split, the absorption of a block, the tag and its comparison, and that together they
compute POLY1305 of a message of any length (43_poly1305.md).
-/

namespace Sys2Proof.Machine

open Sys2Proof.Claims

/-! ## Parts of byte strings and of register arrays (00_scope.md R10, 10_state.md R34 to R36) -/

theorem bytesLe_cons (w : Word) (ws : List Word) : bytesLe (w :: ws) = leBytes w.toNat 4 ++ bytesLe ws :=
  List.flatMap_cons

theorem take_bytesLe (n : Nat) (ws : List Word) : (bytesLe ws).take (4 * n) = bytesLe (ws.take n) := by
  induction n generalizing ws with
  | zero => rfl
  | succ n ih =>
    cases ws with
    | nil => rfl
    | cons w ws =>
      have htake := List.take_length_add_append (l₁ := leBytes w.toNat 4) (l₂ := bytesLe ws) (4 * n)
      rw [length_leBytes, ih] at htake
      rw [bytesLe_cons, Nat.mul_succ, Nat.add_comm, htake, List.take_succ_cons, bytesLe_cons]

theorem drop_bytesLe (n : Nat) (ws : List Word) : (bytesLe ws).drop (4 * n) = bytesLe (ws.drop n) := by
  induction n generalizing ws with
  | zero => rfl
  | succ n ih =>
    cases ws with
    | nil => rfl
    | cons w ws =>
      have hdrop := List.drop_length_add_append (l₁ := leBytes w.toNat 4) (l₂ := bytesLe ws) (4 * n)
      rw [length_leBytes, ih] at hdrop
      rw [bytesLe_cons, Nat.mul_succ, Nat.add_comm, hdrop, List.drop_succ_cons]

/-- The first n bytes hold the low 8*n bits. -/
theorem leInt_take (n : Nat) (b : List Byte) : leInt (b.take n) = leInt b % 2 ^ (8 * n) := by
  induction n generalizing b with
  | zero => rw [List.take_zero, Nat.mul_zero, Nat.pow_zero, Nat.mod_one, leInt]
  | succ n ih =>
    cases b with
    | nil => rw [List.take_nil, leInt, Nat.zero_mod]
    | cons x b =>
      have hpow : 2 ^ (8 * (n + 1)) = 256 * 2 ^ (8 * n) := by rw [Nat.mul_succ, Nat.pow_add, Nat.mul_comm]
      have hx := x.isLt
      have hlow : (x.toNat + 256 * leInt b) % 256 = x.toNat := by omega
      have hhigh : (x.toNat + 256 * leInt b) / 256 = leInt b := by omega
      rw [List.take_succ_cons, leInt, leInt, ih, hpow, Nat.mod_mul, hlow, hhigh]

/-- The first n words hold the low 32*n bits. -/
theorem numOf_take (n : Nat) (ws : List Word) : numOf (ws.take n) = numOf ws % 2 ^ (32 * n) := by
  rw [← leInt_bytesLe, ← take_bytesLe, leInt_take, leInt_bytesLe, ← Nat.mul_assoc]

/-- The bytes of a packed number are its little-endian bytes. -/
theorem bytesLe_limbs (n v : Nat) : bytesLe (limbs n v).toList = leBytes v (4 * n) := by
  rw [← wordsLe_leBytes, bytesLe_wordsLe n _ (length_leBytes _ _)]

/-! ## The one-time key (43_poly1305.md R171, R178) -/

theorem polyS_lt (k : List Byte) : polyS k < 2 ^ 128 := by
  rw [polyS, leInt_take]
  exact Nat.mod_lt _ (by decide)

theorem numOf_limbs_polyS (k : List Byte) : numOf (limbs 4 (polyS k)).toList = polyS k := by
  rw [numOf_limbs]
  exact Nat.mod_eq_of_lt (polyS_lt k)

theorem polyR_bytesLe (ws : List Word) : polyR (bytesLe ws) = numOf (ws.take 4) &&& clampMask := by
  rw [polyR, take_bytesLe 4, leInt_bytesLe]

theorem polyS_bytesLe (ws : List Word) : polyS (bytesLe ws) = numOf ((ws.drop 4).take 4) := by
  rw [polyS, drop_bytesLe 4, take_bytesLe 4, leInt_bytesLe]

/-- The words PINIT takes its key from (30_encoding.md R95). -/
def pinitWords (s : State) (pksrc : Bool) : List Word := if pksrc then s.ks.toList.take 8 else s.pkey.toList

theorem pinitKey_eq (s : State) (pksrc : Bool) : pinitKey s pksrc = bytesLe (pinitWords s pksrc) := rfl

theorem length_pinitWords (s : State) (pksrc : Bool) : (pinitWords s pksrc).length = 8 := by
  cases pksrc <;> simp [pinitWords]

/-- Settles O27: the halves of the key's bytes are the halves of its words. -/
theorem pinitLoadsTheClampedKey : Obligations.PinitLoadsTheClampedKey := by
  intro pksrc s
  have hexec := exec_pinit pksrc s
  have hside := (exec_writesOnly hexec).hostSide
  refine ⟨_, pinitWords s pksrc, rfl, hexec, ended_finish _ _, ?_, ?_, rfl, hside, ⟨rfl, rfl, rfl⟩, ⟨rfl, rfl⟩, rfl, rfl,
    rfl, rfl, rfl, ⟨rfl, rfl⟩, fun _ => rfl, rfl⟩
  · rw [State.finish_pr, State.setPh_pr, State.setPolyKey_pr, numOf_limbs_polyR, pinitKey_eq, polyR_bytesLe, clampMask]
  · have hlen : ((pinitWords s pksrc).drop 4).length ≤ 4 := by rw [List.length_drop, length_pinitWords]
    rw [State.finish_ps, State.setPh_ps, State.setPolyKey_ps, numOf_limbs_polyS, pinitKey_eq, polyS_bytesLe,
      List.take_of_length_le hlen]

/-! ## The accumulator (43_poly1305.md R173, R179) -/

/-- A residue fits the five words of PH. -/
theorem numOf_limbs_mod_polyP (x : Nat) : numOf (limbs 5 (x % polyP)).toList = x % polyP := by
  rw [numOf_limbs]
  exact Nat.mod_eq_of_lt (Nat.lt_trans (Nat.mod_lt _ (by decide)) (by decide))

theorem leInt_pblkBytes (s : State) (n : Nat) : leInt (pblkBytes s n) = numOf s.pblk.toList % 2 ^ (8 * n) := by
  rw [pblkBytes, leInt_take, leInt_bytesLe]

/-- Settles O28: the first n bytes of PBLK are its number modulo 2^(8n), and the residue fits PH. -/
theorem pblkAbsorbsTheBlock : Obligations.PblkAbsorbsTheBlock := by
  intro n s
  have hexec := exec_pblk n s
  have hside := (exec_writesOnly hexec).hostSide
  refine ⟨_, hexec, ended_finish _ _, ?_, hside, ⟨rfl, rfl, rfl⟩, ⟨rfl, rfl⟩, rfl, rfl, rfl, rfl, rfl, rfl, rfl,
    ⟨rfl, rfl⟩, fun _ => rfl, rfl⟩
  rw [State.finish_ph, State.setPh_ph, numOf_limbs_mod_polyP, leInt_pblkBytes, polyP]

/-! ## The tag (43_poly1305.md R174, R180, R181) -/

theorem numOf_limbs_polyTag (h k : Nat) : numOf (limbs 4 (polyTag h k)).toList = (h + k) % 2 ^ 128 := by
  rw [numOf_limbs, polyTag, Nat.mod_mod]

/-- Settles O29: PH[4] counts multiples of 2^128, and PFIN reads nothing it writes. -/
theorem pfinFinalisesTheTag : Obligations.PfinFinalisesTheTag := by
  intro s
  have hexec := exec_pfin s
  have hside := (exec_writesOnly hexec).hostSide
  have htag := numOf_limbs_polyTag (numOf s.ph.toList) (numOf s.ps.toList)
  refine ⟨_, hexec, ended_finish _ _, htag, ?_, exec_pfin _, hside, ⟨rfl, rfl, rfl⟩, ⟨rfl, rfl⟩, rfl, rfl, rfl,
    ⟨rfl, rfl, rfl, rfl, rfl⟩, rfl, fun _ => rfl, rfl⟩
  rw [numOf_take 4, Nat.mod_add_mod]
  exact htag

/-- Register arrays agree exactly when all their words do. -/
theorem words_eq_iff {n : Nat} (v w : Vector Word n) : v = w ↔ ∀ k : Fin n, v[k] = w[k] :=
  ⟨fun h _ => h ▸ rfl, fun h => Vector.ext fun i hi => h ⟨i, hi⟩⟩

theorem exec_pver_match {s : State} (h : s.tag = s.ptag) : exec .pver s = .next ((s.setAuthok true).finish .ok) := by
  rw [exec_pver, decide_eq_true h, if_pos rfl]

theorem exec_pver_mismatch {s : State} (h : s.tag ≠ s.ptag) :
    exec .pver s = .next ((s.setAuthok false).finish .authenticationFailure) := by
  rw [exec_pver, decide_eq_false h, if_neg Bool.false_ne_true]

theorem keepsAllButStatus_setAuthok_finish (s : State) (b : Bool) (c : Completion) :
    KeepsAllButStatus s ((s.setAuthok b).finish c) := by
  simp [KeepsAllButStatus, KeepsHostSide, KeepsInputs, KeepsCounter, KeepsPoly, KeepsResults, KeepsDmem]

/-- Settles O30, for equal and for different tags. -/
theorem pverComparesTheTags : Obligations.PverComparesTheTags := by
  intro s
  have hiff := words_eq_iff s.tag s.ptag
  by_cases h : s.tag = s.ptag
  · exact ⟨_, exec_pver_match h, fun _ => ⟨ended_finish _ _, rfl⟩, fun ⟨k, hk⟩ => absurd (hiff.mp h k) hk,
      keepsAllButStatus_setAuthok_finish s _ _⟩
  · exact ⟨_, exec_pver_mismatch h, fun hall => absurd (hiff.mpr hall) h, fun _ => ⟨ended_finish _ _, rfl⟩,
      keepsAllButStatus_setAuthok_finish s _ _⟩

/-! ## The blocks of a message (43_poly1305.md R175) -/

/-- The blocks POLY1305 cuts a message into. -/
def blocksOf (m : List Byte) : List (List Byte) := (List.range (ceilDiv m.length 16)).map (blockOf m)

theorem polyAccumulate_eq_foldl (r : Nat) (m : List Byte) : polyAccumulate r m = (blocksOf m).foldl (polyStep r) 0 :=
  List.foldl_map.symm

/-- A message shorter than a block is its own last block, and an empty one has none. -/
theorem blocksOf_short {m : List Byte} (h : m.length < 16) : blocksOf m = if m = [] then [] else [m] := by
  split
  next hm => rw [hm]; rfl
  next hm =>
    have hpos := List.length_pos_iff.mpr hm
    have hone : ceilDiv m.length 16 = 1 := by rw [ceilDiv]; omega
    have hblock : blockOf m 0 = m := List.take_of_length_le (Nat.le_of_lt h)
    rw [blocksOf, hone, List.range_one, List.map_singleton, hblock]

theorem blockOf_append_zero {b : List Byte} (h : b.length = 16) (m : List Byte) : blockOf (b ++ m) 0 = b :=
  List.take_left' h

theorem blockOf_append_succ {b : List Byte} (h : b.length = 16) (m : List Byte) (j : Nat) :
    blockOf (b ++ m) (j + 1) = blockOf m j := by
  rw [blockOf, Nat.mul_succ, Nat.add_comm, ← h, List.drop_length_add_append, h, blockOf]

/-- A full block in front is the first block. -/
theorem blocksOf_append {b : List Byte} (h : b.length = 16) (m : List Byte) : blocksOf (b ++ m) = b :: blocksOf m := by
  have hcount : ceilDiv (b ++ m).length 16 = ceilDiv m.length 16 + 1 := by
    rw [List.length_append, h, ceilDiv, ceilDiv]
    omega
  rw [blocksOf, hcount, List.range_succ_eq_map, List.map_cons, List.map_map, blockOf_append_zero h, blocksOf]
  exact congrArg _ (List.map_congr_left fun j _ => blockOf_append_succ h m j)

theorem blocksOf_flatten_append {full : List (List Byte)} {last : List Byte} (hfull : ∀ b ∈ full, b.length = 16)
    (hlast : last.length < 16) :
    blocksOf (full.flatten ++ last) = full ++ if last = [] then [] else [last] := by
  induction full with
  | nil => exact blocksOf_short hlast
  | cons b bs ih =>
    obtain ⟨hb, hbs⟩ := List.forall_mem_cons.mp hfull
    rw [List.flatten_cons, List.append_assoc, blocksOf_append hb, ih hbs, List.cons_append]

/-! ## POLY1305 by the primitive commands (43_poly1305.md R175, R178 to R180) -/

/-- A block loaded into PBLK with zeros behind it is what `pblk` reads. -/
theorem pblkBytes_loaded {b : List Byte} (hb : b.length ≤ 16) (s : State) :
    pblkBytes { s with pblk := wordsLe 4 (b ++ List.replicate (16 - b.length) 0) } b.length = b := by
  have hlen : (b ++ List.replicate (16 - b.length) (0 : Byte)).length = 4 * 4 := by
    rw [List.length_append, List.length_replicate]
    omega
  rw [pblkBytes, bytesLe_wordsLe 4 _ hlen, List.take_left]

/-- One block absorbed is one accumulator step. -/
theorem absorb_step {b : List Byte} (hb : b.length ≤ 16) (s : State) :
    ∃ t, absorb b s = .next t ∧ t.pr = s.pr ∧ t.ps = s.ps ∧
      numOf t.ph.toList = polyStep (numOf s.pr.toList) (numOf s.ph.toList) b := by
  refine ⟨_, exec_pblk _ _, rfl, rfl, ?_⟩
  rw [pblkBytes_loaded hb, State.finish_ph, State.setPh_ph, numOf_limbs_mod_polyP, polyStep, blockValue]

/-- Blocks absorbed one after another are the accumulator steps in that order. -/
theorem absorbAll_foldl {bs : List (List Byte)} (hbs : ∀ b ∈ bs, b.length ≤ 16) (s : State) :
    ∃ t, absorbAll bs s = .next t ∧ t.pr = s.pr ∧ t.ps = s.ps ∧
      numOf t.ph.toList = bs.foldl (polyStep (numOf s.pr.toList)) (numOf s.ph.toList) := by
  induction bs generalizing s with
  | nil => exact ⟨s, rfl, rfl, rfl, rfl⟩
  | cons b bs ih =>
    obtain ⟨hb, hrest⟩ := List.forall_mem_cons.mp hbs
    obtain ⟨u, hu, hupr, hups, huph⟩ := absorb_step hb s
    obtain ⟨t, ht, htpr, htps, htph⟩ := ih hrest u
    refine ⟨t, ?_, htpr.trans hupr, htps.trans hups, ?_⟩
    · rw [absorbAll, hu]
      exact ht
    · rw [htph, hupr, huph, List.foldl_cons]

/-- PINIT on a key loaded into PKEY starts POLY1305 of that key: its r and s, and h = 0. -/
theorem pinit_loaded {k : List Byte} (hk : k.length = 32) (s : State) :
    ∃ t, exec (.pinit false) { s with pkey := wordsLe 8 k } = .next t ∧ numOf t.pr.toList = polyR k ∧
      numOf t.ps.toList = polyS k ∧ numOf t.ph.toList = 0 := by
  have hkey : pinitKey { s with pkey := wordsLe 8 k } false = k := bytesLe_wordsLe 8 k hk
  refine ⟨_, exec_pinit _ _, ?_, ?_, ?_⟩ <;> rw [hkey]
  · exact numOf_limbs_polyR k
  · exact numOf_limbs_polyS k
  · exact numOf_limbs 5 0

/-- The primitive commands leave the tag of the accumulated blocks. -/
theorem macByCommands_tag {k : List Byte} (hk : k.length = 32) {bs : List (List Byte)} (hbs : ∀ b ∈ bs, b.length ≤ 16)
    (s : State) :
    ∃ t, macByCommands k bs s = .next t ∧
      bytesLe t.tag.toList = leBytes (polyTag (bs.foldl (polyStep (polyR k)) 0) (polyS k)) 16 := by
  obtain ⟨u, hu, hpr, hps, hph⟩ := pinit_loaded hk s
  obtain ⟨v, hv, -, hvps, hvph⟩ := absorbAll_foldl hbs u
  have hrun : macByCommands k bs s = exec .pfin v := by rw [macByCommands, hu, andThen, hv, andThen]
  refine ⟨_, hrun.trans (exec_pfin v), ?_⟩
  rw [State.finish_tag, State.setTag_tag, bytesLe_limbs, hvph, hvps, hpr, hps, hph]

/-- Settles O31: the blocks given to PBLK are the blocks POLY1305 cuts the message into. -/
theorem primitiveCommandsComputePoly1305 : Obligations.PrimitiveCommandsComputePoly1305 := by
  intro k full last s hk hfull hlast
  have hblocks := blocksOf_flatten_append hfull hlast
  rw [poly1305, polyAccumulate_eq_foldl, hblocks]
  refine macByCommands_tag hk (fun b hb => ?_) s
  obtain hb | hb := List.mem_append.mp hb
  · exact Nat.le_of_eq (hfull b hb)
  · split at hb
    · contradiction
    · rw [List.mem_singleton.mp hb]
      exact Nat.le_of_lt hlast

end Sys2Proof.Machine
end

section
/-!
PROOFS. The AEAD commands: what their argument checks answer, the whole effect of each command past its checks, the round
trip, and that the result depends on the inputs alone (44_aead.md).
-/

namespace Sys2Proof.Machine

open Sys2Proof.Claims

/-! ## Byte strings in DMEM (20_memory.md R60) -/

theorem Memory.readBytes_congr {m n : Memory} {off len : Nat}
    (h : ∀ a, off ≤ a ∧ a < off + len → m.read a = n.read a) : m.readBytes off len = n.readBytes off len :=
  List.map_congr_left fun i hi => h (off + i) ⟨Nat.le_add_right _ _, Nat.add_lt_add_left (List.mem_range.mp hi) off⟩

theorem Memory.readBytes_add (m : Memory) (off j k : Nat) :
    m.readBytes off (j + k) = m.readBytes off j ++ m.readBytes (off + j) k := by
  simp [Memory.readBytes, List.range_add, Function.comp_def, Nat.add_assoc]

/-- A string written in two parts is read back part by part. -/
theorem Memory.readBytes_writeBytes_append {m : Memory} (hm : m.wf) (off : Nat) (x y : List Byte) :
    (m.writeBytes off (x ++ y)).readBytes off x.length = x ∧
    (m.writeBytes off (x ++ y)).readBytes (off + x.length) y.length = y := by
  have h := Memory.readBytes_writeBytes (x ++ y) m hm off
  rw [List.length_append, Memory.readBytes_add] at h
  exact List.append_inj h (Memory.length_readBytes _ _ _)

/-- A byte of a string read is a byte of DMEM. -/
theorem Memory.read_of_readBytes {m : Memory} {off n i : Nat} {b : List Byte} (h : m.readBytes off n = b) (hi : i < n) :
    m.read (off + i) = b.getD i 0 := by
  rw [← h, Memory.getD_readBytes _ _ _ _ hi]

/-- A write leaves every byte outside its range. -/
theorem Memory.read_writeBytes_outside {m : Memory} (hm : m.wf) {off a : Nat} {b : List Byte}
    (h : a < off ∨ off + b.length ≤ a) : (m.writeBytes off b).read a = m.read a := by
  rw [Memory.read_writeBytes b m hm, if_neg (by omega)]

/-! ## XOR of byte strings (44_aead.md R200) -/

theorem getD_xorBytes {p q : List Byte} {i : Nat} (hp : i < p.length) (hq : i < q.length) :
    (xorBytes p q).getD i 0 = p.getD i 0 ^^^ q.getD i 0 := by
  simp [xorBytes, hp, hq]

/-- The same keystream twice gives the text back. -/
theorem xorBytes_xorBytes_cancel {p q : List Byte} (h : p.length = q.length) : xorBytes (xorBytes p q) q = p := by
  refine List.ext_getElem (by simp [h]) fun i _ _ => ?_
  simp [xorBytes]

/-! ## The argument checks (44_aead.md R202, R204, R210) -/

theorem partlyOverlap_iff (s : State) (n : Nat) : PartlyOverlap s n ↔
    ¬(s.srcPtr = s.dstPtr ∨ disjoint s.srcPtr.toNat s.srcLen.toNat s.dstPtr.toNat n = true) := by
  rw [disjoint_iff, not_or, not_not]
  rfl

section
variable {s : State}

theorem encChecks_of_not_fit (h : ¬BuffersFit s (s.srcLen.toNat + 16)) : encChecks s = some .range := by
  rw [BuffersFit] at h
  rw [encChecks, if_pos (by omega)]

theorem encChecks_of_overlap (hfit : BuffersFit s (s.srcLen.toNat + 16)) (h : PartlyOverlap s (s.srcLen.toNat + 16)) :
    encChecks s = some .overlap := by
  rw [BuffersFit] at hfit
  rw [encChecks, if_neg (by omega), if_pos ((partlyOverlap_iff s _).mp h)]

theorem encChecks_none_iff_arguments : encChecks s = none ↔ EncArguments s := by
  rw [encChecks_none_iff, EncArguments, partlyOverlap_iff, not_not, BuffersFit, Nat.add_assoc]

/-- A failed check of AEAD_ENC is RANGE or OVERLAP, never LENGTH. -/
theorem encChecks_some {c : Completion} (h : encChecks s = some c) : c = .range ∨ c = .overlap := by
  by_cases hfit : BuffersFit s (s.srcLen.toNat + 16)
  · by_cases ho : PartlyOverlap s (s.srcLen.toNat + 16)
    · exact .inr (Option.some.inj (h.symm.trans (encChecks_of_overlap hfit ho)))
    · cases h.symm.trans (encChecks_none_iff_arguments.mpr ⟨hfit, ho⟩)
  · exact .inl (Option.some.inj (h.symm.trans (encChecks_of_not_fit hfit)))

theorem decChecks_of_short (h : s.srcLen.toNat < 16) : decChecks s = some .shortInput := by
  rw [decChecks, if_pos h]

theorem decChecks_of_not_fit (hlen : 16 ≤ s.srcLen.toNat) (h : ¬BuffersFit s (s.srcLen.toNat - 16)) :
    decChecks s = some .range := by
  rw [BuffersFit] at h
  rw [decChecks, if_neg (by omega), if_pos (by omega)]

theorem decChecks_of_overlap (hlen : 16 ≤ s.srcLen.toNat) (hfit : BuffersFit s (s.srcLen.toNat - 16))
    (h : PartlyOverlap s (s.srcLen.toNat - 16)) : decChecks s = some .overlap := by
  rw [BuffersFit] at hfit
  rw [decChecks, if_neg (by omega), if_neg (by omega), if_pos ((partlyOverlap_iff s _).mp h)]

theorem decChecks_none_iff_arguments : decChecks s = none ↔ DecArguments s := by
  rw [decChecks_none_iff, DecArguments, partlyOverlap_iff, not_not, BuffersFit]

/-- A failed check of AEAD_DEC is SHORT_INPUT, RANGE or OVERLAP, never LENGTH. -/
theorem decChecks_some {c : Completion} (h : decChecks s = some c) : c = .shortInput ∨ c = .range ∨ c = .overlap := by
  by_cases hlen : 16 ≤ s.srcLen.toNat
  · by_cases hfit : BuffersFit s (s.srcLen.toNat - 16)
    · by_cases ho : PartlyOverlap s (s.srcLen.toNat - 16)
      · exact .inr (.inr (Option.some.inj (h.symm.trans (decChecks_of_overlap hlen hfit ho))))
      · cases h.symm.trans (decChecks_none_iff_arguments.mpr ⟨hlen, hfit, ho⟩)
    · exact .inr (.inl (Option.some.inj (h.symm.trans (decChecks_of_not_fit hlen hfit))))
  · exact .inl (Option.some.inj (h.symm.trans (decChecks_of_short (Nat.lt_of_not_le hlen))))

/-! ## A failed check (60_exceptions.md R247) -/

theorem exec_aeadEnc_rejected {c : Completion} (h : encChecks s = some c) : exec .aeadEnc s = .next (s.finish c) := by
  show execAeadEnc s = _
  rw [execAeadEnc, h]

theorem exec_aeadDec_rejected {c : Completion} (h : decChecks s = some c) : exec .aeadDec s = .next (s.finish c) := by
  show execAeadDec s = _
  rw [execAeadDec, h]

/-- A command that only completes changes STATUS alone. -/
theorem changesStatusAlone {i : Instr} {c : Completion} (h : exec i s = .next (s.finish c)) :
    ∃ t, exec i s = .next t ∧ Ended t c ∧ t.authok = s.authok ∧ KeepsAllButStatus s t :=
  ⟨_, h, ended_finish s c, rfl, keepsAllButStatus_finish s c⟩

end

/-! ## What both AEAD commands leave (44_aead.md R207, R209) -/

theorem exec_aead_keeps {i : Instr} {s t : State} (hi : i = .aeadEnc ∨ i = .aeadDec) (h : exec i s = .next t) :
    KeepsHostSide s t ∧ KeepsInputs s t ∧ KeepsCounter s t := by
  have hw := exec_writesOnly h
  obtain rfl | rfl := hi <;>
    exact ⟨hw.hostSide, ⟨hw.key (by decide), hw.nonce (by decide), hw.ptag (by decide)⟩, hw.counter (by decide)⟩

theorem datapathZero_zeroiseDatapath_finish (s : State) (c : Completion) :
    DatapathZero (s.zeroiseDatapath.finish c) := by
  simp [DatapathZero]

/-! ## AEAD_ENC past its checks (44_aead.md R200, R203) -/

/-- The ciphertext AEAD_ENC writes. -/
def encCiphertext (s : State) : List Byte := xorBytes (src s) (aeadStream s.key s.nonce s.srcLen.toNat)

/-- The tag AEAD_ENC writes after it. -/
def encTag (s : State) : List Byte := expectedTag s (encCiphertext s)

/-- The state AEAD_ENC leaves. -/
def encDone (s : State) : State :=
  ((((s.setDmem (s.dmem.writeBytes s.dstPtr.toNat (encCiphertext s ++ encTag s))).setTag (wordsLe 4 (encTag s))).setOutLen
    (s.srcLen + 16)).zeroiseDatapath).finish .ok

@[simp] theorem encDone_report (s : State) : (encDone s).report = .ok := by simp [encDone]

@[simp] theorem encDone_dmem (s : State) :
    (encDone s).dmem = s.dmem.writeBytes s.dstPtr.toNat (encCiphertext s ++ encTag s) := by simp [encDone]

@[simp] theorem encDone_tag (s : State) : (encDone s).tag = wordsLe 4 (encTag s) := by simp [encDone]

@[simp] theorem encDone_outLen (s : State) : (encDone s).outLen = s.srcLen + 16 := by simp [encDone]

@[simp] theorem length_src (s : State) : (src s).length = s.srcLen.toNat := Memory.length_readBytes _ _ _

@[simp] theorem length_encCiphertext (s : State) : (encCiphertext s).length = s.srcLen.toNat := by simp [encCiphertext]

@[simp] theorem length_encTag (s : State) : (encTag s).length = 16 := length_poly1305 _ _

theorem xenc_eq (s : State) : xenc s.key s.nonce (aadBytes s) (srcBytes s) = encCiphertext s ++ encTag s := by
  rw [xenc, Memory.length_readBytes, encTag, expectedTag_eq]
  rfl

section
variable {s : State}

theorem exec_aeadEnc_done (h : EncArguments s) : exec .aeadEnc s = .next (encDone s) := by
  obtain ⟨c, hc, -⟩ | ⟨-, out, hout, hexec⟩ := execAeadEnc_cases s
  · cases hc.symm.trans (encChecks_none_iff_arguments.mpr h)
  · have hdrop : (encCiphertext s ++ encTag s).drop s.srcLen.toNat = encTag s :=
      List.drop_left' (length_encCiphertext s)
    rw [hout, xenc_eq, hdrop] at hexec
    exact hexec

theorem encDone_readBytes_ciphertext (hm : s.dmem.wf) :
    (encDone s).dmem.readBytes s.dstPtr.toNat s.srcLen.toNat = encCiphertext s := by
  have h := (Memory.readBytes_writeBytes_append hm s.dstPtr.toNat (encCiphertext s) (encTag s)).1
  rwa [length_encCiphertext, ← encDone_dmem] at h

theorem encDone_readBytes_tag (hm : s.dmem.wf) :
    (encDone s).dmem.readBytes (s.dstPtr.toNat + s.srcLen.toNat) 16 = encTag s := by
  have h := (Memory.readBytes_writeBytes_append hm s.dstPtr.toNat (encCiphertext s) (encTag s)).2
  rwa [length_encCiphertext, length_encTag, ← encDone_dmem] at h

theorem encDone_readBytes (hm : s.dmem.wf) :
    (encDone s).dmem.readBytes s.dstPtr.toNat (s.srcLen.toNat + 16) = encCiphertext s ++ encTag s := by
  rw [Memory.readBytes_add, encDone_readBytes_ciphertext hm, encDone_readBytes_tag hm]

/-- OUT_LEN does not wrap, since the destination fits (log entry 22). -/
theorem toNat_srcLen_add_tag (h : EncArguments s) : (s.srcLen + 16).toNat = s.srcLen.toNat + 16 := by
  obtain ⟨⟨-, -, hdst⟩, -⟩ := h
  have hd : s.dmemBytes < 2 ^ 32 := s.dmemsz.isLt
  bv_omega

/-- A byte of the ciphertext, through the keystream the primitive commands generate. -/
theorem getD_encCiphertext {i : Nat} (hi : i < s.srcLen.toNat) :
    (encCiphertext s).getD i 0 = s.dmem.read (s.srcPtr.toNat + i) ^^^ keystreamByte s i := by
  rw [encCiphertext, getD_xorBytes (by simpa) (by simpa), src, Memory.getD_readBytes _ _ _ _ hi, keystreamByte_eq s _ i hi]

end

/-! ## AEAD_DEC past its checks (44_aead.md R201, R205, R206) -/

/-- The plaintext AEAD_DEC writes on a match. -/
def decPlaintext (s : State) : List Byte := xorBytes (decCiphertext s) (aeadStream s.key s.nonce (s.srcLen.toNat - 16))

/-- The state AEAD_DEC leaves on a match. -/
def decDone (s : State) : State :=
  (((((s.setDmem (s.dmem.writeBytes s.dstPtr.toNat (decPlaintext s))).setTag (Vector.replicate 4 0)).setOutLen
    (s.srcLen - 16)).setAuthok true).zeroiseDatapath).finish .ok

/-- The state AEAD_DEC leaves on a mismatch. -/
def decFailed (s : State) : State :=
  (((s.setTag (Vector.replicate 4 0)).setOutLen 0).zeroiseDatapath).finish .authenticationFailure

@[simp] theorem decDone_report (s : State) : (decDone s).report = .ok := by simp [decDone]

@[simp] theorem decDone_dmem (s : State) : (decDone s).dmem = s.dmem.writeBytes s.dstPtr.toNat (decPlaintext s) := by
  simp [decDone]

@[simp] theorem decDone_tag (s : State) : (decDone s).tag = Vector.replicate 4 0 := by simp [decDone]

@[simp] theorem decDone_outLen (s : State) : (decDone s).outLen = s.srcLen - 16 := by simp [decDone]

@[simp] theorem decDone_authok (s : State) : (decDone s).authok = true := by simp [decDone]

@[simp] theorem decFailed_report (s : State) : (decFailed s).report = .authenticationFailure := by simp [decFailed]

@[simp] theorem decFailed_dmem (s : State) : (decFailed s).dmem = s.dmem := by simp [decFailed]

@[simp] theorem decFailed_tag (s : State) : (decFailed s).tag = Vector.replicate 4 0 := by simp [decFailed]

@[simp] theorem decFailed_outLen (s : State) : (decFailed s).outLen = 0 := by simp [decFailed]

@[simp] theorem decFailed_authok (s : State) : (decFailed s).authok = s.authok := by simp [decFailed]

@[simp] theorem length_decCiphertext (s : State) : (decCiphertext s).length = s.srcLen.toNat - 16 :=
  Memory.length_readBytes _ _ _

@[simp] theorem length_decPlaintext (s : State) : (decPlaintext s).length = s.srcLen.toNat - 16 := by simp [decPlaintext]

section
variable {s : State}

/-- AEAD_DEC's source is a ciphertext and its tag. -/
theorem src_eq_append (h : 16 ≤ s.srcLen.toNat) : src s = decCiphertext s ++ decProvidedTag s := by
  rw [src, decCiphertext, decProvidedTag, ← Memory.readBytes_add, Nat.sub_add_cancel h]

theorem xdec_eq (h : 16 ≤ s.srcLen.toNat) :
    xdec s.key s.nonce (aadBytes s) (srcBytes s) =
      if expectedTag s (decCiphertext s) = decProvidedTag s then some (decPlaintext s) else none := by
  have hsrc : srcBytes s = decCiphertext s ++ decProvidedTag s := src_eq_append h
  rw [xdec, Memory.length_readBytes, hsrc, List.take_left' (length_decCiphertext s),
    List.drop_left' (length_decCiphertext s), length_decCiphertext, expectedTag_eq]
  rfl

theorem exec_aeadDec_match (h : DecArguments s) (htag : expectedTag s (decCiphertext s) = decProvidedTag s) :
    exec .aeadDec s = .next (decDone s) := by
  have hx := xdec_eq h.1
  rw [if_pos htag] at hx
  obtain ⟨c, hc, -⟩ | ⟨-, hnone, -⟩ | ⟨-, p, hp, -, hexec⟩ := execAeadDec_cases s
  · cases hc.symm.trans (decChecks_none_iff_arguments.mpr h)
  · cases hnone.symm.trans hx
  · cases hp.symm.trans hx
    exact hexec

theorem exec_aeadDec_mismatch (h : DecArguments s) (htag : expectedTag s (decCiphertext s) ≠ decProvidedTag s) :
    exec .aeadDec s = .next (decFailed s) := by
  have hx := xdec_eq h.1
  rw [if_neg htag] at hx
  obtain ⟨c, hc, -⟩ | ⟨-, -, hexec⟩ | ⟨-, p, hp, -⟩ := execAeadDec_cases s
  · cases hc.symm.trans (decChecks_none_iff_arguments.mpr h)
  · exact hexec
  · cases hp.symm.trans hx

theorem decDone_readBytes (hm : s.dmem.wf) :
    (decDone s).dmem.readBytes s.dstPtr.toNat (s.srcLen.toNat - 16) = decPlaintext s := by
  have h := Memory.readBytes_writeBytes (decPlaintext s) s.dmem hm s.dstPtr.toNat
  rwa [length_decPlaintext, ← decDone_dmem] at h

theorem toNat_srcLen_sub_tag (h : 16 ≤ s.srcLen.toNat) : (s.srcLen - 16).toNat = s.srcLen.toNat - 16 := by
  bv_omega

/-- A byte of the plaintext, through the keystream the primitive commands generate. -/
theorem getD_decPlaintext {i : Nat} (hi : i < s.srcLen.toNat - 16) :
    (decPlaintext s).getD i 0 = s.dmem.read (s.srcPtr.toNat + i) ^^^ keystreamByte s i := by
  rw [decPlaintext, getD_xorBytes (by simpa) (by simpa), decCiphertext, Memory.getD_readBytes _ _ _ _ hi,
    keystreamByte_eq s _ i hi]

end

/-! ## Equal inputs (44_aead.md R211, R213) -/

section
variable {s u : State}

theorem expectedTag_congr (hkey : u.key = s.key) (hnonce : u.nonce = s.nonce) (haad : aad u = aad s) (x : List Byte) :
    expectedTag u x = expectedTag s x := by
  rw [expectedTag_eq, expectedTag_eq, hkey, hnonce, haad]

theorem srcLen_eq_of_src (h : src u = src s) : u.srcLen = s.srcLen :=
  BitVec.eq_of_toNat_eq (by rw [← length_src u, h, length_src])

theorem encCiphertext_congr (hkey : u.key = s.key) (hnonce : u.nonce = s.nonce) (hsrc : src u = src s) :
    encCiphertext u = encCiphertext s := by
  rw [encCiphertext, encCiphertext, hkey, hnonce, hsrc, srcLen_eq_of_src hsrc]

theorem encTag_congr (hkey : u.key = s.key) (hnonce : u.nonce = s.nonce) (haad : aad u = aad s) (hsrc : src u = src s) :
    encTag u = encTag s := by
  rw [encTag, encTag, encCiphertext_congr hkey hnonce hsrc, expectedTag_congr hkey hnonce haad]

/-- AEAD_ENC of equal inputs, wherever the buffers lie. -/
theorem encDone_congr (hs : s.dmem.wf) (hu : u.dmem.wf) (hkey : u.key = s.key) (hnonce : u.nonce = s.nonce)
    (haad : aad u = aad s) (hsrc : src u = src s) :
    (encDone u).tag = (encDone s).tag ∧ (encDone u).outLen = (encDone s).outLen ∧
    (encDone u).dmem.readBytes u.dstPtr.toNat (u.srcLen.toNat + 16) =
      (encDone s).dmem.readBytes s.dstPtr.toNat (s.srcLen.toNat + 16) := by
  have htag := encTag_congr hkey hnonce haad hsrc
  refine ⟨by simp [htag], by simp [srcLen_eq_of_src hsrc], ?_⟩
  rw [encDone_readBytes hu, encDone_readBytes hs, encCiphertext_congr hkey hnonce hsrc, htag]

/-- A source of equal bytes has an equal ciphertext part and an equal tag part. -/
theorem decSource_congr (hlen : 16 ≤ s.srcLen.toNat) (h : src u = src s) :
    decCiphertext u = decCiphertext s ∧ decProvidedTag u = decProvidedTag s := by
  have hl := srcLen_eq_of_src h
  rw [src_eq_append hlen, src_eq_append (by rwa [hl])] at h
  exact List.append_inj h (by simp [hl])

theorem encChecks_congr (h : SameAeadInputs s u) : encChecks u = encChecks s := by
  obtain ⟨-, -, hap, hal, hsp, hsl, hdp, hsz, -, -⟩ := h
  rw [encChecks, encChecks, State.dmemBytes, State.dmemBytes, hap, hal, hsp, hsl, hdp, hsz]

theorem decChecks_congr (h : SameAeadInputs s u) : decChecks u = decChecks s := by
  obtain ⟨-, -, hap, hal, hsp, hsl, hdp, hsz, -, -⟩ := h
  rw [decChecks, decChecks, State.dmemBytes, State.dmemBytes, hap, hal, hsp, hsl, hdp, hsz]

theorem aad_congr (h : SameAeadInputs s u) : aad u = aad s := by
  obtain ⟨-, -, hap, hal, -, -, -, -, haad, -⟩ := h
  rw [aad, aad, hap, hal]
  exact Memory.readBytes_congr haad

theorem src_congr (h : SameAeadInputs s u) : src u = src s := by
  obtain ⟨-, -, -, -, hsp, hsl, -, -, -, hsrc⟩ := h
  rw [src, src, hsp, hsl]
  exact Memory.readBytes_congr hsrc

/-- AEAD_ENC of shared inputs: the checks answer alike, and past them the outputs are equal. -/
theorem aeadEnc_dependsOnInputs (hs : s.dmem.wf) (hu : u.dmem.wf) (h : SameAeadInputs s u) :
    ∃ t v, exec .aeadEnc s = .next t ∧ exec .aeadEnc u = .next v ∧ t.report = v.report ∧
      (t.report = .ok → v.tag = t.tag ∧ v.outLen = t.outLen ∧
        ∀ i, i < s.srcLen.toNat + 16 → v.dmem.read (s.dstPtr.toNat + i) = t.dmem.read (s.dstPtr.toNat + i)) := by
  have hchecks := encChecks_congr h
  cases hc : encChecks s with
  | some c =>
    refine ⟨_, _, exec_aeadEnc_rejected hc, exec_aeadEnc_rejected (hchecks.trans hc), rfl, fun hok => ?_⟩
    obtain rfl | rfl := encChecks_some hc <;> cases hok
  | none =>
    refine ⟨_, _, exec_aeadEnc_done (encChecks_none_iff_arguments.mp hc),
      exec_aeadEnc_done (encChecks_none_iff_arguments.mp (hchecks.trans hc)), by simp, fun _ => ?_⟩
    have haad := aad_congr h
    have hsrc := src_congr h
    obtain ⟨hkey, hnonce, -, -, -, hsl, hdp, -⟩ := h
    obtain ⟨htag, hout, hbytes⟩ := encDone_congr hs hu hkey hnonce haad hsrc
    rw [hdp, hsl] at hbytes
    exact ⟨htag, hout, fun i hi => by rw [Memory.read_of_readBytes hbytes hi, Memory.getD_readBytes _ _ _ _ hi]⟩

/-- AEAD_DEC of shared inputs: also the tag comparison answers alike. -/
theorem aeadDec_dependsOnInputs (hs : s.dmem.wf) (hu : u.dmem.wf) (h : SameAeadInputs s u) :
    ∃ t v, exec .aeadDec s = .next t ∧ exec .aeadDec u = .next v ∧ t.report = v.report ∧
      (t.report = .ok ∨ t.report = .authenticationFailure → v.tag = t.tag ∧ v.outLen = t.outLen) ∧
      (t.report = .ok → ∀ i, i < s.srcLen.toNat - 16 →
        v.dmem.read (s.dstPtr.toNat + i) = t.dmem.read (s.dstPtr.toNat + i)) := by
  have hchecks := decChecks_congr h
  cases hc : decChecks s with
  | some c =>
    refine ⟨_, _, exec_aeadDec_rejected hc, exec_aeadDec_rejected (hchecks.trans hc), rfl, fun hcode => ?_, fun hok => ?_⟩
    · obtain rfl | rfl | rfl := decChecks_some hc <;> obtain hok | hfail := hcode <;> contradiction
    · obtain rfl | rfl | rfl := decChecks_some hc <;> cases hok
  | none =>
    have hargs := decChecks_none_iff_arguments.mp hc
    have hargs' := decChecks_none_iff_arguments.mp (hchecks.trans hc)
    have haad := aad_congr h
    obtain ⟨hct, hprov⟩ := decSource_congr hargs.1 (src_congr h)
    obtain ⟨hkey, hnonce, -, -, -, hsl, hdp, -⟩ := h
    have hexp : expectedTag u (decCiphertext u) = expectedTag s (decCiphertext s) := by
      rw [hct, expectedTag_congr hkey hnonce haad]
    by_cases htag : expectedTag s (decCiphertext s) = decProvidedTag s
    · have htag' : expectedTag u (decCiphertext u) = decProvidedTag u := by rw [hexp, hprov, htag]
      have hplain : decPlaintext u = decPlaintext s := by rw [decPlaintext, decPlaintext, hct, hkey, hnonce, hsl]
      refine ⟨_, _, exec_aeadDec_match hargs htag, exec_aeadDec_match hargs' htag', by simp,
        fun _ => by simp [hsl], fun _ i hi => ?_⟩
      have hbytes := (decDone_readBytes hu).trans hplain
      rw [hdp, hsl] at hbytes
      rw [Memory.read_of_readBytes hbytes hi, Memory.read_of_readBytes (decDone_readBytes hs) hi]
    · have htag' : expectedTag u (decCiphertext u) ≠ decProvidedTag u := by rwa [hexp, hprov]
      exact ⟨_, _, exec_aeadDec_mismatch hargs htag, exec_aeadDec_mismatch hargs' htag', by simp, by simp, by simp⟩

end

/-! ## The obligations (44_aead.md) -/

/-- Settles O32, check by check. -/
theorem aeadEncRejectsBadArguments : Obligations.AeadEncRejectsBadArguments := fun _ =>
  ⟨fun h => changesStatusAlone (exec_aeadEnc_rejected (encChecks_of_not_fit h)),
    fun hfit h => changesStatusAlone (exec_aeadEnc_rejected (encChecks_of_overlap hfit h)),
    fun h => ⟨_, exec_aeadEnc_done h, ended_finish _ _⟩⟩

/-- Settles O33, check by check, and for both results of the tag comparison. -/
theorem aeadDecRejectsBadArguments : Obligations.AeadDecRejectsBadArguments := by
  intro s
  refine ⟨fun h => changesStatusAlone (exec_aeadDec_rejected (decChecks_of_short h)),
    fun hlen h => changesStatusAlone (exec_aeadDec_rejected (decChecks_of_not_fit hlen h)),
    fun hlen hfit h => changesStatusAlone (exec_aeadDec_rejected (decChecks_of_overlap hlen hfit h)), fun h => ?_⟩
  by_cases htag : expectedTag s (decCiphertext s) = decProvidedTag s
  · exact ⟨_, exec_aeadDec_match h htag, .inl (ended_finish _ _)⟩
  · exact ⟨_, exec_aeadDec_mismatch h htag, .inr (ended_finish _ _)⟩

/-- Settles O34: the destination holds the ciphertext and its tag, read back part by part. -/
theorem aeadEncWritesCiphertextAndTag : Obligations.AeadEncWritesCiphertextAndTag := by
  intro s hm h
  have hexec := exec_aeadEnc_done h
  have hct := encDone_readBytes_ciphertext hm
  have htag := encDone_readBytes_tag hm
  obtain ⟨hside, hinputs, hcounter⟩ := exec_aead_keeps (.inl rfl) hexec
  refine ⟨_, hexec, ended_finish _ _, fun i hi => ?_, ?_, fun a ha => ?_, ?_, ?_,
    datapathZero_zeroiseDatapath_finish _ _, hside, hinputs, hcounter, (exec_writesOnly hexec).authok nofun nofun⟩
  · rw [Memory.read_of_readBytes hct hi, getD_encCiphertext hi]
  · rw [hct, htag, encTag]
  · rw [encDone_dmem, Memory.read_writeBytes_outside hm (by simpa [Nat.add_assoc] using ha)]
  · rw [htag, encDone_tag, bytesLe_wordsLe 4 _ (length_encTag s)]
  · rw [encDone_outLen, toNat_srcLen_add_tag h]

/-- Settles O35: the destination holds the plaintext and nothing else changed in DMEM. -/
theorem aeadDecReleasesThePlaintextOnAMatch : Obligations.AeadDecReleasesThePlaintextOnAMatch := by
  intro s hm h htag
  have hexec := exec_aeadDec_match h htag
  refine ⟨_, hexec, ended_finish _ _, decDone_authok s, fun i hi => ?_, fun a ha => ?_, ?_, decDone_tag s,
    datapathZero_zeroiseDatapath_finish _ _, exec_aead_keeps (.inr rfl) hexec⟩
  · rw [Memory.read_of_readBytes (decDone_readBytes hm) hi, getD_decPlaintext hi]
  · rw [decDone_dmem, Memory.read_writeBytes_outside hm (by simpa using ha)]
  · rw [decDone_outLen, toNat_srcLen_sub_tag h.1]

/-- Settles O36: a mismatch leaves DMEM as it was and clears the results. -/
theorem aeadDecReleasesNothingOnAMismatch : Obligations.AeadDecReleasesNothingOnAMismatch := by
  intro s h htag
  have hexec := exec_aeadDec_mismatch h htag
  exact ⟨_, hexec, ended_finish _ _, decFailed_authok s, fun _ => by rw [decFailed_dmem], decFailed_outLen s,
    decFailed_tag s, datapathZero_zeroiseDatapath_finish _ _, exec_aead_keeps (.inr rfl) hexec⟩

/-- Settles O37: the source of the decryption splits into the ciphertext and the tag just written, so the tags match, and
the keystream cancels. -/
theorem aeadDecryptsWhatItEncrypted : Obligations.AeadDecryptsWhatItEncrypted := by
  intro s t u hs henc hexec hu hkey hnonce haad _ hlen hsrc hdec
  cases hexec.symm.trans (exec_aeadEnc_done henc)
  have hplain : u.srcLen.toNat - 16 = s.srcLen.toNat := by omega
  rw [encDone_readBytes hs, src_eq_append hdec.1] at hsrc
  obtain ⟨hct, htag⟩ := List.append_inj hsrc (by simp [hplain])
  have hmatch : expectedTag u (decCiphertext u) = decProvidedTag u := by
    rw [hct, htag, expectedTag_congr hkey hnonce haad, encTag]
  refine ⟨_, exec_aeadDec_match hdec hmatch, ended_finish _ _, decDone_authok u, ?_, ?_⟩
  · rw [decDone_outLen, toNat_srcLen_sub_tag hdec.1, hplain]
  · have hread := decDone_readBytes hu
    rw [decPlaintext, hct, hkey, hnonce, hplain, encCiphertext, xorBytes_xorBytes_cancel (by simp)] at hread
    exact hread

/-- Settles O38, command by command. -/
theorem aeadDependsOnItsInputsAlone : Obligations.AeadDependsOnItsInputsAlone := fun _ _ hs hu h =>
  ⟨aeadEnc_dependsOnInputs hs hu h, aeadDec_dependsOnInputs hs hu h⟩

/-- Settles O39, by the congruence of the state AEAD_ENC leaves. -/
theorem equalInputsEncryptEqually : Obligations.EqualInputsEncryptEqually :=
  fun _ _ hs hu hargs hargs' hkey hnonce haad hsrc =>
    ⟨_, _, exec_aeadEnc_done hargs, exec_aeadEnc_done hargs', encDone_congr hs hu hkey hnonce haad hsrc⟩

end Sys2Proof.Machine
end

section
/-!
PROOFS. The system commands: NOP changes STATUS alone, and ZEROIZE clears the key material and, with DM, DMEM
(45_system.md).
-/

namespace Sys2Proof.Machine

open Sys2Proof.Claims

/-- Settles O13: NOP is the completion and nothing else. -/
theorem nopOnlyCompletes : Obligations.NopOnlyCompletes := fun s => changesStatusAlone (exec_nop s)

/-! ## ZEROIZE (45_system.md R231) -/

@[simp] theorem Memory.read_zeroed (a : Nat) : Memory.zeroed.read a = 0 := rfl

/-- DMEM after ZEROIZE. -/
def zeroizeDmem (dm : Bool) (m : Memory) : Memory := if dm then Memory.zeroed else m

@[simp] theorem zeroizeDmem_true (m : Memory) : zeroizeDmem true m = Memory.zeroed := rfl

@[simp] theorem zeroizeDmem_false (m : Memory) : zeroizeDmem false m = m := rfl

/-- Both forms of ZEROIZE in one equation. -/
theorem exec_zeroize (dm : Bool) (s : State) :
    exec (.zeroize dm) s = .next ((s.zeroiseKeys.setDmem (zeroizeDmem dm s.dmem)).finish .ok) := by
  cases dm with
  | true => exact exec_zeroize_true s
  | false => exact exec_zeroize_false s

theorem datapathZero_zeroiseKeys_finish (s : State) (m : Memory) (c : Completion) :
    DatapathZero ((s.zeroiseKeys.setDmem m).finish c) := by
  simp [DatapathZero]

/-- Settles O14: the cleared registers by the state ZEROIZE leaves, the kept ones because it is not among their writers. -/
theorem zeroizeClearsAllKeyMaterial : Obligations.ZeroizeClearsAllKeyMaterial := by
  intro dm s
  have hexec := exec_zeroize dm s
  have hkeep := exec_writesOnly hexec
  refine ⟨_, hexec, ended_finish _ _, rfl, rfl, rfl, rfl, datapathZero_zeroiseKeys_finish _ _ _, rfl, rfl, ?_, ?_,
    hkeep.hostSide, hkeep.outLen (by simp [registersWritten]), hkeep.authok nofun nofun⟩
  · rintro rfl a
    simp
  · rintro rfl a
    rw [hkeep.dmem nofun nofun nofun]

end Sys2Proof.Machine
end

section
/-!
PROOFS. How every command ends: its completion codes, what a failing command leaves, words that are no command, and the
interrupt that follows a completion (60_exceptions.md).
-/

namespace Sys2Proof.Machine

open Sys2Proof.Claims

variable {i : Instr} {s t : State}

/-! ## The ends of a command (60_exceptions.md R240 to R248) -/

/-- How command `i` can end from `s`: always by `finish`, with the state of each failure written out whole. -/
inductive CommandEnd (i : Instr) (s : State) : State → Prop
  /-- Success, whatever the command has written. -/
  | done (u : State) : CommandEnd i s (u.finish .ok)
  /-- A failure that writes STATUS alone: an argument check, or the counter exhausted. -/
  | rejected (c : Completion) (hc : c ∈ codesOf i) (hlen : c ≠ .length) : CommandEnd i s (s.finish c)
  /-- PVER of different tags. -/
  | tagsDiffer (hi : i = .pver) : CommandEnd i s ((s.setAuthok false).finish .authenticationFailure)
  /-- AEAD_DEC of different tags. -/
  | notReleased (hi : i = .aeadDec) : CommandEnd i s (decFailed s)

/-- Every command completes, in one of these ways. -/
theorem exec_ends (i : Instr) (s : State) : ∃ t, exec i s = .next t ∧ CommandEnd i s t := by
  cases i with
  | ksblk ksel nsel inc =>
    cases hx : s.ctrexh with
    | true => exact ⟨_, exec_ksblk_exhausted ksel nsel inc hx, .rejected _ (by simp [codesOf]) nofun⟩
    | false => exact ⟨_, exec_ksblk_block ksel nsel inc hx, .done _⟩
  | pver =>
    by_cases htag : s.tag = s.ptag
    · exact ⟨_, exec_pver_match htag, .done _⟩
    · exact ⟨_, exec_pver_mismatch htag, .tagsDiffer rfl⟩
  | aeadEnc =>
    cases hc : encChecks s with
    | some c =>
      refine ⟨_, exec_aeadEnc_rejected hc, .rejected c ?_ ?_⟩ <;>
        obtain rfl | rfl := encChecks_some hc <;> decide
    | none => exact ⟨_, exec_aeadEnc_done (encChecks_none_iff_arguments.mp hc), .done _⟩
  | aeadDec =>
    cases hc : decChecks s with
    | some c =>
      refine ⟨_, exec_aeadDec_rejected hc, .rejected c ?_ ?_⟩ <;>
        obtain rfl | rfl | rfl := decChecks_some hc <;> decide
    | none =>
      have hargs := decChecks_none_iff_arguments.mp hc
      by_cases htag : expectedTag s (decCiphertext s) = decProvidedTag s
      · exact ⟨_, exec_aeadDec_match hargs htag, .done _⟩
      · exact ⟨_, exec_aeadDec_mismatch hargs htag, .notReleased rfl⟩
  | zeroize dm => exact ⟨_, exec_zeroize dm s, .done _⟩
  | _ => exact ⟨_, rfl, .done _⟩

theorem commandEnd_of_exec (h : exec i s = .next t) : CommandEnd i s t := by
  obtain ⟨u, hu, hend⟩ := exec_ends i s
  cases h.symm.trans hu
  exact hend

theorem ok_mem_codesOf (i : Instr) : .ok ∈ codesOf i := by
  cases i <;> exact List.mem_cons_self

/-- A command ends with a code of its row in 60_exceptions.md R246, and not with LENGTH. -/
theorem CommandEnd.ended (h : CommandEnd i s t) : ∃ c ∈ codesOf i, c ≠ .length ∧ Ended t c := by
  cases h with
  | done u => exact ⟨_, ok_mem_codesOf i, nofun, ended_finish _ _⟩
  | rejected c hc hlen => exact ⟨c, hc, hlen, ended_finish _ _⟩
  | tagsDiffer hi => exact ⟨.authenticationFailure, by simp [hi, codesOf], nofun, ended_finish _ _⟩
  | notReleased hi => exact ⟨.authenticationFailure, by simp [hi, codesOf], nofun, ended_finish _ _⟩

/-- Settles O40, by the ends of a command. -/
theorem commandsProduceOnlyTheirCodes : Obligations.CommandsProduceOnlyTheirCodes := by
  intro i s
  obtain ⟨t, h, hend⟩ := exec_ends i s
  obtain ⟨c, hc, hlen, hbusy, hdone, rfl⟩ := hend.ended
  exact ⟨t, h, hbusy, hdone, hc, hlen⟩

/-- Settles O41: of the three failing ends, two write STATUS alone and the third is AEAD_DEC's mismatch. -/
theorem failuresArePrecise : Obligations.FailuresArePrecise := by
  intro i s t h hfail
  cases commandEnd_of_exec h with
  | done u => exact absurd rfl hfail
  | rejected c _ _ => exact .inl ⟨keepsAllButStatus_finish s c, .inr rfl⟩
  | tagsDiffer hi => exact .inl ⟨keepsAllButStatus_setAuthok_finish s _ _, .inl hi⟩
  | notReleased hi =>
    obtain ⟨hside, hinputs, hcounter⟩ := exec_aead_keeps (.inr hi) h
    exact .inr ⟨hi, decFailed_report s, hside, hinputs, hcounter, fun _ => by rw [decFailed_dmem], decFailed_authok s,
      decFailed_tag s, decFailed_outLen s, datapathZero_zeroiseDatapath_finish _ _⟩

/-! ## Every step goes on (60_exceptions.md R240) -/

theorem engineStep_goesOn (s : State) : goesOn (engineStep s) := by
  obtain ⟨-, he⟩ | ⟨-, -, he⟩ | ⟨-, -, he⟩ | ⟨-, i, -, he⟩ := engineStep_cases s
  · exact ⟨_, he⟩
  · exact ⟨_, he⟩
  · exact ⟨_, he⟩
  · obtain ⟨t, h, -⟩ := exec_ends i s
    exact ⟨t, he.trans h⟩

/-- Settles O9: the engine's turn goes on, and the environment's events answer a state. -/
theorem everyStepGoesOn : Obligations.EveryStepGoesOn := by
  intro s
  obtain (⟨-, he⟩ | ⟨es, -, he⟩) | ⟨off, es, -, he⟩ | ⟨off, v, strb, es, -, he⟩ | ⟨es, -, he⟩ := step_cases s
  · exact he ▸ engineStep_goesOn s
  · exact he ▸ engineStep_goesOn _
  · exact ⟨_, he⟩
  · exact ⟨_, he⟩
  · exact ⟨_, he⟩

/-! ## Words that are no command (60_exceptions.md R245) -/

theorem engineStep_unassigned (hb : s.busy = true) (hd : decode s.cmd = .unassigned) :
    engineStep s = .next (s.finish .unassigned) := by
  simp only [engineStep, State.inFlight, hb, if_true, hd, rejectUnassigned]

theorem engineStep_reservedBit (hb : s.busy = true) (hd : decode s.cmd = .reservedBit) :
    engineStep s = .next (s.finish .reservedBit) := by
  simp only [engineStep, State.inFlight, hb, if_true, hd, rejectReservedBit]

/-- CAUSE and ERR side by side in STATUS (10_state.md R23). -/
theorem statusWord_code (s : State) : (statusWord s).extractLsb' 8 8 = s.report.cause ++ s.report.err := by
  rw [← statusWord_cause, ← statusWord_err]
  exact (BitVec.extractLsb'_append_extractLsb'_eq_extractLsb' (start₁ := 8) (len₁ := 4) (len₂ := 4) rfl).symm

/-- A rejected word is reported in STATUS, and nothing else changes. -/
theorem rejection_changesStatusAlone {c : Completion} (h : engineStep s = .next (s.finish c)) :
    ∃ t, engineStep s = .next t ∧ Ended t c ∧ t.authok = s.authok ∧ KeepsAllButStatus s t ∧
      (statusWord t).extractLsb' 8 8 = c.cause ++ c.err :=
  ⟨_, h, ended_finish s c, rfl, keepsAllButStatus_finish s c, statusWord_code _⟩

/-- Settles O8, for both kinds of words that are no command. -/
theorem illegalWordChangesStatusAlone : Obligations.IllegalWordChangesStatusAlone := fun _ hb =>
  ⟨fun hd => rejection_changesStatusAlone (engineStep_unassigned hb hd),
    fun hd => rejection_changesStatusAlone (engineStep_reservedBit hb hd)⟩

/-! ## The interrupt (60_exceptions.md R251) -/

theorem irq_iff (s : State) : irq s = true ↔ s.ie = true ∧ s.done = true := by
  simp [irq]

theorem irq_of_not_done (h : s.done = false) : irq s = false := by
  simp [irq, h]

/-- The engine's turn sets DONE at the end of whatever word is in flight (70_reset_and_hazards.md R276). -/
theorem engineStep_done (hb : s.busy = true) (h : engineStep s = .next t) : t.done = true := by
  obtain ⟨hidle, -⟩ | ⟨-, c, rfl⟩ | ⟨-, i, -, he⟩ := engineStep_next h
  · cases hb.symm.trans hidle
  · rfl
  · obtain ⟨c, -, -, -, hdone, -⟩ := (commandEnd_of_exec he).ended
    exact hdone

theorem softReset_done (s : State) : (softReset s).done = false := by
  obtain ⟨-, h⟩ | ⟨-, h⟩ := softReset_cases s <;> rw [h] <;> rfl

/-- Settles O45: a completion sets DONE and keeps IE, and the other operations leave DONE clear. -/
theorem interruptFollowsCompletion : Obligations.InterruptFollowsCompletion := by
  intro s
  refine ⟨irq_iff s, fun hb => ?_, fun w => irq_of_not_done (State.accept_done s w), fun v hv => irq_of_not_done ?_,
    irq_of_not_done (softReset_done s), irq_of_not_done rfl⟩
  · obtain ⟨t, h⟩ := engineStep_goesOn s
    obtain ⟨-, -, hie, -⟩ := engineStep_keepsHostSide h
    refine ⟨t, h, ?_⟩
    rw [irq, engineStep_done hb h, hie, Bool.and_true]
  · simp [statusWrite, hv]

end Sys2Proof.Machine
end

section
/-!
PROOFS. The life of a command beside the host's accesses: it starts by a write of CMD, the accesses while BUSY leave it in
flight, and it completes (70_reset_and_hazards.md R275 to R280).
-/

namespace Sys2Proof.Machine

open Sys2Proof.Claims

variable {s t : State} {off v : Word} {strb : BitVec 4} {e : Event} {es : List Event}

/-! ## CMD, STATUS and CTRL by their offsets (10_state.md R21 to R24) -/

theorem regWordAt_cmd : RegWordAt ⟨0x000, .cmd, 1, .rwCmd⟩ 0 (0x000 : Word).toNat := ⟨by decide, by decide, rfl⟩

theorem regWordAt_status : RegWordAt ⟨0x004, .status, 1, .fields⟩ 0 (0x004 : Word).toNat := ⟨by decide, by decide, rfl⟩

theorem regWordAt_ctrl : RegWordAt ⟨0x008, .ctrl, 1, .fields⟩ 0 (0x008 : Word).toNat := ⟨by decide, by decide, rfl⟩

theorem RegWordAt.cmd_iff {r : RegRow} {i : Nat} (h : RegWordAt r i off.toNat) : r.name = .cmd ↔ off = 0x000 := by
  rw [h.name_eq_iff (q := ⟨0x000, .cmd, 1, .rwCmd⟩) (by decide) rfl, ← BitVec.toNat_inj]
  rfl

/-! ## How a command starts (70_reset_and_hazards.md R275, 10_state.md R22, R45) -/

theorem hostWrite_cmd_idle (hb : s.busy = false) (w : Word) :
    hostWrite s 0x000 w 0b1111#4 = (s.accept w).setReply (.write .okay) := by
  have haccept : registerWrite s .cmd 0 w = s.accept w := if_neg (by simp [hb])
  rw [hostWrite_reg regWordAt_cmd, haccept]

/-- Settles O47: the write is the acceptance of the word, answered OKAY. -/
theorem cmdWriteIsAcceptedWhenIdle : Obligations.CmdWriteIsAcceptedWhenIdle := by
  intro s w hb
  rw [hostWrite_cmd_idle hb]
  exact ⟨rfl, rfl, irq_of_not_done rfl⟩

theorem hostRead_busy (s : State) (off : Word) : (hostRead s off).busy = s.busy := by
  obtain ⟨r, h⟩ | ⟨-, h⟩ := hostRead_cases s off <;> rw [h] <;> rfl

/-- Of all host writes only an acceptance raises BUSY. -/
theorem hostWrite_raises_busy (hb : s.busy = false) (ht : (hostWrite s off v strb).busy = true) :
    off = 0x000 ∧ strb = 0b1111#4 := by
  obtain hc | hc | ⟨a, -, -, -, hc⟩ | ⟨r, i, htarget, h4, hstrb, hc⟩ := hostWrite_cases s off v strb <;> rw [hc] at ht
  · simp [hb] at ht
  · simp [hb] at ht
  · obtain ⟨-, hc⟩ | ⟨-, hc⟩ := dmemWrite_cases s a v strb <;> simp [hc, hb] at ht
  · have h := regWordAt_of_target h4 htarget
    obtain ⟨-, hc⟩ | ⟨-, -, hc⟩ | ⟨-, -, hc⟩ | ⟨-, -, -, hc⟩ | ⟨hcmd, -⟩ | ⟨-, -, -, -, hc⟩ :=
      registerWrite_cases s r.name i v
    · simp [hc, statusWrite, hb] at ht
    · simp [hc] at ht
    · simp [hc, hb] at ht
    · simp [hc, hb] at ht
    · exact ⟨h.cmd_iff.mp hcmd, hstrb⟩
    · simp [hc, hb] at ht

/-- Settles O48: the engine, reads and resets leave an idle CORE idle. -/
theorem busyRisesOnlyByACmdWrite : Obligations.BusyRisesOnlyByACmdWrite := by
  intro s t hb h ht
  obtain (⟨-, he⟩ | ⟨es, -, he⟩) | ⟨off, es, -, he⟩ | ⟨off, v, strb, es, hsch, he⟩ | ⟨es, -, he⟩ := step_cases s <;>
    rw [he] at h
  · simp [engineStep_busy h] at ht
  · simp [engineStep_busy h] at ht
  · cases h
    simp [hostRead_busy, hb] at ht
  · cases h
    obtain ⟨rfl, rfl⟩ := hostWrite_raises_busy (s := s.setSchedule es) hb ht
    refine ⟨v, es, hsch, ?_⟩
    rw [hostWrite_cmd_idle (s := s.setSchedule es) hb]
    rfl
  · cases h
    simp [powerOnReset] at ht

/-! ## Writes while BUSY (70_reset_and_hazards.md R277) -/

theorem registerWrite_dropped (hb : s.busy = true) {n : RegName} (hst : n ≠ .status) (hct : n ≠ .ctrl) (i : Nat)
    (v : Word) : registerWrite s n i v = s.setOvr true := by
  obtain ⟨h, -⟩ | ⟨h, -⟩ | ⟨h, -⟩ | ⟨-, -, -, h⟩ | ⟨-, h, -⟩ | ⟨-, -, -, h, -⟩ := registerWrite_cases s n i v
  · exact absurd h hst
  · exact absurd h hct
  · exact absurd h hct
  · exact h
  · cases hb.symm.trans h
  · cases hb.symm.trans h

theorem hostWrite_reg_dropped (hb : s.busy = true) (h4 : off.toNat % 4 = 0) (hr : RegisterOffset off.toNat)
    (hst : off ≠ 0x004) (hct : off ≠ 0x008) (v : Word) :
    hostWrite s off v 0b1111#4 = (s.setOvr true).setReply (.write .okay) := by
  obtain ⟨r, hmem, hlo, hhi⟩ := (registerOffset_iff _).mp hr
  have h := regWordAt_of_row h4 hmem hlo hhi
  rw [hostWrite_reg h, registerWrite_dropped hb (mt h.status_iff.mp hst) (mt h.ctrl_iff.mp hct)]

/-- An aligned offset of the DMEM window addresses the DMEM word there. -/
theorem targetOf_of_dmemOffset {x : Nat} (hd : DmemOffset s x) : targetOf s x = .dmem (x - 0x10000) := by
  obtain ⟨hlo, hhi⟩ := hd
  have hx : x = 0x10000 + (x - 0x10000) := by omega
  rw [← targetOf_dmem (s := s) (a := x - 0x10000) (by omega), ← hx]

theorem hostWrite_dmem_dropped (hb : s.busy = true) (h4 : off.toNat % 4 = 0) (hd : DmemOffset s off.toNat) (v : Word)
    (strb : BitVec 4) : hostWrite s off v strb = (s.setOvr true).setReply (.write .okay) := by
  simp only [hostWrite, if_neg (not_not.mpr h4), targetOf_of_dmemOffset hd, dmemWrite, hb, if_true]

theorem hostWrite_status (s : State) (v : Word) :
    hostWrite s 0x004 v 0b1111#4 = (statusWrite s v).setReply (.write .okay) :=
  hostWrite_reg regWordAt_status s v

theorem hostWrite_ctrl_ie (s : State) (hv : v.getLsbD 1 = false) :
    hostWrite s 0x008 v 0b1111#4 = (s.setIe (v.getLsbD 0)).setReply (.write .okay) := by
  have hctrl : registerWrite s .ctrl 0 v = s.setIe (v.getLsbD 0) := if_neg (by rw [hv]; decide)
  rw [hostWrite_reg regWordAt_ctrl, hctrl]

/-- Settles O49, by what the offset addresses. -/
theorem writesWhileBusyAreDropped : Obligations.WritesWhileBusyAreDropped := fun s _ v =>
  ⟨fun hb h4 hr hst hct => hostWrite_reg_dropped hb h4 hr hst hct v,
    fun strb hb h4 hd => hostWrite_dmem_dropped hb h4 hd v strb,
    fun _ h4 hr hd => hostWrite_reserved h4 (targetOf_reserved hd hr),
    hostWrite_status s v,
    fun hv => hostWrite_ctrl_ie s hv⟩

/-! ## Reads while BUSY (70_reset_and_hazards.md R278) -/

/-- The registers that keep their value while BUSY are those below NONCE. -/
theorem readsWhileBusy_of_mem : ∀ r ∈ regMap, readsWhileBusy r.name = decide (r.offset + 4 * r.words ≤ 0x40) := by decide

theorem hostRead_reg_drawn {r : RegRow} {i : Nat} (hb : s.busy = true) (h : RegWordAt r i off.toNat)
    (hr : readsWhileBusy r.name = false) : hostRead s off = drawnReply s := by
  have h4 : ¬off.toNat % 4 ≠ 0 := not_not.mpr h.aligned
  simp only [hostRead, if_neg h4, h.target s, hb, hr, Bool.not_false, Bool.and_self, if_true]

theorem hostRead_dmem_drawn (hb : s.busy = true) (h4 : off.toNat % 4 = 0) (hd : DmemOffset s off.toNat) :
    hostRead s off = drawnReply s := by
  simp only [hostRead, if_neg (not_not.mpr h4), targetOf_of_dmemOffset hd, hb, if_true]

/-- Settles O52, by what the offset addresses. -/
theorem readsWhileBusyAreDraws : Obligations.ReadsWhileBusyAreDraws := by
  intro s off hb h4
  refine ⟨⟨?_, ?_, ?_, ?_, ?_⟩, fun ⟨hlo, hhi⟩ => ?_, fun hoff => ?_⟩
  · exact readData_reg regWordAt_cmd (.inr rfl)
  · exact readData_reg regWordAt_status (.inr rfl)
  · exact readData_reg regWordAt_ctrl (.inr rfl)
  · exact readData_reg (r := ⟨0x00C, .id, 1, .const⟩) (i := 0) ⟨by decide, by decide, rfl⟩ (.inr rfl)
  · exact readData_reg (r := ⟨0x010, .dmemsz, 1, .const⟩) (i := 0) ⟨by decide, by decide, rfl⟩ (.inr rfl)
  · exact readData_reg (regWordAt_of_row (r := ⟨0x020, .key, 8, .wo⟩) h4 (by decide) hlo hhi) (.inr rfl)
  · obtain ⟨hr, hlo⟩ | hd := hoff
    · obtain ⟨r, hmem, hle, hlt⟩ := (registerOffset_iff _).mp hr
      have hdrawn : readsWhileBusy r.name = false := by
        rw [readsWhileBusy_of_mem r hmem]
        exact decide_eq_false (by omega)
      exact hostRead_reg_drawn hb (regWordAt_of_row h4 hmem hle hlt) hdrawn
    · exact hostRead_dmem_drawn hb h4 hd

/-! ## The command in flight and its completion (70_reset_and_hazards.md R276, R280) -/

/-- The engine's turn ends the command in flight, and CMD keeps its word. -/
def Completed (s t : State) : Prop := t.busy = false ∧ t.done = true ∧ t.cmd = s.cmd

/-- The same command is still in flight, and these events are to come. -/
def StillInFlight (s t : State) (es : List Event) : Prop := t.busy = true ∧ t.cmd = s.cmd ∧ t.schedule = es

theorem engineStep_completes (hb : s.busy = true) : ∃ t, engineStep s = .next t ∧ Completed s t := by
  obtain ⟨t, h⟩ := engineStep_goesOn s
  obtain ⟨hcmd, -⟩ := engineStep_keepsHostSide h
  exact ⟨t, h, engineStep_busy h, engineStep_done hb h, hcmd⟩

theorem hostRead_stillInFlight (hb : s.busy = true) (off : Word) : StillInFlight s (hostRead s off) s.schedule := by
  obtain ⟨r, h⟩ | ⟨-, h⟩ := hostRead_cases s off <;> rw [h] <;> exact ⟨hb, rfl, rfl⟩

theorem registerWrite_stillInFlight (hb : s.busy = true) (n : RegName) (i : Nat)
    (hr : n = .ctrl → v.getLsbD 1 = false) : StillInFlight s (registerWrite s n i v) s.schedule := by
  obtain ⟨-, hc⟩ | ⟨hn, hv, -⟩ | ⟨-, -, hc⟩ | ⟨-, -, -, hc⟩ | ⟨-, hidle, -⟩ | ⟨-, -, -, hidle, -⟩ :=
    registerWrite_cases s n i v
  · exact hc ▸ ⟨hb, rfl, rfl⟩
  · cases hv.symm.trans (hr hn)
  · exact hc ▸ ⟨hb, rfl, rfl⟩
  · exact hc ▸ ⟨hb, rfl, rfl⟩
  · cases hb.symm.trans hidle
  · cases hb.symm.trans hidle

theorem hostWrite_stillInFlight (hb : s.busy = true) (hr : isReset (.write off v strb) = false) :
    StillInFlight s (hostWrite s off v strb) s.schedule := by
  obtain hc | hc | ⟨a, -, -, -, hc⟩ | ⟨r, i, htarget, h4, hstrb, hc⟩ := hostWrite_cases s off v strb <;> rw [hc]
  · exact ⟨hb, rfl, rfl⟩
  · exact ⟨hb, rfl, rfl⟩
  · obtain ⟨-, hc⟩ | ⟨-, hc⟩ := dmemWrite_cases s a v strb <;> rw [hc] <;> exact ⟨hb, rfl, rfl⟩
  · have h := regWordAt_of_target h4 htarget
    refine registerWrite_stillInFlight hb r.name i fun hn => ?_
    simpa [isReset, h.ctrl_iff.mp hn, hstrb] using hr

/-- A step that is no reset completes the command in flight, or leaves it in flight with one event fewer to come. -/
theorem step_inFlight (hb : s.busy = true) (hsch : s.schedule = e :: es) (hr : isReset e = false) :
    ∃ t, step s = .next t ∧ (Completed s t ∨ StillInFlight s t es) := by
  have hb' : (s.setSchedule es).busy = true := hb
  obtain ⟨hread, hwrite, -, hengine, -⟩ := stepPerformsTheNextEvent s es
  cases e with
  | engine =>
    obtain ⟨t, ht, hdone⟩ := engineStep_completes hb'
    exact ⟨t, (hengine hsch).trans ht, .inl hdone⟩
  | read off => exact ⟨_, hread off hsch, .inr (hostRead_stillInFlight hb' off)⟩
  | write off v strb => exact ⟨_, hwrite off v strb hsch, .inr (hostWrite_stillInFlight hb' hr)⟩
  | powerOn => cases hr

theorem run_succ {M : Host.Core} {x y : M.State} (h : M.step x = .next y) (k : Nat) : M.run (k + 1) x = M.run k y := by
  rw [Host.Core.run, h]

/-- Settles O12, by induction on the events to come: each completes the command or leaves one fewer, and with none left the
engine has the turn. -/
theorem acceptedCommandCompletes : Obligations.AcceptedCommandCompletes := by
  intro s hb hreset
  induction hsch : s.schedule generalizing s with
  | nil =>
    obtain ⟨t, ht, hdone⟩ := engineStep_completes hb
    obtain ⟨-, -, -, -, hempty, -⟩ := stepPerformsTheNextEvent s []
    exact ⟨1, t, Nat.le_refl _, run_succ ((hempty hsch).trans ht) 0, hdone⟩
  | cons e es ih =>
    rw [hsch, List.forall_mem_cons] at hreset
    obtain ⟨he, hes⟩ := hreset
    obtain ⟨t, ht, hdone | ⟨htb, htc, hts⟩⟩ := step_inFlight hb hsch he
    · exact ⟨1, t, Nat.le_add_left _ _, run_succ ht 0, hdone⟩
    · obtain ⟨k, u, hk, hrun, hub, hud, huc⟩ := ih t htb (hts ▸ hes) hts
      exact ⟨k + 1, u, Nat.succ_le_succ hk, (run_succ ht k).trans hrun, hub, hud, huc.trans htc⟩

/-- The engine's turn is the completion step of the command that CMD decodes to. -/
theorem engineStep_command {i : Instr} (hb : s.busy = true) (hd : decode s.cmd = .command i) : engineStep s = exec i s := by
  simp only [engineStep, State.inFlight, hb, if_true, hd]

/-- Settles O6, for both turns of the engine. -/
theorem stepRunsTheCommandInFlight : Obligations.StepRunsTheCommandInFlight := by
  intro s i hb hd
  refine ⟨fun h => ?_, fun es h => ?_⟩
  · obtain ⟨-, -, -, -, hempty, -⟩ := stepPerformsTheNextEvent s []
    rw [hempty h, engineStep_command hb hd]
  · obtain ⟨-, -, -, hengine, -⟩ := stepPerformsTheNextEvent s es
    exact (hengine h).trans (engineStep_command (s := { s with schedule := es }) hb hd)

end Sys2Proof.Machine
end

section
/-!
PROOFS. The two resets and the abort of a command in flight: the registers at reset, DMEM at reset, and each byte of DMEM old
or new after an abort (70_reset_and_hazards.md R270 to R273).
-/

namespace Sys2Proof.Machine

open Sys2Proof.Claims

variable {s u : State}

/-! ## The registers at reset (70_reset_and_hazards.md R271) -/

/-- Every word of a cleared register array reads 0, and so does an index past its end. -/
theorem getD_replicate_zero (n i : Nat) : (Vector.replicate n (0 : Word))[i]?.getD 0 = 0 := by
  rw [Vector.getElem?_replicate]
  split <;> rfl

theorem readReg_resetRegisters (s : State) {n : RegName} (hid : n ≠ .id) (hsize : n ≠ .dmemsz) (i : Nat) :
    readReg s.resetRegisters n i = 0 := by
  cases n with
  | id => contradiction
  | dmemsz => contradiction
  | status =>
    show statusWord State.reset = 0
    decide
  | ctrl =>
    show ctrlWord State.reset = 0
    decide
  | nonce | subkey | s | ks | pkey | pr | ps | ph | pblk | tag | ptag => exact getD_replicate_zero _ i
  | _ => rfl

/-- A reset is this state: the registers reset, whatever it does to DMEM, the count of draws and the reply. -/
theorem registersReset_resetRegisters (s : State) (m : Memory) (k : Nat) (r : Option Reply) :
    RegistersReset { s.resetRegisters with dmem := m, draws := k, reply := r } s.id s.dmemsz := by
  refine ⟨fun n i hid hsize => ?_, rfl, rfl, rfl, rfl, rfl⟩
  rw [← readReg_resetRegisters s hid hsize i]
  cases n <;> rfl

theorem softReset_eq (s : State) : ∃ m k, softReset s = { s.resetRegisters with dmem := m, draws := k } := by
  obtain ⟨-, h⟩ | ⟨-, h⟩ := softReset_cases s
  · exact ⟨s.dmem, s.draws, h⟩
  · exact ⟨abortedDmem s, s.draws + 1, h⟩

/-- A full-strobe write of CTRL with SRST is the soft reset, answered OKAY (10_state.md R24, 70_reset_and_hazards.md R270). -/
theorem hostWrite_srst (s : State) {v : Word} (hv : v.getLsbD 1 = true) :
    hostWrite s 0x008 v 0b1111#4 = (softReset s).setReply (.write .okay) := by
  have hctrl : registerWrite s .ctrl 0 v = softReset s := if_pos hv
  rw [hostWrite_reg regWordAt_ctrl, hctrl]

theorem registersReset_softReset (s : State) : RegistersReset (softReset s) s.id s.dmemsz := by
  obtain ⟨m, k, h⟩ := softReset_eq s
  rw [h]
  exact registersReset_resetRegisters s m k _

theorem registersReset_srst (s : State) {v : Word} (hv : v.getLsbD 1 = true) :
    RegistersReset (hostWrite s 0x008 v 0b1111#4) s.id s.dmemsz := by
  obtain ⟨m, k, h⟩ := softReset_eq s
  rw [hostWrite_srst s hv, h]
  exact registersReset_resetRegisters s m k _

/-- Settles O58: each reset leaves `resetRegisters` but for DMEM and the model's own fields. -/
theorem resetSetsEveryRegister : Obligations.ResetSetsEveryRegister := by
  refine ⟨registersReset_resetRegisters State.reset _ _ _, fun s => ⟨registersReset_softReset s,
    registersReset_resetRegisters s _ _ _, fun v hv => ⟨registersReset_srst s hv, ?_⟩⟩⟩
  rw [hostWrite_srst s hv, State.setReply_reply]

/-! ## The invariant at reset (10_state.md R34, R36) -/

theorem dataInv_reset : State.reset.DataInv :=
  ⟨by decide, reset_dmem_wf, by simp [State.reset], by decide, by decide⟩

/-- Settles O11: DMEM lists nothing, PH and PR are 0, and no flag is set. -/
theorem resetMeetsTheInvariant : Obligations.ResetMeetsTheInvariant :=
  State.reset.inv_iff.mpr ⟨dataInv_reset, .of_idle rfl rfl⟩

/-! ## DMEM at reset (70_reset_and_hazards.md R272) -/

theorem softReset_dmem_idle (hb : s.busy = false) : (softReset s).dmem = s.dmem := by
  rw [softReset, hb, if_neg Bool.false_ne_true, State.resetRegisters_dmem]

theorem Memory.read_powerOn (k a : Nat) : (⟨.powerOn k, []⟩ : Memory).read a = Config.freeByte k a := rfl

/-- Settles O59: an idle soft reset keeps DMEM as data, and a power-on image lists no byte. -/
theorem resetKeepsOrDrawsDmem : Obligations.ResetKeepsOrDrawsDmem := fun s =>
  ⟨fun hb a => by rw [softReset_dmem_idle hb], Memory.read_powerOn s.draws, rfl, Memory.read_powerOn 0⟩

/-! ## The abort of a command in flight (70_reset_and_hazards.md R273) -/

/-- Each byte of `m` is that of `old` or that of `new`, as draw `k` decides. -/
def EachByteOldOrNew (k : Nat) (old new m : Memory) : Prop := ∀ a, m.read a = oldOrNew k a (old.read a) (new.read a)

/-- Where no byte would change, the draw has no choice. -/
theorem EachByteOldOrNew.of_eq {k : Nat} {old new m : Memory} (hnew : new = old) (hm : m = old) :
    EachByteOldOrNew k old new m := by
  intro a
  rw [hnew, hm]
  exact (ite_self _).symm

theorem Memory.abortWrite_oldOrNew {m : Memory} (hm : m.wf) (k off : Nat) (b : List Byte) :
    EachByteOldOrNew k m (m.writeBytes off b) (m.abortWrite k off b) := by
  intro a
  rw [Memory.read_abortWrite m hm, Memory.read_writeBytes b m hm]
  split
  · rfl
  · exact (ite_self _).symm

theorem Memory.abortZero_oldOrNew {m : Memory} (hm : m.wf) (k : Nat) :
    EachByteOldOrNew k m Memory.zeroed (m.abortZero k) := Memory.read_abortZero m hm k

/-- The abort of a word that is not `zeroize dmem`, AEAD_ENC or AEAD_DEC leaves DMEM. -/
theorem abortedDmem_of_writes_none
    (h : ∀ i, decode s.cmd = .command i → i ≠ .zeroize true ∧ i ≠ .aeadEnc ∧ i ≠ .aeadDec) : abortedDmem s = s.dmem := by
  unfold abortedDmem
  split
  next hd => exact absurd rfl (h _ hd).2.1
  next hd => exact absurd rfl (h _ hd).2.2
  next hd => exact absurd rfl (h _ hd).1
  next => rfl

theorem abortedDmem_aeadEnc (hm : s.dmem.wf) (hd : decode s.cmd = .command .aeadEnc) (h : exec .aeadEnc s = .next u) :
    EachByteOldOrNew s.draws s.dmem u.dmem (abortedDmem s) := by
  obtain ⟨c, hc, he⟩ | ⟨hc, out, rfl, he⟩ := execAeadEnc_cases s <;> cases he.symm.trans h
  · exact .of_eq rfl (by simp only [abortedDmem, hd, hc])
  · simp only [abortedDmem, hd, hc, encOutput_ok s hc]
    exact Memory.abortWrite_oldOrNew hm _ _ _

/-- A ciphertext that fails authentication releases no byte, aborted or not. -/
theorem abortedDmem_aeadDec (hm : s.dmem.wf) (hd : decode s.cmd = .command .aeadDec) (h : exec .aeadDec s = .next u) :
    EachByteOldOrNew s.draws s.dmem u.dmem (abortedDmem s) := by
  obtain ⟨c, hc, he⟩ | ⟨hc, hx, he⟩ | ⟨hc, p, hx, -, he⟩ := execAeadDec_cases s <;> cases he.symm.trans h
  · exact .of_eq rfl (by simp only [abortedDmem, hd, hc])
  · exact .of_eq rfl (by simp only [abortedDmem, hd, hc, decOutput_ok s hc, hx])
  · simp only [abortedDmem, hd, hc, decOutput_ok s hc, hx]
    exact Memory.abortWrite_oldOrNew hm _ _ _

theorem abortedDmem_zeroize (hm : s.dmem.wf) (hd : decode s.cmd = .command (.zeroize true)) :
    EachByteOldOrNew s.draws s.dmem Memory.zeroed (abortedDmem s) := by
  simp only [abortedDmem, hd]
  exact Memory.abortZero_oldOrNew hm _

/-- An abort leaves each byte as it was or as the engine's turn would have left it. -/
theorem abortedDmem_oldOrNew (hb : s.busy = true) (hm : s.dmem.wf) (h : engineStep s = .next u) :
    EachByteOldOrNew s.draws s.dmem u.dmem (abortedDmem s) := by
  obtain ⟨hidle, -⟩ | ⟨-, hd, he⟩ | ⟨-, hd, he⟩ | ⟨-, i, hd, he⟩ := engineStep_cases s
  · cases hb.symm.trans hidle
  · cases he.symm.trans h
    exact .of_eq rfl (abortedDmem_of_writes_none (by simp [hd]))
  · cases he.symm.trans h
    exact .of_eq rfl (abortedDmem_of_writes_none (by simp [hd]))
  · have hexec := he.symm.trans h
    by_cases hz : i = .zeroize true
    · subst hz
      cases hexec
      exact abortedDmem_zeroize hm hd
    by_cases henc : i = .aeadEnc
    · subst henc
      exact abortedDmem_aeadEnc hm hd hexec
    by_cases hdec : i = .aeadDec
    · subst hdec
      exact abortedDmem_aeadDec hm hd hexec
    · refine .of_eq ((exec_writesOnly hexec).dmem hz henc hdec) (abortedDmem_of_writes_none fun j hj => ?_)
      obtain rfl : i = j := by simpa [hd] using hj
      exact ⟨hz, henc, hdec⟩

theorem softReset_dmem_busy (hb : s.busy = true) : (softReset s).dmem = abortedDmem s := by
  rw [softReset, hb, if_pos rfl, State.takeDraw_dmem, State.setDmem_dmem]

/-- Settles O60: a CTRL write with SRST is the soft reset, whose DMEM is that of the abort. -/
theorem abortLeavesEachByteOldOrNew : Obligations.AbortLeavesEachByteOldOrNew := by
  intro s v hb hm hv
  obtain ⟨u, hu⟩ := engineStep_goesOn s
  refine ⟨u, hu, fun a => ?_, ?_, ?_, registersReset_srst s hv, ?_⟩ <;> rw [hostWrite_srst s hv]
  · rw [State.setReply_dmem, softReset_dmem_busy hb, abortedDmem_oldOrNew hb hm hu a, oldOrNew]
  · exact softReset_done s
  · exact softReset_ovr s
  · rfl

end Sys2Proof.Machine
end
